-- ==== Sys2Proof/Word.lean ====
section
/-! DEFINITION. The words of the block: bytes and levels (00_scope.md R10, R14). -/

namespace Sys2Proof

/-- A byte, 8 bits, bit 0 the least significant (00_scope.md R10). -/
abbrev Byte := BitVec 8

/-- The level of a pin: `false` is 0 (low), `true` is 1 (high) (00_scope.md R14). -/
abbrev Level := Bool

end Sys2Proof
end

