-- ==== Sys2Proof/Config.lean ====
section
/-! DEFINITION. What an implementation fixes: the parameters of 00_scope.md R9, and the constants without a
value behind which everything lies that the spec leaves to the outside (the peer, the DST hook, the order of a
TICK, the settle delay) and the one value it does not state. -/

namespace Sys2Proof

/-- The open parameters of 00_scope.md R9 that some rule reads. The machine's state carries them and no step
writes them, so that a statement about every state is a statement about every choice of them (DESIGN CHOICE,
log 3). -/
structure Params where
  /-- `EPOCH_BITS`, the width of an epoch-seconds value. -/
  epochBits : Nat
  /-- `YEAR_BASE`, the year from which the broken-down year field counts. -/
  yearBase : Int
  /-- `MS_BITS`, the width of a millisecond reading. -/
  msBits : Nat
  /-- `ZONE_BITS`, the width of the signed zone offset. -/
  zoneBits : Nat
  /-- `SIZE_BITS`, the width of the size operand of the memory bursts. -/
  sizeBits : Nat
  /-- `AUTO_WP`, whether `RAM_BURST_WR` clears and sets write protect itself. -/
  autoWp : Bool
  /-- `WP_ON`, the byte that protects the peer. -/
  wpOn : Byte
  /-- `WP_OFF`, the byte that clears the protection. -/
  wpOff : Byte
  /-- `HAS_TICK_UNIT`, whether the software clock exists. -/
  hasTickUnit : Bool
  /-- `HAS_ISOTIME`, whether the operation `ISOTIME` exists. -/
  hasIsotime : Bool
deriving DecidableEq, Repr

/-- The defaults of 00_scope.md R9. -/
def Params.default : Params where
  epochBits := 32
  yearBase := 1900
  msBits := 32
  zoneBits := 32
  sizeBits := 16
  autoWp := true
  wpOn := 0x80#8
  wpOff := 0x00#8
  hasTickUnit := true
  hasIsotime := true

/-- Every width of R9 is the width of something: none is 0. -/
abbrev Params.wf (p : Params) : Prop :=
  0 < p.epochBits ∧ 0 < p.msBits ∧ 0 < p.zoneBits ∧ 0 < p.sizeBits

namespace Config

/-- The level the peer answers to the `n`-th `Read(DAT)` when nothing in the state says what it answers
(20_memory.md R70: "supplies the levels as a free input"). A free value: it has no body (log 4). -/
opaque peerLevel : Nat → Level

/-- The DST hook of 42_calendar.md R218: from a UTC instant to (active, adjustment in seconds), an external pure
function of which the block assumes nothing else. A free value (log 6). -/
opaque dstHook : Nat → Bool × Int

/-- Whether the TICK goes first, the `n`-th time a TICK and other work are both ready: 43_softclock.md R255 leaves
the order open. A free value (log 7). -/
opaque tickFirst : Nat → Bool

/-- What the 16-bit year field holds of a calendar year less `YEAR_BASE` that does not fit it, which the spec does not
state: it can be so only at unusual widths or bases (42_calendar.md R205; 10_state.md R36). A free value (log 24). -/
opaque wideYear : Int → BitVec 16

/-- `T_SETTLE`, the length of the settle delay (41_protocol.md R147): unbound, and read by nothing (log 21). -/
opaque settleDelay : Nat

end Config

end Sys2Proof
end

