-- ==== Sys2Proof/Syntax.lean ====
section
/-! DEFINITION. What the machine is asked to do: the request of the host port (10_state.md R22), the start request
of the sequencer (41_protocol.md R151), the records they carry (R36, R38), and the one inductive of instructions,
a constructor for each of the 40 rows of spec/opcode_table.json. -/

namespace Sys2Proof

/-- The broken-down-time record `TM`, every field a two's-complement number at the width of 10_state.md R36. -/
structure Tm where
  sec : BitVec 8
  min : BitVec 8
  hour : BitVec 8
  mday : BitVec 8
  /-- Months since January, 0 to 11 when normalised (90_conflicts.md C7). -/
  mon : BitVec 8
  /-- Weekday, Sunday = 0. -/
  wday : BitVec 8
  /-- Calendar year minus `YEAR_BASE`. -/
  year : BitVec 16
  yday : BitVec 16
  /-- -1 unknown, 0 off, 1 on. -/
  isdst : BitVec 8
deriving DecidableEq, Repr

/-- The record with every field 0. -/
def Tm.zero : Tm := ⟨0, 0, 0, 0, 0, 0, 0, 0, 0⟩

/-- The register block `BLK[0..7]` in the order of 10_state.md R38. -/
structure Blk where
  seconds : Byte
  minutes : Byte
  hours : Byte
  date : Byte
  month : Byte
  weekday : Byte
  year : Byte
  wp : Byte
deriving DecidableEq, Repr

/-- The block of eight zero bytes. -/
def Blk.zero : Blk := ⟨0, 0, 0, 0, 0, 0, 0, 0⟩

/-- The eight bytes in the order they travel (20_memory.md R65). -/
def Blk.toList (k : Blk) : List Byte :=
  [k.seconds, k.minutes, k.hours, k.date, k.month, k.weekday, k.year, k.wp]

/-- The block whose byte `i` is element `i` of `d`; `rdTxn` hands eight bytes, elements a shorter list lacks
read as 0. -/
def Blk.ofList (d : List Byte) : Blk :=
  ⟨d.getD 0 0, d.getD 1 0, d.getD 2 0, d.getD 3 0, d.getD 4 0, d.getD 5 0, d.getD 6 0, d.getD 7 0⟩

/-- A request on the host port: the operation code and every operand field of 10_state.md R22, as the wires carry
them. Fields whose width is a parameter (`size`, `t`, `zone`, `ms`) are raw numbers of which the decoder reads the
low bits. An operand an operation does not name is ignored by it. -/
structure HostReq where
  op : Byte
  n : Byte
  b : Byte
  addr : Byte
  size : Nat
  data : List Byte
  blk : Blk
  tm : Tm
  t : Nat
  year : BitVec 16
  zone : Nat
  flag : Bool
  isLocal : Bool
  ms : Nat
deriving DecidableEq, Repr

/-- The request of code `op` with every operand field 0. -/
def HostReq.blank (op : Byte) : HostReq where
  op := op
  n := 0
  b := 0
  addr := 0
  size := 0
  data := []
  blk := Blk.zero
  tm := Tm.zero
  t := 0
  year := 0
  zone := 0
  flag := false
  isLocal := false
  ms := 0

/-- The start request of the sequencer (41_protocol.md R151): command byte `c`, data count `k`, and for a write
the data bytes. -/
structure TxnReq where
  cmd : Byte
  cnt : BitVec 5
  data : List Byte
deriving DecidableEq, Repr

/-- The two formats of spec/opcode_table.json: HOSTOP and WIRE_CMD. -/
inductive Request where
  | host (r : HostReq)
  | wire (r : TxnReq)
deriving DecidableEq, Repr

/-- Every row of spec/opcode_table.json: 31 host operations (30_encoding.md R100) and 9 wire commands
(30_encoding.md R90 to R97). -/
inductive Instr where
  -- BCD codec (40_bcd.md)
  | toBcd (n : Byte)
  | fromBcd (b : Byte)
  | blkPack (tm : Tm) (flag : Bool)
  | blkUnpack (blk : Blk)
  -- wire operations (41_protocol.md)
  | regRd (addr : Byte)
  | regWr (addr b : Byte)
  | clkBurstRd
  | clkBurstWr (blk : Blk)
  | ramRd (addr : Byte)
  | ramWr (addr b : Byte)
  | ramBurstRd (size : Nat)
  | ramBurstWr (size : Nat) (data : List Byte)
  | wpSet (flag : Bool)
  | chipGetTime
  | chipSetTime (tm : Tm) (flag : Bool)
  -- calendar engine (42_calendar.md)
  | isLeap (year : BitVec 16)
  | daysToEpoch (year : BitVec 16)
  | mkGmtime (tm : Tm)
  | mktimeUtc (tm : Tm)
  | mktimeLocal (tm : Tm)
  | gmtime (t : Nat)
  | localtime (t : Nat)
  | setZone (zone : Int)
  | getZone
  | setDst (flag : Bool)
  | isotime (tm : Tm)
  -- tick unit (43_softclock.md)
  | tick (ms : Nat)
  | getTime
  | setTime (t : Nat)
  | getTimeTm
  | setTimeTm (tm : Tm)
  -- wire commands (30_encoding.md R92 to R97), each one transaction of 41_protocol.md R160 or R161
  | wireClkBurstWr (blk : Blk)
  | wireClkBurstRd
  | wireRamBurstWr (data : List Byte)
  | wireRamBurstRd (cnt : BitVec 5)
  | wireClkWr (a : BitVec 5) (b : Byte)
  | wireClkRd (a : BitVec 5)
  | wireRamWr (a : BitVec 5) (b : Byte)
  | wireRamRd (a : BitVec 5)
  | wireNeverSent (c : BitVec 7)
deriving DecidableEq, Repr

end Sys2Proof
end

