-- ==== Sys2Proof/WellFormed.lean ====
section
/-! DEFINITION. Which instructions are well formed: the operand ranges of 30_encoding.md R102 at the parameters'
widths, the data length of 41_protocol.md R174, and the data counts of 30_encoding.md R96 for the wire commands.
Every other operand has its range in its type. -/

namespace Sys2Proof

/-- `z` is a two's-complement number of `bits` bits. -/
def inSigned (bits : Nat) (z : Int) : Bool :=
  decide (-(2 ^ (bits - 1)) ≤ z) && decide (z < 2 ^ (bits - 1))

/-- The well-formed instructions at the parameters `p`. -/
def Instr.wf (p : Params) : Instr → Bool
  | .ramBurstRd size => decide (size < 2 ^ p.sizeBits)
  | .ramBurstWr size data => decide (size < 2 ^ p.sizeBits) && decide (min size 31 ≤ data.length)
  | .gmtime t => decide (t < 2 ^ p.epochBits)
  | .localtime t => decide (t < 2 ^ p.epochBits)
  | .setZone zone => inSigned p.zoneBits zone
  | .tick ms => decide (ms < 2 ^ p.msBits)
  | .setTime t => decide (t < 2 ^ p.epochBits)
  | .wireRamBurstWr data => decide (1 ≤ data.length) && decide (data.length ≤ 31)
  | .wireRamBurstRd cnt => decide (cnt ≠ 0)
  | .wireRamWr a _ => decide (a ≠ 31)
  | .wireRamRd a => decide (a ≠ 31)
  | .toBcd _ | .fromBcd _ | .blkPack _ _ | .blkUnpack _ => true
  | .regRd _ | .regWr _ _ | .clkBurstRd | .clkBurstWr _ | .ramRd _ | .ramWr _ _ => true
  | .wpSet _ | .chipGetTime | .chipSetTime _ _ => true
  | .isLeap _ | .daysToEpoch _ | .mkGmtime _ | .mktimeUtc _ | .mktimeLocal _ => true
  | .getZone | .setDst _ | .isotime _ => true
  | .getTime | .getTimeTm | .setTimeTm _ => true
  | .wireClkBurstWr _ | .wireClkBurstRd | .wireClkWr _ _ | .wireClkRd _ | .wireNeverSent _ => true

end Sys2Proof
end

