-- ==== Sys2Proof/Decode.lean ====
section
/-! DEFINITION. The two encodings of 30_encoding.md: the host operation codes (R101, R102) and the wire command
byte (R90 to R97), decoders and encoders, and the bit-field helpers they use. The decoders are total on any
request and reject by name. -/

namespace Sys2Proof

/-! ## Operand widths (30_encoding.md R102) -/

/-- The unsigned number in the low `bits` bits of the raw field `v`. -/
def readUnsigned (bits v : Nat) : Nat := v % 2 ^ bits

/-- The two's-complement number in the low `bits` bits of the integer `v` (00_scope.md R11). -/
def wrapSigned (bits : Nat) (v : Int) : Int :=
  let u := v % 2 ^ bits
  if u < 2 ^ (bits - 1) then u else u - 2 ^ bits

/-- The raw field that carries the signed number `z` in `bits` bits. -/
def rawSigned (bits : Nat) (z : Int) : Nat := (z % 2 ^ bits).toNat

/-! ## The wire command byte (30_encoding.md R90 to R94) -/

/-- The direction of a transaction. -/
inductive Direction where
  | write
  | read
deriving DecidableEq, Repr

/-- "write bit = 0x80, read bit = 0x81" (R92). -/
def Direction.bits : Direction → Byte
  | .write => 0x80#8
  | .read => 0x81#8

/-- `ADDR_MASK` (00_scope.md R8). -/
def addrMask : Byte := 0x3F#8

/-- `RAM_BASE`, the device address of memory address 0 (20_memory.md R62). -/
def ramBase : Byte := 32#8

/-- Command byte formation (30_encoding.md R92). -/
def cmdByte (addr : Byte) (dir : Direction) : Byte :=
  ((addr &&& addrMask) <<< 1) ||| dir.bits

/-- The command byte of memory address `a` (30_encoding.md R94). -/
def ramCmd (a : Byte) (dir : Direction) : Byte := cmdByte (ramBase + a) dir

/-- The burst command bytes (30_encoding.md R93). -/
def clkBurstCmd : Direction → Byte
  | .write => 0xBE#8
  | .read => 0xBF#8

/-- The memory burst command bytes (30_encoding.md R93). -/
def ramBurstCmd : Direction → Byte
  | .write => 0xFE#8
  | .read => 0xFF#8

/-- The device address of the write-protect register (10_state.md R38). -/
def wpAddr : Byte := 7#8

/-- The device address in bits 6 to 1 of a command byte (30_encoding.md R90). -/
def cmdAddr (c : Byte) : Nat := (c.toNat / 2) % 64

/-! ## Decoding -/

/-- Why a request names no instruction. -/
inductive DecodeError where
  /-- The operation code is not in the table of 30_encoding.md R101. -/
  | badOp (op : Byte)
  /-- The start request has a data count, or data, that no operation gives its command byte
  (30_encoding.md R96). -/
  | badTxn (cmd : Byte)
deriving DecidableEq, Repr

/-- The instruction a host request names (30_encoding.md R101), its operands read at the widths of R102.
The codes of a unit that is absent are refused by the meaning (log 22). -/
def decodeHost (p : Params) (r : HostReq) : Except DecodeError Instr :=
  match r.op.toNat with
  | 0x01 => .ok (.toBcd r.n)
  | 0x02 => .ok (.fromBcd r.b)
  | 0x03 => .ok (.blkPack r.tm r.flag)
  | 0x04 => .ok (.blkUnpack r.blk)
  | 0x10 => .ok (.regRd r.addr)
  | 0x11 => .ok (.regWr r.addr r.b)
  | 0x12 => .ok .clkBurstRd
  | 0x13 => .ok (.clkBurstWr r.blk)
  | 0x14 => .ok (.ramRd r.addr)
  | 0x15 => .ok (.ramWr r.addr r.b)
  | 0x16 => .ok (.ramBurstRd (readUnsigned p.sizeBits r.size))
  | 0x17 => .ok (.ramBurstWr (readUnsigned p.sizeBits r.size) r.data)
  | 0x18 => .ok (.wpSet r.flag)
  | 0x19 => .ok .chipGetTime
  | 0x1A => .ok (.chipSetTime r.tm r.flag)
  | 0x20 => .ok (.isLeap r.year)
  | 0x21 => .ok (.daysToEpoch r.year)
  | 0x22 => .ok (.mkGmtime r.tm)
  | 0x23 => .ok (if r.isLocal then .mktimeLocal r.tm else .mktimeUtc r.tm)
  | 0x24 => .ok (.gmtime (readUnsigned p.epochBits r.t))
  | 0x25 => .ok (.localtime (readUnsigned p.epochBits r.t))
  | 0x26 => .ok (.setZone (wrapSigned p.zoneBits r.zone))
  | 0x27 => .ok .getZone
  | 0x28 => .ok (.setDst r.flag)
  | 0x29 => .ok (.isotime r.tm)
  | 0x30 => .ok (.tick (readUnsigned p.msBits r.ms))
  | 0x31 => .ok .getTime
  | 0x32 => .ok (.setTime (readUnsigned p.epochBits r.t))
  | 0x33 => .ok .getTimeTm
  | 0x34 => .ok (.setTimeTm r.tm)
  | _ => .error (.badOp r.op)

/-- The one data byte of a single write, if that is what the request carries. -/
def oneByte (r : TxnReq) : Option Byte :=
  match r.data with
  | [b] => if r.cnt = 1 then some b else none
  | _ => none

/-- The eight data bytes of a register block write, if that is what the request carries. -/
def eightBytes (r : TxnReq) : Option Blk :=
  match r.data with
  | [b0, b1, b2, b3, b4, b5, b6, b7] => if r.cnt = 8 then some ⟨b0, b1, b2, b3, b4, b5, b6, b7⟩ else none
  | _ => none

/-- The transaction a write command opens: the rows of the table most specific first, the single rows by the
address in bits 5 to 1 (30_encoding.md R90, R93, R94). -/
def decodeWrite (r : TxnReq) : Option Instr :=
  if r.cmd = ramBurstCmd .write then
    if 1 ≤ r.data.length ∧ r.data.length ≤ 31 ∧ r.cnt.toNat = r.data.length then
      some (.wireRamBurstWr r.data)
    else none
  else
    match eightBytes r, oneByte r with
    | some blk, _ => if r.cmd = clkBurstCmd .write then some (.wireClkBurstWr blk) else none
    | none, some b =>
      let a := BitVec.ofNat 5 (cmdAddr r.cmd)
      some (if cmdAddr r.cmd < 32 then .wireClkWr a b else .wireRamWr a b)
    | none, none => none

/-- The transaction a read command opens. -/
def decodeRead (r : TxnReq) : Option Instr :=
  if r.data ≠ [] ∨ r.cnt = 0 then none
  else if r.cmd = ramBurstCmd .read then some (.wireRamBurstRd r.cnt)
  else if r.cnt = 8 then
    if r.cmd = clkBurstCmd .read then some .wireClkBurstRd else none
  else if r.cnt = 1 then
    let a := BitVec.ofNat 5 (cmdAddr r.cmd)
    some (if cmdAddr r.cmd < 32 then .wireClkRd a else .wireRamRd a)
  else none

/-- The transaction a start request names (30_encoding.md R90 to R97). A command byte below 0x80 is the row
WIRE_NEVER_SENT, whatever comes with it. -/
def decodeTxn (r : TxnReq) : Except DecodeError Instr :=
  if r.cmd.getLsbD 7 then
    match if r.cmd.getLsbD 0 then decodeRead r else decodeWrite r with
    | some i => .ok i
    | none => .error (.badTxn r.cmd)
  else .ok (.wireNeverSent (r.cmd.setWidth 7))

/-- The instruction of a request, host or wire. -/
def decode (p : Params) : Request → Except DecodeError Instr
  | .host r => decodeHost p r
  | .wire r => decodeTxn r

/-! ## Encoding -/

/-- The request of a well-formed instruction: its operation code from the table of 30_encoding.md R101 with its
operands in the fields of 10_state.md R22, or its command byte from 30_encoding.md R92 to R94 with its data. -/
def encode (p : Params) : Instr → Request
  | .toBcd n => .host { HostReq.blank 0x01 with n := n }
  | .fromBcd b => .host { HostReq.blank 0x02 with b := b }
  | .blkPack tm flag => .host { HostReq.blank 0x03 with tm := tm, flag := flag }
  | .blkUnpack blk => .host { HostReq.blank 0x04 with blk := blk }
  | .regRd addr => .host { HostReq.blank 0x10 with addr := addr }
  | .regWr addr b => .host { HostReq.blank 0x11 with addr := addr, b := b }
  | .clkBurstRd => .host (HostReq.blank 0x12)
  | .clkBurstWr blk => .host { HostReq.blank 0x13 with blk := blk }
  | .ramRd addr => .host { HostReq.blank 0x14 with addr := addr }
  | .ramWr addr b => .host { HostReq.blank 0x15 with addr := addr, b := b }
  | .ramBurstRd size => .host { HostReq.blank 0x16 with size := size }
  | .ramBurstWr size data => .host { HostReq.blank 0x17 with size := size, data := data }
  | .wpSet flag => .host { HostReq.blank 0x18 with flag := flag }
  | .chipGetTime => .host (HostReq.blank 0x19)
  | .chipSetTime tm flag => .host { HostReq.blank 0x1A with tm := tm, flag := flag }
  | .isLeap year => .host { HostReq.blank 0x20 with year := year }
  | .daysToEpoch year => .host { HostReq.blank 0x21 with year := year }
  | .mkGmtime tm => .host { HostReq.blank 0x22 with tm := tm }
  | .mktimeUtc tm => .host { HostReq.blank 0x23 with tm := tm, isLocal := false }
  | .mktimeLocal tm => .host { HostReq.blank 0x23 with tm := tm, isLocal := true }
  | .gmtime t => .host { HostReq.blank 0x24 with t := t }
  | .localtime t => .host { HostReq.blank 0x25 with t := t }
  | .setZone zone => .host { HostReq.blank 0x26 with zone := rawSigned p.zoneBits zone }
  | .getZone => .host (HostReq.blank 0x27)
  | .setDst flag => .host { HostReq.blank 0x28 with flag := flag }
  | .isotime tm => .host { HostReq.blank 0x29 with tm := tm }
  | .tick ms => .host { HostReq.blank 0x30 with ms := ms }
  | .getTime => .host (HostReq.blank 0x31)
  | .setTime t => .host { HostReq.blank 0x32 with t := t }
  | .getTimeTm => .host (HostReq.blank 0x33)
  | .setTimeTm tm => .host { HostReq.blank 0x34 with tm := tm }
  | .wireClkBurstWr blk => .wire ⟨clkBurstCmd .write, 8, blk.toList⟩
  | .wireClkBurstRd => .wire ⟨clkBurstCmd .read, 8, []⟩
  | .wireRamBurstWr data => .wire ⟨ramBurstCmd .write, BitVec.ofNat 5 data.length, data⟩
  | .wireRamBurstRd cnt => .wire ⟨ramBurstCmd .read, cnt, []⟩
  | .wireClkWr a b => .wire ⟨cmdByte (a.setWidth 8) .write, 1, [b]⟩
  | .wireClkRd a => .wire ⟨cmdByte (a.setWidth 8) .read, 1, []⟩
  | .wireRamWr a b => .wire ⟨ramCmd (a.setWidth 8) .write, 1, [b]⟩
  | .wireRamRd a => .wire ⟨ramCmd (a.setWidth 8) .read, 1, []⟩
  | .wireNeverSent c => .wire ⟨c.setWidth 8, 1, []⟩

/-! ## Words of the opcode table -/

/-- Whether `op` is a code of the table of 30_encoding.md R101. -/
def assignedOp (op : Byte) : Bool :=
  match decodeHost Params.default (HostReq.blank op) with
  | .ok _ => true
  | .error _ => false

/-- The start request of a bare command byte: the data count its table row gives it (eight for the register block
bursts, else one) and data bytes of zeros. -/
def wireRequest (c : Byte) : TxnReq :=
  let k := if c = clkBurstCmd .write ∨ c = clkBurstCmd .read then 8 else 1
  ⟨c, BitVec.ofNat 5 k, if c.getLsbD 0 then [] else List.replicate k 0⟩

/-- The request whose bits are `w`: an assigned operation code with operand fields of zeros, else a command byte.
The table has both formats and both are 8 bits wide (log 13). -/
def wordRequest (w : Nat) : Request :=
  let c := BitVec.ofNat 8 w
  if assignedOp c then .host (HostReq.blank c) else .wire (wireRequest c)

/-- The instruction this decoder reads from the table word `w` of `nbits` bits. -/
def decodeTableWord (nbits w : Nat) : Option Instr :=
  if w < 2 ^ nbits ∧ w < 256 then
    match decode Params.default (wordRequest w) with
    | .ok i => some i
    | .error _ => none
  else none

end Sys2Proof
end

