-- ==== Sys2Proof/Machine/State.lean ====
section
/-! DEFINITION. The state of the block (10_state.md R20), its ports, the wires' trace, the peer behind the wires,
the reasons a step can stop, and the state after reset (70_reset_and_hazards.md R290, R291). -/

namespace Sys2Proof.Machine

/-! ## Pins -/

/-- The direction of the data pin (10_state.md R28). -/
inductive PinDir where
  | out
  | inp
deriving DecidableEq, Repr

/-- The event alphabet of the block: the combinations 00_scope.md R16 says occur, the last three at reset only. -/
inductive PinEvent where
  /-- `Write(CS, l)` -/
  | writeCs (l : Level)
  /-- `Write(DAT, l)` -/
  | writeDat (l : Level)
  /-- `Read(DAT) -> l` -/
  | readDat (l : Level)
  /-- `Toggle(CLK)` -/
  | toggleClk
  /-- `SetIn(DAT)` -/
  | setInDat
  /-- `SetOut(DAT)` -/
  | setOutDat
  /-- `Settle` -/
  | settle
  /-- `SetOut(CS)` -/
  | setOutCs
  /-- `SetOut(CLK)` -/
  | setOutClk
  /-- `Write(CLK, l)` -/
  | writeClk (l : Level)
deriving DecidableEq, Repr

/-- The pin state: `CS_LVL`, `CLK_LVL`, `DAT_DIR`, `DAT_LATCH` (10_state.md R26 to R29). -/
structure Pins where
  cs : Level
  clk : Level
  dir : PinDir
  latch : Level
deriving DecidableEq, Repr

/-! ## Sequencer -/

/-- The phases of the sequencer (10_state.md R32). -/
inductive Phase where
  | idle
  | cmd
  | turn
  | data
  | down
  | release
deriving DecidableEq, Repr

/-- `SEQ = (PH, SUB, BIT, IDX)` (10_state.md R32). -/
structure Seq where
  ph : Phase
  sub : BitVec 2
  bit : BitVec 3
  idx : BitVec 5
deriving DecidableEq, Repr

/-- `(IDLE, 0, 0, 0)`. -/
def Seq.atIdle : Seq := ⟨.idle, 0, 0, 0⟩

/-- The transaction registers `CMDB`, `RW`, `CNT`, `SH`, `DB` (10_state.md R33, R34). -/
structure TxnRegs where
  cmdb : Byte
  rw : Bool
  cnt : BitVec 5
  sh : Byte
  db : Vector Byte 31
deriving DecidableEq, Repr

/-! ## Responses -/

/-- A response (10_state.md R23, R24): `none` is a field that is not driven; each flag is false unless an
operation sets it. `flag`, the write-protect flag of `BLK_UNPACK` and `CHIP_GET_TIME`, is named by 30_encoding.md
R100 (log 19). -/
structure Response where
  b : Option Byte := none
  n : Option Byte := none
  data : Option (List Byte) := none
  count : Option (BitVec 5) := none
  blk : Option Blk := none
  tm : Option Tm := none
  flag : Option Bool := none
  t : Option Nat := none
  days : Option (BitVec 32) := none
  leap : Option Bool := none
  advanced : Option Bool := none
  text : Option (List Byte) := none
  zone : Option Int := none
  range : Bool := false
  badAddr : Bool := false
  badOp : Bool := false
  badFmt : Bool := false
deriving DecidableEq, Repr

/-! ## The peer behind the wires -/

/-- The bytes of a peer by device address, in one canonical form: addresses strictly rising, no byte 0 listed.
What an unlisted address reads as is `Mem.read`'s. -/
abbrev Mem := List Host.Cell

/-- The reference peer, a test fixture and no part of the hardware (20_memory.md R80 to R84): its bytes and its
transaction decoder. -/
structure RefPeer where
  /-- `CK` at device addresses 0 to 7 and `RAM` at 32 to 62 (R80). -/
  mem : Mem
  /-- Chip-select is 1. -/
  inFrame : Bool
  /-- How many bits have been shifted in since chip-select rose (R82). -/
  nbits : Nat
  /-- The bits of the byte being shifted in (R82). -/
  sh : Byte
  /-- The command byte, once complete (R82). -/
  cmd : Byte
  /-- The protection state sampled when the command byte was complete (R83). -/
  prot : Bool
  /-- How many `Read(DAT)` the transaction has seen (R84). -/
  nread : Nat
deriving DecidableEq, Repr

/-- The reference peer at its own reset: all bytes 0 (R80). -/
def RefPeer.reset : RefPeer := ⟨[], false, 0, 0, 0, false, 0⟩

/-- Who answers on the data wire. -/
inductive Peer where
  /-- A peer of which nothing is assumed (20_memory.md R70): it answers the levels listed, in order, and then the
  free value `Config.peerLevel`. An absent peer (R86) is this one. -/
  | oracle (levels : List Level)
  /-- The reference peer (20_memory.md R80 to R84). -/
  | reference (p : RefPeer)
  /-- The loop-back wire of 20_memory.md R86: the data pin reads back `DAT_LATCH`. -/
  | loopWire
deriving DecidableEq, Repr

/-! ## Stops -/

/-- The faults of the block: there is none. "The block raises no synchronous exception. No operation, with any
operand, in any state, faults, traps, aborts or fails to respond." (60_exceptions.md R260). -/
inductive Fault where
deriving DecidableEq, Repr

/-- The refusals of the model. Each is safe: where the model stops nothing can be proved of what the hardware
does. -/
inductive Refusal where
  /-- Raised by `exec` for an instruction that has no meaning yet (none is left). Safe. -/
  | notModelled (mnemonic : String)
  /-- Raised by a wire operation begun outside the idle invariant: "this spec defines no wire operation from any
  other pin state" (10_state.md R31; U9). Safe. -/
  | pinsNotIdle
  /-- Raised by `RAM_BURST_WR` given fewer than `min(size, 31)` bytes: "this spec gives it no meaning"
  (60_exceptions.md R262; U7). Safe. -/
  | shortData
  /-- Raised by a wire command byte below 0x80: "are never sent" (30_encoding.md R97, R91). Safe. -/
  | commandNeverSent
  /-- Raised by a start request with a data count no operation gives its command byte (30_encoding.md R96). Safe. -/
  | badTransaction
  /-- Raised by a sequencer position outside the transition table: "No other combination of (PH, SUB) is
  reachable" (41_protocol.md R152). Safe. -/
  | seqUnreachable
deriving DecidableEq, Repr

/-! ## The state -/

/-- The state of the machine. The first block of fields is the tuple of 10_state.md R20 and the parameters of
00_scope.md R9; the second the ports; the third the model's own. -/
structure State where
  params : Params
  pins : Pins
  seq : Seq
  regs : TxnRegs
  /-- `ZONE` (R41). -/
  zone : Int
  /-- `DST_EN` (R42). -/
  dstEn : Bool
  /-- `SECONDS` (R44). -/
  seconds : Nat
  /-- `LAST_MS` (R45). -/
  lastMs : Nat
  /-- The reset input (70_reset_and_hazards.md R292). -/
  rst : Bool
  /-- Requests held at the host port, the first to be performed first (R21). -/
  reqs : List HostReq
  /-- Readings held at the TICK port (43_softclock.md R244). -/
  ticks : List Nat
  /-- The start request of the sequencer (41_protocol.md R151). -/
  txn : Option TxnReq
  /-- The last response on the host port. -/
  resp : Option Response
  /-- The last response on the TICK port. -/
  tickResp : Option Response
  /-- The pin events emitted so far, the first emitted first (00_scope.md R15; 20_memory.md R72). -/
  trace : List PinEvent
  /-- The model's own: who is on the wires. -/
  peer : Peer
  /-- The model's own: how many levels have been sampled, the argument of `Config.peerLevel`. -/
  asked : Nat
  /-- The model's own: how often a TICK and other work were both ready, the argument of `Config.tickFirst`. -/
  turn : Nat
deriving DecidableEq, Repr

/-- The pin events of reset, in order (70_reset_and_hazards.md R291). -/
def resetEvents : List PinEvent :=
  [.writeCs false, .setOutCs, .writeClk false, .setOutClk, .writeDat false, .setOutDat]

/-- The pins after reset (10_state.md R26 to R29). -/
def Pins.reset : Pins := ⟨false, false, .out, false⟩

/-- The transaction registers after reset (10_state.md R33, R34). -/
def TxnRegs.reset : TxnRegs := ⟨0, false, 0, 0, Vector.replicate 31 0⟩

/-- The machine right after reset (70_reset_and_hazards.md R290, R291): no request is there yet, the six events of
reset have been emitted, and nothing is assumed of the peer. -/
def State.reset : State where
  params := Params.default
  pins := Pins.reset
  seq := Seq.atIdle
  regs := TxnRegs.reset
  zone := 0
  dstEn := false
  seconds := 0
  lastMs := 0
  rst := false
  reqs := []
  ticks := []
  txn := none
  resp := none
  tickResp := none
  trace := resetEvents
  peer := .oracle []
  asked := 0
  turn := 0

end Sys2Proof.Machine
end

