-- ==== Sys2Proof/Machine/Flags.lean ====
section
/-! DEFINITION. The response flags of 10_state.md R24: when each is set. The block has no status register
(R47). -/

namespace Sys2Proof.Machine

/-- `fit(X)`: the value delivered, `X` modulo `2^EPOCH_BITS`, and the flag `range` (42_calendar.md R202, R203). -/
def fit (p : Params) (x : Int) : Nat × Bool :=
  ((x % 2 ^ p.epochBits).toNat, !(decide (0 ≤ x) && decide (x < 2 ^ p.epochBits)))

/-- `bad_addr`: a memory address above 30 (41_protocol.md R172). -/
def badAddr (addr : Byte) : Bool := decide (30 < addr.toNat)

/-- The response of an operation code that is not assigned (30_encoding.md R108). -/
def badOpResponse : Response := { badOp := true }

/-- `bad_fmt` is set when the record does not fit the layout of `ISOTIME` (42_calendar.md R231, R232). -/
def badFmt (p : Params) (tm : Tm) : Bool :=
  let fits (hi : Int) (v : Int) : Bool := decide (0 ≤ v) && decide (v ≤ hi)
  !(fits 9999 (p.yearBase + tm.year.toInt) && fits 99 (tm.mon.toInt + 1) && fits 99 tm.mday.toInt
    && fits 99 tm.hour.toInt && fits 99 tm.min.toInt && fits 99 tm.sec.toInt)

end Sys2Proof.Machine
end

