-- ==== Sys2Proof/Machine/Memory.lean ====
section
/-! DEFINITION. The bytes behind the wires (20_memory.md R60 to R62, R80): reading and writing one byte of a peer's
device address space, keeping the canonical form. The block has no memory of its own. -/

namespace Sys2Proof.Machine

/-- What an address that is not listed reads as: "all bytes 0 at its reset" (20_memory.md R80). -/
def Mem.unlisted : Byte := 0

/-- The byte at device address `a`. -/
def Mem.read : Mem → Nat → Byte
  | [], _ => Mem.unlisted
  | (k, v) :: rest, a => if a = k then v else Mem.read rest a

/-- Entry `a` taken out of a list of rising addresses. -/
def Mem.remove : Mem → Nat → Mem
  | [], _ => []
  | (k, v) :: rest, a => if a = k then rest else (k, v) :: Mem.remove rest a

/-- Entry `a` set to `v` in a list of rising addresses. -/
def Mem.insert : Mem → Nat → Byte → Mem
  | [], a, v => [(a, v)]
  | (k, u) :: rest, a, v =>
    if a < k then (a, v) :: (k, u) :: rest
    else if a = k then (a, v) :: rest
    else (k, u) :: Mem.insert rest a v

/-- The byte at `a` becomes `v`; writing what an unlisted address reads as takes the entry out. -/
def Mem.write (m : Mem) (a : Nat) (v : Byte) : Mem :=
  if v = Mem.unlisted then Mem.remove m a else Mem.insert m a v

/-- The canonical form: addresses strictly rising, and no entry equal to what an unlisted address reads as. -/
def Mem.wf (m : Mem) : Bool :=
  decide ((m.map Prod.fst).Pairwise (· < ·)) && m.all (fun c => c.2 != Mem.unlisted)

/-- The device addresses at which a peer has storage (20_memory.md R61, R80): the eight registers and the 31 memory
bytes. -/
def Mem.exists (a : Nat) : Bool := decide (a ≤ 7) || (decide (32 ≤ a) && decide (a ≤ 62))

end Sys2Proof.Machine
end

