-- ==== Sys2Proof/Machine/Operands.lean ====
section
/-! DEFINITION. Bit-level helpers of the operands: bits of a byte in wire order (20_memory.md R64), and integers
stored in the fields of a record (10_state.md R36). -/

namespace Sys2Proof.Machine

/-- `v` with bit `i` set to the level `l`. -/
def setBit (v : Byte) (i : Nat) (l : Level) : Byte :=
  if l then v ||| BitVec.twoPow 8 i else v &&& ~~~BitVec.twoPow 8 i

/-- The byte whose bit `i` is level `i` of the list: "accumulate bit into result LSB→MSB" (41_protocol.md R145). -/
def byteOfLevels (ls : List Level) : Byte :=
  (ls.zipIdx.foldl (fun v li => setBit v li.2 li.1) 0)

/-- `trunc_8(v)` of an integer (00_scope.md R11). -/
def trunc8 (v : Int) : Byte := BitVec.ofInt 8 v

/-- The data buffer after `d` has been loaded into, or sampled into, its first elements (10_state.md R34). -/
def loadDb (db : Vector Byte 31) (d : List Byte) : Vector Byte 31 :=
  Vector.ofFn fun i : Fin 31 => (d[i.val]?).getD db[i]

/-- The element of the data buffer at index `i`, 0 to 30 (10_state.md R34). -/
def dbAt (db : Vector Byte 31) (i : Nat) : Byte := (db[i]?).getD 0

/-- The device address `wpAddr`'s byte for a write-protect flag: `(flag = 1) ? WP_ON : WP_OFF` (41_protocol.md R177). -/
def wpByte (p : Params) (flag : Bool) : Byte := if flag then p.wpOn else p.wpOff

/-- `count = min(size, 31)` (41_protocol.md R175). -/
def clampSize (size : Nat) : Nat := min size 31

end Sys2Proof.Machine
end

