-- ==== Sys2Proof/Machine/Peer.lean ====
section
/-! DEFINITION. What a pin event does to the pins (00_scope.md R16; 10_state.md R26 to R29) and to the peer, and the
level a peer answers to a sample (20_memory.md R70). The reference peer is the fixture of 20_memory.md R80 to R84. -/

namespace Sys2Proof.Machine

/-- The pin state after one event. -/
def Pins.after (p : Pins) : PinEvent → Pins
  | .writeCs l => { p with cs := l }
  | .writeDat l => { p with latch := l }
  | .toggleClk => { p with clk := !p.clk }
  | .writeClk l => { p with clk := l }
  | .setInDat => { p with dir := .inp }
  | .setOutDat => { p with dir := .out }
  | .readDat _ => p
  | .settle => p
  | .setOutCs => p
  | .setOutClk => p

/-- The pin state after a run of events. -/
def Pins.run (p : Pins) (es : List PinEvent) : Pins := es.foldl Pins.after p

/-! ## The reference peer -/

/-- The device address of the command in progress, `c[6:1]` (20_memory.md R82). -/
def RefPeer.addr (p : RefPeer) : Nat := cmdAddr p.cmd

/-- *Protected* when `CK[7][7] = 1` (20_memory.md R81). -/
def RefPeer.protectedNow (p : RefPeer) : Bool := (Mem.read p.mem 7).getLsbD 7

/-- Where data byte `k` of the transaction stands: element `k` of the burst block, or the single byte
(20_memory.md R83, R84). -/
def RefPeer.target (p : RefPeer) (k : Nat) : Option Nat :=
  if p.addr = 31 then (if k ≤ 7 then some k else none)
  else if p.addr = 63 then (if k ≤ 30 then some (32 + k) else none)
  else if k = 0 ∧ Mem.exists p.addr then some p.addr else none

/-- Data byte `k` of a write transaction has been received: it is stored at its place when that is address 7 or
the peer was not protected at the command byte, else dropped (20_memory.md R83). -/
def RefPeer.store (p : RefPeer) (k : Nat) (v : Byte) : Mem :=
  match p.target k with
  | some a => if a = 7 ∨ p.prot = false then Mem.write p.mem a v else p.mem
  | none => p.mem

/-- One bit shifted in at a rising clock edge (20_memory.md R82): the eighth completes the command byte, each
further eighth a data byte. -/
def RefPeer.shiftIn (p : RefPeer) (dat : Level) : RefPeer :=
  let sh := setBit p.sh (p.nbits % 8) dat
  let n := p.nbits + 1
  if n % 8 ≠ 0 then { p with sh := sh, nbits := n }
  else if n = 8 then { p with sh := 0, nbits := n, cmd := sh, prot := p.protectedNow }
  else if p.cmd.getLsbD 7 && !p.cmd.getLsbD 0 then { p with sh := 0, nbits := n, mem := p.store (n / 8 - 2) sh }
  else { p with sh := 0, nbits := n }

/-- The reference peer sees one event, the pins being as `pins` before it (20_memory.md R82, R84). -/
def RefPeer.observe (p : RefPeer) (pins : Pins) : PinEvent → RefPeer
  | .writeCs true => { p with inFrame := true, nbits := 0, sh := 0, cmd := 0, prot := false, nread := 0 }
  | .writeCs false => { p with inFrame := false }
  | .toggleClk => if p.inFrame && !pins.clk then p.shiftIn pins.latch else p
  | .readDat _ => { p with nread := p.nread + 1 }
  | .writeDat _ => p
  | .setInDat => p
  | .setOutDat => p
  | .settle => p
  | .setOutCs => p
  | .setOutClk => p
  | .writeClk _ => p

/-- The level the reference peer presents to the next `Read(DAT)`: bit `j` of data byte `k` is the
`(8k + j + 1)`-th of the transaction (20_memory.md R84). Outside a read transaction the fixture presents nothing. -/
def RefPeer.answer (p : RefPeer) : Option Level :=
  if p.inFrame && p.cmd.getLsbD 7 && p.cmd.getLsbD 0 then
    match p.target (p.nread / 8) with
    | some a => some ((Mem.read p.mem a).getLsbD (p.nread % 8))
    | none => some false
  else none

/-! ## Any peer -/

/-- The peer sees one event, the pins being as `pins` before it. -/
def Peer.observe (p : Peer) (pins : Pins) (e : PinEvent) : Peer :=
  match p with
  | .oracle levels =>
    match e with
    | .readDat _ => .oracle levels.tail
    | _ => .oracle levels
  | .reference r => .reference (r.observe pins e)
  | .loopWire => .loopWire

/-- The peer sees a run of events, the pins being as `pins` before the first. -/
def Peer.watch : Peer → Pins → List PinEvent → Peer
  | p, _, [] => p
  | p, pins, e :: es => Peer.watch (p.observe pins e) (pins.after e) es

/-- The level the peer answers to the next `Read(DAT)`, where the state says it. -/
def Peer.answer (p : Peer) (pins : Pins) : Option Level :=
  match p with
  | .oracle levels => levels.head?
  | .reference r => r.answer
  | .loopWire => some pins.latch

/-- The byte the peer holds at device address `a`, where the state says it: only a reference peer's. -/
def Peer.byteAt (p : Peer) (a : Nat) : Option Byte :=
  match p with
  | .reference r => some (Mem.read r.mem a)
  | .oracle _ => none
  | .loopWire => none

end Sys2Proof.Machine
end

