-- ==== Sys2Proof/Machine/Ops.lean ====
section
/-! DEFINITION. The named operations over the state: responding (00_scope.md R13), emitting pin events, the bit and
byte transfers (41_protocol.md R142 to R145), the two transaction shapes (R160, R161), and reset
(70_reset_and_hazards.md R290 to R292). There is no taking of an exception and no return from one: 60_exceptions.md
R264, R265. -/

namespace Sys2Proof.Machine

/-! ## Responses -/

/-- `respond(fields...)`: the response is handed to the host (00_scope.md R13). -/
def State.respond (s : State) (r : Response) : State := { s with resp := some r }

/-- `refuse(bad_op)`: no pin event, no change but the response (30_encoding.md R108). -/
def State.refuseOp (s : State) : State := s.respond badOpResponse

/-! ## Pin events -/

/-- The events `es` are emitted in order: the pins follow them, the peer sees them, the trace records them. -/
def State.emit (s : State) (es : List PinEvent) : State :=
  { s with pins := s.pins.run es, peer := s.peer.watch s.pins es, trace := s.trace ++ es }

/-- The level the next `Read(DAT)` finds: what the peer answers, or a free value (20_memory.md R70). -/
def State.level (s : State) : Level := (s.peer.answer s.pins).getD (Config.peerLevel s.asked)

/-- `Read(DAT) -> l`. -/
def State.sample (s : State) : Level × State :=
  (s.level, { s.emit [.readDat s.level] with asked := s.asked + 1 })

/-! ## Bit and byte transfer -/

/-- The events of `bit_wr(l)` (41_protocol.md R143). -/
def bitWr (l : Level) : List PinEvent := [.writeDat l, .toggleClk, .settle, .toggleClk]

/-- The events of `byte_wr(v)`, least significant bit first (41_protocol.md R142). -/
def byteWr (v : Byte) : List PinEvent :=
  bitWr (v.getLsbD 0) ++ bitWr (v.getLsbD 1) ++ bitWr (v.getLsbD 2) ++ bitWr (v.getLsbD 3)
    ++ bitWr (v.getLsbD 4) ++ bitWr (v.getLsbD 5) ++ bitWr (v.getLsbD 6) ++ bitWr (v.getLsbD 7)

/-- The events of the bytes of `d`, back to back (41_protocol.md R155). -/
def bytesWr (d : List Byte) : List PinEvent := d.flatMap byteWr

/-- `bit_rd() -> l`: the sample, then the clock cycle (41_protocol.md R144). -/
def State.bitRd (s : State) : Level × State :=
  let (l, s') := s.sample
  (l, s'.emit [.toggleClk, .settle, .toggleClk])

/-- The next `n` bits, the first sampled first. -/
def State.bitsRd : Nat → State → List Level × State
  | 0, s => ([], s)
  | n + 1, s =>
    let (l, s1) := s.bitRd
    let (ls, s2) := State.bitsRd n s1
    (l :: ls, s2)

/-- `byte_rd() -> v`: eight bits, the first sampled is bit 0 (41_protocol.md R145). -/
def State.byteRd (s : State) : Byte × State :=
  let (ls, s') := State.bitsRd 8 s
  (byteOfLevels ls, s')

/-- The next `k` bytes, back to back (41_protocol.md R156). -/
def State.bytesRd : Nat → State → List Byte × State
  | 0, s => ([], s)
  | k + 1, s =>
    let (v, s1) := s.byteRd
    let (vs, s2) := State.bytesRd k s1
    (v :: vs, s2)

/-! ## Transactions -/

/-- The pin half of the idle invariant (10_state.md R31). -/
abbrev Pins.idle (p : Pins) : Prop := p.cs = false ∧ p.clk = false ∧ p.dir = .out

/-- The sequencer and the pins are as a wire operation assumes them (10_state.md R31). -/
abbrev State.idle (s : State) : Prop := s.seq.ph = .idle ∧ s.pins.idle

/-- The transaction registers and `SEQ` as the sequencer leaves them at the end of a transaction that carried
`d` (41_protocol.md R151, R152; log 20). -/
def State.finish (s : State) (c : Byte) (d : List Byte) : State :=
  { s with
    seq := Seq.atIdle
    regs := ⟨c, c.getLsbD 0, BitVec.ofNat 5 d.length, d.getLastD 0, loadDb s.regs.db d⟩ }

/-- The write transaction `wr_txn(c, d)` (41_protocol.md R161). -/
def wrTxn (c : Byte) (d : List Byte) (s : State) : State :=
  (s.emit (.writeCs true :: (byteWr c ++ bytesWr d ++ [.writeCs false]))).finish c d

/-- The read transaction `rd_txn(c, k)` (41_protocol.md R160). -/
def rdTxn (c : Byte) (k : Nat) (s : State) : List Byte × State :=
  let s1 := s.emit (.writeCs true :: (byteWr c ++ [.setInDat]))
  let (d, s2) := State.bytesRd k s1
  (d, (s2.emit [.writeCs false, .setOutDat]).finish c d)

/-! ## Reset -/

/-- Reset asserted (70_reset_and_hazards.md R290 to R292): every piece of the block's state at its reset value, a
transaction in progress abandoned, the six events emitted. The parameters, the peer and what the host still holds
out at the ports are outside the block and stay (log 16). -/
def State.applyReset (s : State) : State :=
  { s.emit resetEvents with
    pins := Pins.reset
    seq := Seq.atIdle
    regs := TxnRegs.reset
    zone := 0
    dstEn := false
    seconds := 0
    lastMs := 0
    rst := false
    txn := none
    resp := none
    tickResp := none }

end Sys2Proof.Machine
end

