-- ==== Sys2Proof/Machine/Calendar.lean ====
section
/-! DEFINITION. The calendar engine (42_calendar.md): the Gregorian calendar from 2000-01-01, the two conversions,
zone and DST, the text form, and the meanings of its operations. Arithmetic is on unbounded integers with floor
division (00_scope.md R11); Lean's `/` and `%` on `Int` are that for a positive divisor. -/

namespace Sys2Proof.Machine

/-! ## The calendar -/

/-- `is_leap(Y)` (42_calendar.md R191). -/
def isLeapYear (y : Int) : Bool := (y % 4 == 0 && y % 100 != 0) || y % 400 == 0

/-- `mlen(m, Y)`, `m` from 0 for January (42_calendar.md R193). -/
def monthLen (m : Nat) (y : Int) : Nat :=
  match m with
  | 1 => if isLeapYear y then 29 else 28
  | 3 => 30
  | 5 => 30
  | 8 => 30
  | 10 => 30
  | _ => 31

/-- `cum(m, Y)`, the days before month `m` (42_calendar.md R194). -/
def daysBefore (m : Nat) (y : Int) : Nat := ((List.range m).map fun j => monthLen j y).sum

/-- `ylen(Y)` (42_calendar.md R194). -/
def yearLen (y : Int) : Nat := if isLeapYear y then 366 else 365

/-- `days_to_epoch(Y)` in the closed form of 42_calendar.md R197, for every integer year. -/
def yearDays (y : Int) : Int :=
  let n := y - 2000
  365 * n + (n + 3) / 4 - (n + 99) / 100 + (n + 399) / 400

/-! ## From broken-down time to seconds -/

/-- The wall-clock sum `S` (42_calendar.md R200); the carrying of R201 is what it does. -/
def wallClock (p : Params) (tm : Tm) : Int :=
  let y := p.yearBase + tm.year.toInt + tm.mon.toInt / 12
  let m := (tm.mon.toInt % 12).toNat
  let d := yearDays y + daysBefore m y + (tm.mday.toInt - 1)
  86400 * d + 3600 * tm.hour.toInt + 60 * tm.min.toInt + tm.sec.toInt

/-! ## From seconds to broken-down time -/

/-- The calendar year of the day `d` after 2000-01-01 (42_calendar.md R205): whole 400-year cycles, then the year of
the cycle, which is `r / 365` or the one before. -/
def yearOf (d : Nat) : Nat :=
  let r := d % 146097
  let c := r / 365
  2000 + 400 * (d / 146097) + (if yearDays (2000 + c) ≤ r then c else c - 1)

/-- The month of day `yday` of the year `y`: one less than how many months begin by it (42_calendar.md R205). -/
def monthOf (yday : Nat) (y : Int) : Nat :=
  (List.range 12).countP (fun m => daysBefore m y ≤ yday) - 1

/-- The year field of a record: calendar year less `YEAR_BASE` (42_calendar.md R205), a free value where that does not
fit 16 signed bits (log 24). -/
def yearField (v : Int) : BitVec 16 := if inSigned 16 v then BitVec.ofInt 16 v else Config.wideYear v

/-- `split(t)`, the normalised record of an instant, `isdst` as given (42_calendar.md R205, R206). -/
def splitTime (p : Params) (isdst : Bool) (t : Nat) : Tm :=
  let days := t / 86400
  let rem := t % 86400
  let y := yearOf days
  let yday := (days - yearDays y).toNat
  let mon := monthOf yday y
  { sec := BitVec.ofNat 8 (rem % 60)
    min := BitVec.ofNat 8 (rem % 3600 / 60)
    hour := BitVec.ofNat 8 (rem / 3600)
    mday := BitVec.ofNat 8 (yday - daysBefore mon y + 1)
    mon := BitVec.ofNat 8 mon
    wday := BitVec.ofNat 8 ((days + 6) % 7)
    year := yearField (y - p.yearBase)
    yday := BitVec.ofNat 16 yday
    isdst := if isdst then 1 else 0 }

/-! ## Zone and DST -/

/-- `dst_adj(u)` for a hook (42_calendar.md R220): nothing while `DST_EN` is 0, and the adjustment counts only when
the hook reports `active`. The hook's adjustment is read at `ZONE_BITS` (10_state.md R42; log 23). -/
def dstAdj (hook : Nat → Bool × Int) (p : Params) (dstEn : Bool) (u : Nat) : Bool × Int :=
  if dstEn then
    if (hook u).1 then (true, wrapSigned p.zoneBits (hook u).2) else (false, 0)
  else (false, 0)

/-- `MKTIME` with `local = 1` for a hook (42_calendar.md R211, R212, R221): the instant, the record, `range`. The
hook is asked once, at the not yet adjusted instant. -/
def mkLocal (hook : Nat → Bool × Int) (p : Params) (zone : Int) (dstEn : Bool) (tm : Tm) : Nat × Tm × Bool :=
  let wall := wallClock p tm
  let (w, r1) := fit p wall
  let utc := wall - zone
  let (u, r2) := fit p utc
  let (active, a) := dstAdj hook p dstEn u
  let (t, r3) := fit p (utc - a)
  (t, splitTime p active w, r1 || r2 || r3)

/-- `LOCALTIME` for a hook (42_calendar.md R215): the record and `range`. The hook is asked once, at `t`. -/
def toLocal (hook : Nat → Bool × Int) (p : Params) (zone : Int) (dstEn : Bool) (t : Nat) : Tm × Bool :=
  let (active, a) := dstAdj hook p dstEn t
  let (l, range) := fit p (t + zone + a)
  (splitTime p active l, range)

/-! ## Text -/

/-- The `k` ASCII decimal digits of `v`, most significant first (42_calendar.md R230, R231). -/
def digits : Nat → Nat → List Byte
  | 0, _ => []
  | k + 1, v => digits k (v / 10) ++ [BitVec.ofNat 8 (0x30 + v % 10)]

/-- The 20 bytes of `ISOTIME` (42_calendar.md R230, R231; 10_state.md R40). -/
def isoText (p : Params) (tm : Tm) : List Byte :=
  digits 4 (p.yearBase + tm.year.toInt).toNat ++ [0x2D#8] ++ digits 2 (tm.mon.toInt + 1).toNat ++ [0x2D#8]
    ++ digits 2 tm.mday.toInt.toNat ++ [0x20#8] ++ digits 2 tm.hour.toInt.toNat ++ [0x3A#8]
    ++ digits 2 tm.min.toInt.toNat ++ [0x3A#8] ++ digits 2 tm.sec.toInt.toNat ++ [0x00#8]

/-! ## Meanings -/

/-- `IS_LEAP year -> leap` (42_calendar.md R192). -/
def execIsLeap (year : BitVec 16) (s : State) : Host.Outcome State Fault Refusal :=
  .next (s.respond { leap := some (isLeapYear year.toInt) })

/-- `DAYS_TO_EPOCH year -> days` (42_calendar.md R196). -/
def execDaysToEpoch (year : BitVec 16) (s : State) : Host.Outcome State Fault Refusal :=
  .next (s.respond { days := some (BitVec.ofInt 32 (yearDays year.toInt)) })

/-- `MK_GMTIME tm -> t, range` (42_calendar.md R204). -/
def execMkGmtime (tm : Tm) (s : State) : Host.Outcome State Fault Refusal :=
  let (t, range) := fit s.params (wallClock s.params tm)
  .next (s.respond { t := some t, range := range })

/-- `MKTIME tm, local=0 -> t, tm, range` (42_calendar.md R210, R212). -/
def execMktimeUtc (tm : Tm) (s : State) : Host.Outcome State Fault Refusal :=
  let (t, range) := fit s.params (wallClock s.params tm)
  .next (s.respond { t := some t, tm := some (splitTime s.params false t), range := range })

/-- `MKTIME tm, local=1 -> t, tm, range` (42_calendar.md R211, R212). -/
def execMktimeLocal (tm : Tm) (s : State) : Host.Outcome State Fault Refusal :=
  let (t, tm', range) := mkLocal Config.dstHook s.params s.zone s.dstEn tm
  .next (s.respond { t := some t, tm := some tm', range := range })

/-- `GMTIME t -> tm` (42_calendar.md R209). -/
def execGmtime (t : Nat) (s : State) : Host.Outcome State Fault Refusal :=
  .next (s.respond { tm := some (splitTime s.params false t) })

/-- `LOCALTIME t -> tm, range` (42_calendar.md R215). -/
def execLocaltime (t : Nat) (s : State) : Host.Outcome State Fault Refusal :=
  let (tm, range) := toLocal Config.dstHook s.params s.zone s.dstEn t
  .next (s.respond { tm := some tm, range := range })

/-- `SET_ZONE zone` (42_calendar.md R216): any value of the width is stored, here the operand read at the width
(30_encoding.md R102). -/
def execSetZone (zone : Int) (s : State) : Host.Outcome State Fault Refusal :=
  .next (State.respond { s with zone := wrapSigned s.params.zoneBits zone } {})

/-- `GET_ZONE -> zone` (42_calendar.md R217). -/
def execGetZone (s : State) : Host.Outcome State Fault Refusal :=
  .next (s.respond { zone := some s.zone })

/-- `SET_DST flag` (42_calendar.md R219). -/
def execSetDst (flag : Bool) (s : State) : Host.Outcome State Fault Refusal :=
  .next (State.respond { s with dstEn := flag } {})

/-- `ISOTIME tm -> text, bad_fmt` (42_calendar.md R231, R232), present when `HAS_ISOTIME` (30_encoding.md R101). -/
def execIsotime (tm : Tm) (s : State) : Host.Outcome State Fault Refusal :=
  if s.params.hasIsotime then
    if badFmt s.params tm then .next (s.respond { badFmt := true })
    else .next (s.respond { text := some (isoText s.params tm) })
  else .next s.refuseOp

end Sys2Proof.Machine
end

