-- ==== Sys2Proof/Machine/Clock.lean ====
section
/-! DEFINITION. The tick unit (43_softclock.md): `SECONDS` and `LAST_MS`, and the meanings of its five operations.
Each reads and writes the pair in one step (R255). Where `HAS_TICK_UNIT` is false their codes are not assigned
(30_encoding.md R101, R108). -/

namespace Sys2Proof.Machine

/-- An operation of the tick unit: refused with `bad_op` where the unit is absent (30_encoding.md R108). -/
def withTickUnit (s : State) (f : State → State) : Host.Outcome State Fault Refusal :=
  if s.params.hasTickUnit then .next (f s) else .next s.refuseOp

/-- `(ms - LAST_MS) mod 2^MS_BITS` (43_softclock.md R241, R243). -/
def tickDelta (p : Params) (lastMs ms : Nat) : Nat := (((ms : Int) - lastMs) % 2 ^ p.msBits).toNat

/-- What a reading does (43_softclock.md R241, R242). -/
def tickState (ms : Nat) (s : State) : State :=
  let delta := tickDelta s.params s.lastMs ms
  let n := delta / 1000
  if delta < 1000 then s.respond { advanced := some false }
  else
    State.respond
      { s with
        seconds := (s.seconds + n) % 2 ^ s.params.epochBits
        lastMs := (s.lastMs + 1000 * n) % 2 ^ s.params.msBits }
      { advanced := some true }

/-- `TICK ms -> advanced` (43_softclock.md R241). -/
def execTick (ms : Nat) (s : State) : Host.Outcome State Fault Refusal :=
  withTickUnit s (tickState ms)

/-- `GET_TIME -> t` (43_softclock.md R245). -/
def execGetTime (s : State) : Host.Outcome State Fault Refusal :=
  withTickUnit s fun s => s.respond { t := some s.seconds }

/-- `SET_TIME t` (43_softclock.md R246): `LAST_MS` is not changed. -/
def execSetTime (t : Nat) (s : State) : Host.Outcome State Fault Refusal :=
  withTickUnit s fun s => State.respond { s with seconds := t % 2 ^ s.params.epochBits } {}

/-- `GET_TIME_TM -> tm, range` (43_softclock.md R247): the DST hook is not consulted. -/
def execGetTimeTm (s : State) : Host.Outcome State Fault Refusal :=
  withTickUnit s fun s =>
    let (l, range) := fit s.params (s.seconds + s.zone)
    s.respond { tm := some (splitTime s.params false l), range := range }

/-- `SET_TIME_TM tm -> tm, range` (43_softclock.md R248): `SECONDS` is written even when `range` is 1, `LAST_MS` is
not changed. -/
def execSetTimeTm (tm : Tm) (s : State) : Host.Outcome State Fault Refusal :=
  withTickUnit s fun s =>
    let (t, tm', range) := mkLocal Config.dstHook s.params s.zone s.dstEn tm
    State.respond { s with seconds := t } { tm := some tm', range := range }

end Sys2Proof.Machine
end

