-- ==== Sys2Proof/Machine/Codec.lean ====
section
/-! DEFINITION. The BCD codec (40_bcd.md): the packed byte, the register block, and the meanings of `TO_BCD`,
`FROM_BCD`, `BLK_PACK`, `BLK_UNPACK`. All four are pure: nothing but the response changes. -/

namespace Sys2Proof.Machine

/-- The packed byte of `n`, the tens digit in the high nibble (40_bcd.md R121, R122). Above 99 the same expression,
8 bits kept (R123; log 8). -/
def toBcd (n : Byte) : Byte :=
  BitVec.ofNat 8 (((n.toNat / 10) <<< 4) ||| (n.toNat % 10))

/-- The number a byte stands for, malformed bytes by the same formula (40_bcd.md R124, R125). -/
def fromBcd (b : Byte) : Byte :=
  BitVec.ofNat 8 ((b.toNat >>> 4) * 10 + (b.toNat &&& 0x0F))

/-- `bcd8(v)`: `TO_BCD` on `trunc_8(v)` (40_bcd.md R127). -/
def bcd8 (v : Int) : Byte := toBcd (trunc8 v)

/-- The integer a block byte decodes to (40_bcd.md R128). -/
def bcdInt (b : Byte) : Int := (fromBcd b).toNat

/-- `BLK_PACK` (40_bcd.md R127, R129). -/
def packBlk (p : Params) (tm : Tm) (flag : Bool) : Blk where
  seconds := bcd8 tm.sec.toInt
  minutes := bcd8 tm.min.toInt
  hours := bcd8 tm.hour.toInt
  date := bcd8 tm.mday.toInt
  month := bcd8 (tm.mon.toInt + 1)
  weekday := bcd8 (tm.wday.toInt + 1)
  year := bcd8 (p.yearBase + tm.year.toInt - 2000)
  wp := wpByte p flag

/-- The record of `BLK_UNPACK`, each field the low bits of its integer (40_bcd.md R128, R129). A seconds byte of 0x60
gives `sec = 60`, as the formula of R128 and the round trip of R130 say. The sentence of 10_state.md R36 that no
operation produces it is read as 42_calendar.md R190 has it, of the calendar engine (log 28). -/
def unpackTm (p : Params) (blk : Blk) : Tm where
  sec := BitVec.ofInt 8 (bcdInt blk.seconds)
  min := BitVec.ofInt 8 (bcdInt blk.minutes)
  hour := BitVec.ofInt 8 (bcdInt blk.hours)
  mday := BitVec.ofInt 8 (bcdInt blk.date)
  mon := BitVec.ofInt 8 (bcdInt blk.month - 1)
  wday := BitVec.ofInt 8 (bcdInt blk.weekday - 1)
  year := BitVec.ofInt 16 (bcdInt blk.year + 2000 - p.yearBase)
  yday := 0
  isdst := BitVec.ofInt 8 (-1)

/-- The flag of `BLK_UNPACK`: a bit of `WP_ON` is set in byte 7 (40_bcd.md R128; 90_conflicts.md C9). -/
def unpackFlag (p : Params) (blk : Blk) : Bool := (blk.wp &&& p.wpOn) != 0

/-- `TO_BCD n -> b` (40_bcd.md R122, R123). -/
def execToBcd (n : Byte) (s : State) : Host.Outcome State Fault Refusal :=
  .next (s.respond { b := some (toBcd n) })

/-- `FROM_BCD b -> n` (40_bcd.md R124, R125). -/
def execFromBcd (b : Byte) (s : State) : Host.Outcome State Fault Refusal :=
  .next (s.respond { n := some (fromBcd b) })

/-- `BLK_PACK tm, flag -> blk` (40_bcd.md R127). -/
def execBlkPack (tm : Tm) (flag : Bool) (s : State) : Host.Outcome State Fault Refusal :=
  .next (s.respond { blk := some (packBlk s.params tm flag) })

/-- `BLK_UNPACK blk -> tm, flag` (40_bcd.md R128). -/
def execBlkUnpack (blk : Blk) (s : State) : Host.Outcome State Fault Refusal :=
  .next (s.respond { tm := some (unpackTm s.params blk), flag := some (unpackFlag s.params blk) })

end Sys2Proof.Machine
end

