-- ==== Sys2Proof/Machine/Wire.lean ====
section
/-! DEFINITION. The eleven wire operations (41_protocol.md). Each assumes the idle invariant (10_state.md R31) and is
refused by name outside it (log 10). An operation that emits nothing does not ask for it. -/

namespace Sys2Proof.Machine

/-- The state `f s` a wire operation gives, where the idle invariant holds (10_state.md R31). -/
def onWire (s : State) (f : State → State) : Host.Outcome State Fault Refusal :=
  if s.idle then .next (f s) else .refused .pinsNotIdle

/-- A write transaction, then the response `r`. -/
def wireWrite (c : Byte) (d : List Byte) (r : Response) (s : State) : State := (wrTxn c d s).respond r

/-- A read transaction of `k` bytes, then the response `r` makes of the bytes. -/
def wireRead (c : Byte) (k : Nat) (r : List Byte → Response) (s : State) : State :=
  let (d, s') := rdTxn c k s
  s'.respond (r d)

/-- The data of `RAM_BURST_WR`: the first `count` bytes, framed by the write-protect traffic when `AUTO_WP`
(41_protocol.md R174). -/
def ramBurst (d : List Byte) (s : State) : State :=
  if s.params.autoWp then
    let cmd := cmdByte wpAddr .write
    let s1 := wrTxn cmd [wpByte s.params false] s
    let s2 := wrTxn (ramBurstCmd .write) d s1
    wrTxn cmd [wpByte s.params true] s2
  else wrTxn (ramBurstCmd .write) d s

/-- `REG_RD addr -> b` (41_protocol.md R162, R164). -/
def execRegRd (addr : Byte) (s : State) : Host.Outcome State Fault Refusal :=
  onWire s (wireRead (cmdByte addr .read) 1 fun d => { b := some (d.headD 0) })

/-- `REG_WR addr, b` (41_protocol.md R163, R164). -/
def execRegWr (addr b : Byte) (s : State) : Host.Outcome State Fault Refusal :=
  onWire s (wireWrite (cmdByte addr .write) [b] {})

/-- `CLK_BURST_RD -> blk` (41_protocol.md R165). -/
def execClkBurstRd (s : State) : Host.Outcome State Fault Refusal :=
  onWire s (wireRead (clkBurstCmd .read) 8 fun d => { blk := some (Blk.ofList d) })

/-- `CLK_BURST_WR blk` (41_protocol.md R166). -/
def execClkBurstWr (blk : Blk) (s : State) : Host.Outcome State Fault Refusal :=
  onWire s (wireWrite (clkBurstCmd .write) blk.toList {})

/-- `RAM_RD addr -> b, bad_addr` (41_protocol.md R170, R172). -/
def execRamRd (addr : Byte) (s : State) : Host.Outcome State Fault Refusal :=
  if badAddr addr then .next (s.respond { badAddr := true })
  else onWire s (wireRead (ramCmd addr .read) 1 fun d => { b := some (d.headD 0) })

/-- `RAM_WR addr, b -> bad_addr` (41_protocol.md R171, R172). -/
def execRamWr (addr b : Byte) (s : State) : Host.Outcome State Fault Refusal :=
  if badAddr addr then .next (s.respond { badAddr := true })
  else onWire s (wireWrite (ramCmd addr .write) [b] {})

/-- `RAM_BURST_RD size -> data, count` (41_protocol.md R173, R175). -/
def execRamBurstRd (size : Nat) (s : State) : Host.Outcome State Fault Refusal :=
  let k := clampSize size
  if k = 0 then .next (s.respond { data := some [], count := some 0 })
  else onWire s (wireRead (ramBurstCmd .read) k fun d => { data := some d, count := some (BitVec.ofNat 5 k) })

/-- `RAM_BURST_WR size, data -> count` (41_protocol.md R174, R175). Too little data is refused
(60_exceptions.md R262; log 11). -/
def execRamBurstWr (size : Nat) (data : List Byte) (s : State) : Host.Outcome State Fault Refusal :=
  let k := clampSize size
  if k = 0 then .next (s.respond { count := some 0 })
  else if data.length < k then .refused .shortData
  else onWire s fun s => (ramBurst (data.take k) s).respond { count := some (BitVec.ofNat 5 k) }

/-- `WP_SET flag` (41_protocol.md R177). -/
def execWpSet (flag : Bool) (s : State) : Host.Outcome State Fault Refusal :=
  onWire s (wireWrite (cmdByte wpAddr .write) [wpByte s.params flag] {})

/-- `CHIP_GET_TIME -> tm, flag` (41_protocol.md R178). -/
def execChipGetTime (s : State) : Host.Outcome State Fault Refusal :=
  onWire s (wireRead (clkBurstCmd .read) 8 fun d =>
    { tm := some (unpackTm s.params (Blk.ofList d)), flag := some (unpackFlag s.params (Blk.ofList d)) })

/-- `CHIP_SET_TIME tm, flag` (41_protocol.md R179). -/
def execChipSetTime (tm : Tm) (flag : Bool) (s : State) : Host.Outcome State Fault Refusal :=
  onWire s (wireWrite (clkBurstCmd .write) (packBlk s.params tm flag).toList {})

end Sys2Proof.Machine
end

