-- ==== Sys2Proof/Machine/Transaction.lean ====
section
/-! DEFINITION. The wire command rows of the table (30_encoding.md R90 to R97): each is one transaction of
41_protocol.md R160 or R161, opened by its command byte and run by the sequencer. A transaction hands no response
to the host: what a read sampled is in the data buffer (10_state.md R34; log 12). -/

namespace Sys2Proof.Machine

/-- A write transaction and nothing else. -/
def txnWrite (c : Byte) (d : List Byte) (s : State) : Host.Outcome State Fault Refusal :=
  onWire s (wrTxn c d)

/-- A read transaction and nothing else. -/
def txnRead (c : Byte) (k : Nat) (s : State) : Host.Outcome State Fault Refusal :=
  onWire s fun s => (rdTxn c k s).2

/-- Clock/calendar burst write, 0xBE and eight data bytes (30_encoding.md R93; 41_protocol.md R161). -/
def execWireClkBurstWr (blk : Blk) (s : State) : Host.Outcome State Fault Refusal :=
  txnWrite (clkBurstCmd .write) blk.toList s

/-- Clock/calendar burst read, 0xBF and eight data bytes (30_encoding.md R93; 41_protocol.md R160). -/
def execWireClkBurstRd (s : State) : Host.Outcome State Fault Refusal :=
  txnRead (clkBurstCmd .read) 8 s

/-- Memory burst write, 0xFE and 1 to 31 data bytes (30_encoding.md R93; 41_protocol.md R161). -/
def execWireRamBurstWr (data : List Byte) (s : State) : Host.Outcome State Fault Refusal :=
  if 1 ≤ data.length ∧ data.length ≤ 31 then txnWrite (ramBurstCmd .write) data s
  else .refused .badTransaction

/-- Memory burst read, 0xFF and 1 to 31 data bytes (30_encoding.md R93; 41_protocol.md R160). -/
def execWireRamBurstRd (cnt : BitVec 5) (s : State) : Host.Outcome State Fault Refusal :=
  if cnt ≠ 0 then txnRead (ramBurstCmd .read) cnt.toNat s else .refused .badTransaction

/-- Single write to device address `a`, 0 to 31 (30_encoding.md R92; 41_protocol.md R161). -/
def execWireClkWr (a : BitVec 5) (b : Byte) (s : State) : Host.Outcome State Fault Refusal :=
  txnWrite (cmdByte (a.setWidth 8) .write) [b] s

/-- Single read of device address `a`, 0 to 31 (30_encoding.md R92; 41_protocol.md R160). -/
def execWireClkRd (a : BitVec 5) (s : State) : Host.Outcome State Fault Refusal :=
  txnRead (cmdByte (a.setWidth 8) .read) 1 s

/-- Single write to memory address `a`, 0 to 30 (30_encoding.md R94; 41_protocol.md R161). -/
def execWireRamWr (a : BitVec 5) (b : Byte) (s : State) : Host.Outcome State Fault Refusal :=
  txnWrite (ramCmd (a.setWidth 8) .write) [b] s

/-- Single read of memory address `a`, 0 to 30 (30_encoding.md R94; 41_protocol.md R160). -/
def execWireRamRd (a : BitVec 5) (s : State) : Host.Outcome State Fault Refusal :=
  txnRead (ramCmd (a.setWidth 8) .read) 1 s

/-- A command byte below 0x80: "are never sent (rule R91); the document says nothing of what a peer does with one"
(30_encoding.md R97). -/
def execWireNeverSent (_c : BitVec 7) (_s : State) : Host.Outcome State Fault Refusal :=
  .refused .commandNeverSent

end Sys2Proof.Machine
end

