-- ==== Sys2Proof/Machine/Dispatch.lean ====
section
/-! DEFINITION. The meaning of every instruction, one arm a constructor. -/

namespace Sys2Proof.Machine

def exec (i : Instr) (s : State) : Host.Outcome State Fault Refusal :=
  match i with
  -- BCD codec (40_bcd.md)
  | .toBcd n => Sys2Proof.Machine.execToBcd n s
  | .fromBcd b => Sys2Proof.Machine.execFromBcd b s
  | .blkPack tm flag => Sys2Proof.Machine.execBlkPack tm flag s
  | .blkUnpack blk => Sys2Proof.Machine.execBlkUnpack blk s
  -- wire operations (41_protocol.md)
  | .regRd addr => Sys2Proof.Machine.execRegRd addr s
  | .regWr addr b => Sys2Proof.Machine.execRegWr addr b s
  | .clkBurstRd => Sys2Proof.Machine.execClkBurstRd s
  | .clkBurstWr blk => Sys2Proof.Machine.execClkBurstWr blk s
  | .ramRd addr => Sys2Proof.Machine.execRamRd addr s
  | .ramWr addr b => Sys2Proof.Machine.execRamWr addr b s
  | .ramBurstRd size => Sys2Proof.Machine.execRamBurstRd size s
  | .ramBurstWr size data => Sys2Proof.Machine.execRamBurstWr size data s
  | .wpSet flag => Sys2Proof.Machine.execWpSet flag s
  | .chipGetTime => Sys2Proof.Machine.execChipGetTime s
  | .chipSetTime tm flag => Sys2Proof.Machine.execChipSetTime tm flag s
  -- calendar engine (42_calendar.md)
  | .isLeap year => Sys2Proof.Machine.execIsLeap year s
  | .daysToEpoch year => Sys2Proof.Machine.execDaysToEpoch year s
  | .mkGmtime tm => Sys2Proof.Machine.execMkGmtime tm s
  | .mktimeUtc tm => Sys2Proof.Machine.execMktimeUtc tm s
  | .mktimeLocal tm => Sys2Proof.Machine.execMktimeLocal tm s
  | .gmtime t => Sys2Proof.Machine.execGmtime t s
  | .localtime t => Sys2Proof.Machine.execLocaltime t s
  | .setZone zone => Sys2Proof.Machine.execSetZone zone s
  | .getZone => Sys2Proof.Machine.execGetZone s
  | .setDst flag => Sys2Proof.Machine.execSetDst flag s
  | .isotime tm => Sys2Proof.Machine.execIsotime tm s
  -- tick unit (43_softclock.md)
  | .tick ms => Sys2Proof.Machine.execTick ms s
  | .getTime => Sys2Proof.Machine.execGetTime s
  | .setTime t => Sys2Proof.Machine.execSetTime t s
  | .getTimeTm => Sys2Proof.Machine.execGetTimeTm s
  | .setTimeTm tm => Sys2Proof.Machine.execSetTimeTm tm s
  -- wire commands (30_encoding.md R90 to R97)
  | .wireClkBurstWr blk => Sys2Proof.Machine.execWireClkBurstWr blk s
  | .wireClkBurstRd => Sys2Proof.Machine.execWireClkBurstRd s
  | .wireRamBurstWr data => Sys2Proof.Machine.execWireRamBurstWr data s
  | .wireRamBurstRd cnt => Sys2Proof.Machine.execWireRamBurstRd cnt s
  | .wireClkWr a b => Sys2Proof.Machine.execWireClkWr a b s
  | .wireClkRd a => Sys2Proof.Machine.execWireClkRd a s
  | .wireRamWr a b => Sys2Proof.Machine.execWireRamWr a b s
  | .wireRamRd a => Sys2Proof.Machine.execWireRamRd a s
  | .wireNeverSent c => Sys2Proof.Machine.execWireNeverSent c s

end Sys2Proof.Machine
end

