-- ==== Sys2Proof/Machine/Sequencer.lean ====
section
/-! DEFINITION. The sequencer, one pin event a step (41_protocol.md R150 to R158): the start of a transaction (R151)
and the transition table (R152). `wrTxn` and `rdTxn` of Machine/Ops.lean are the trace-level view of the same
behaviour (R160, R161). -/

namespace Sys2Proof.Machine

/-- The start (41_protocol.md R151): command byte `c`, data count `k`, and for a write the data bytes `d`. -/
def seqStart (c : Byte) (k : BitVec 5) (d : List Byte) (s : State) : State :=
  { s.emit [.writeCs true] with
    seq := ⟨.cmd, 0, 0, 0⟩
    regs := ⟨c, c.getLsbD 0, k, c, if c.getLsbD 0 then s.regs.db else loadDb s.regs.db d⟩ }

/-- The level `SH[BIT]`. -/
def State.shBit (s : State) : Level := s.regs.sh.getLsbD s.seq.bit.toNat

/-- `Write(DAT, SH[BIT])`, `SUB <- 1`. -/
def seqDrive (s : State) : State :=
  { s.emit [.writeDat s.shBit] with seq := { s.seq with sub := 1 } }

/-- `Read(DAT) -> l`, `SH[BIT] <- l`, `SUB <- 1`. -/
def seqSample (s : State) : State :=
  let (l, s') := s.sample
  { s' with
    seq := { s.seq with sub := 1 }
    regs := { s.regs with sh := setBit s.regs.sh s.seq.bit.toNat l } }

/-- `Toggle(CLK)`, `SUB <- 2`. -/
def seqRise (s : State) : State :=
  { s.emit [.toggleClk] with seq := { s.seq with sub := 2 } }

/-- `Settle`, `SUB <- 3`. -/
def seqSettle (s : State) : State :=
  { s.emit [.settle] with seq := { s.seq with sub := 3 } }

/-- After bit 7 of the command byte. -/
def seqAfterCmd (s : State) : State :=
  if s.regs.rw then { s with seq := ⟨.turn, 0, 0, 0⟩ }
  else { s with seq := ⟨.data, 0, 0, 0⟩, regs := { s.regs with sh := dbAt s.regs.db 0 } }

/-- After bit 7 of a data byte. -/
def seqAfterByte (s : State) : State :=
  let i := s.seq.idx.toNat
  let db := if s.regs.rw then s.regs.db.setIfInBounds i s.regs.sh else s.regs.db
  if i + 1 = s.regs.cnt.toNat then
    { s with seq := ⟨.down, 0, 0, s.seq.idx⟩, regs := { s.regs with db := db } }
  else
    { s with
      seq := ⟨.data, 0, 0, s.seq.idx + 1⟩
      regs := { s.regs with db := db, sh := if s.regs.rw then 0 else dbAt s.regs.db (i + 1) } }

/-- The second `Toggle(CLK)` of a bit, then the next bit or what follows bit 7. -/
def seqFall (s : State) : State :=
  let s' := s.emit [.toggleClk]
  if s.seq.bit.toNat < 7 then { s' with seq := { s.seq with sub := 0, bit := s.seq.bit + 1 } }
  else match s.seq.ph with
    | .cmd => seqAfterCmd s'
    | _ => seqAfterByte s'

/-- `SetIn(DAT)` (41_protocol.md R154). -/
def seqTurn (s : State) : State :=
  { s.emit [.setInDat] with seq := ⟨.data, 0, 0, 0⟩, regs := { s.regs with sh := 0 } }

/-- `Write(CS,0)` (41_protocol.md R157). -/
def seqDown (s : State) : State :=
  { s.emit [.writeCs false] with seq := if s.regs.rw then ⟨.release, 0, 0, 0⟩ else Seq.atIdle }

/-- `SetOut(DAT)` (41_protocol.md R158). -/
def seqRelease (s : State) : State :=
  { s.emit [.setOutDat] with seq := Seq.atIdle }

/-- One step of the sequencer: the transition table of 41_protocol.md R152, row by row. `none` at a combination of
phase and sub-step that has no row. -/
def seqStep (s : State) : Option State :=
  match s.seq.ph, s.seq.sub.toNat with
  | .idle, _ => some s
  | .cmd, 0 => some (seqDrive s)
  | .cmd, 1 => some (seqRise s)
  | .cmd, 2 => some (seqSettle s)
  | .cmd, _ => some (seqFall s)
  | .turn, 0 => some (seqTurn s)
  | .turn, _ => none
  | .data, 0 => some (if s.regs.rw then seqSample s else seqDrive s)
  | .data, 1 => some (seqRise s)
  | .data, 2 => some (seqSettle s)
  | .data, _ => some (seqFall s)
  | .down, 0 => some (seqDown s)
  | .down, _ => none
  | .release, 0 => some (seqRelease s)
  | .release, _ => none

/-- `n` steps of the sequencer. -/
def seqSteps : Nat → State → Option State
  | 0, s => some s
  | n + 1, s =>
    match seqStep s with
    | some s' => seqSteps n s'
    | none => none

end Sys2Proof.Machine
end

