-- ==== Sys2Proof/Machine/Fetch.lean ====
section
/-! DEFINITION. What the machine does next: which of the reset input, the TICK port, the sequencer, a start request
and the request port is served (10_state.md R21; 41_protocol.md R150; 43_softclock.md R244, R255; 70_reset_and_hazards.md
R292). -/

namespace Sys2Proof.Machine

/-- The work the next step does, and the state it starts from. -/
inductive Work where
  /-- The reset input is asserted. -/
  | reset
  /-- The sequencer is in a transaction and takes one step. -/
  | advance (s : State)
  /-- A reading taken from the TICK port. -/
  | tick (ms : Nat) (s : State)
  /-- An instruction taken from a port, run in the state without it. -/
  | run (i : Instr) (s : State)
  /-- A request with an unassigned operation code, taken from the port. -/
  | reject (s : State)
  /-- A start request that names no transaction. -/
  | stop (r : Refusal)
  /-- Nothing is there to do. -/
  | wait
deriving DecidableEq, Repr

/-- Whether anything but a TICK is ready. -/
def mainReady (s : State) : Bool :=
  decide (s.seq.ph ≠ .idle) || s.txn.isSome || !s.reqs.isEmpty

/-- The work ready beside the TICK port: a transaction in progress goes on, for a request is held meanwhile
(10_state.md R21); then a start request; then the first request held. -/
def fetchMain (s : State) : Work :=
  if s.seq.ph ≠ .idle then .advance s
  else match s.txn with
    | some r =>
      match decodeTxn r with
      | .ok i => .run i { s with txn := none }
      | .error _ => .stop .badTransaction
    | none =>
      match s.reqs with
      | [] => .wait
      | r :: rest =>
        match decodeHost s.params r with
        | .ok i => .run i { s with reqs := rest }
        | .error _ => .reject { s with reqs := rest }

/-- The work of the next step. A TICK and other work both ready are served in an order the spec leaves open
(43_softclock.md R255), here a free value (log 7). -/
def fetch (s : State) : Work :=
  if s.rst then .reset
  else match s.ticks with
    | [] => fetchMain s
    | ms :: rest =>
      if mainReady s then
        if Config.tickFirst s.turn then .tick ms { s with ticks := rest, turn := s.turn + 1 }
        else fetchMain { s with turn := s.turn + 1 }
      else .tick ms { s with ticks := rest }

/-- One step of the sequencer as an outcome (41_protocol.md R152). -/
def advance (s : State) : Host.Outcome State Fault Refusal :=
  match seqStep s with
  | some s' => .next s'
  | none => .refused .seqUnreachable

/-- A reading of the TICK port, `MS_BITS` wide, performed: `TICK` as ever, its response on the TICK port, the host
port's left alone (43_softclock.md R244; 60_exceptions.md R269; log 14). -/
def serveTick (ms : Nat) (s : State) : Host.Outcome State Fault Refusal :=
  match execTick (readUnsigned s.params.msBits ms) s with
  | .next s' => .next { s' with resp := s.resp, tickResp := s'.resp }
  | .fault f => .fault f
  | .refused r => .refused r

/-- The request `q` put where the machine takes its next instruction from, nothing else being ready. -/
def State.present (s : State) (q : Request) : State :=
  let s := { s with rst := false, ticks := [], txn := none, seq := Seq.atIdle }
  match q with
  | .host r => { s with reqs := r :: s.reqs }
  | .wire r => { s with txn := some r }

end Sys2Proof.Machine
end

