-- ==== Sys2Proof/Machine/Step.lean ====
section
/-! DEFINITION. One step of the machine: one host operation from request to response, or one transaction, or one pin
event of a sequencer found in a transaction, or one TICK of the TICK port, or one reset (log 1). -/

namespace Sys2Proof.Machine

/-- One step. With nothing to do the block waits (70_reset_and_hazards.md R293). -/
def step (s : State) : Host.Outcome State Fault Refusal :=
  match fetch s with
  | .reset => .next s.applyReset
  | .advance s' => advance s'
  | .tick ms s' => serveTick ms s'
  | .run i s' => exec i s'
  | .reject s' => .next s'.refuseOp
  | .stop r => .refused r
  | .wait => .next s

/-- `s` with the instruction of the table word `w` where the next step takes its instruction from: a host operation
at the head of the request port, a wire command as the sequencer's start request (log 13). -/
def State.withFetchWord (s : State) (nbits w : Nat) : State := s.present (wordRequest (w % 2 ^ nbits))

end Sys2Proof.Machine
end

