-- ==== Sys2Proof/Safety.lean ====
section
/-! DEFINITION. The terms the claims use: the invariant of the machine, the wire traces written out from
41_protocol.md R142 to R161, what a transaction leaves behind, and the tables of 42_calendar.md R194. None of it is
called by the machine. -/

namespace Sys2Proof.Machine

/-! ## The invariant -/

/-- The clock level at a sub-step of a bit: high between the two toggles (41_protocol.md R143, R152). -/
def clkAt (sub : BitVec 2) : Level := decide (2 ≤ sub.toNat)

/-- The direction of the data pin once the command byte is out (41_protocol.md R154, R158). -/
def dataDir (rw : Bool) : PinDir := if rw then .inp else .out

/-- The pins agree with the position of the sequencer. Its first line is the idle invariant of 10_state.md R31. -/
abbrev SeqInv (s : State) : Prop :=
  (s.seq.ph = .idle → s.pins.idle) ∧
  (s.seq.ph = .cmd → s.pins.cs = true ∧ s.pins.clk = clkAt s.seq.sub ∧ s.pins.dir = .out) ∧
  (s.seq.ph = .turn → s.pins.cs = true ∧ s.pins.clk = false ∧ s.pins.dir = .out ∧ s.regs.rw = true) ∧
  (s.seq.ph = .data →
    s.pins.cs = true ∧ s.pins.clk = clkAt s.seq.sub ∧ s.pins.dir = dataDir s.regs.rw) ∧
  (s.seq.ph = .down → s.pins.cs = true ∧ s.pins.clk = false ∧ s.pins.dir = dataDir s.regs.rw) ∧
  (s.seq.ph = .release → s.pins.cs = false ∧ s.pins.clk = false ∧ s.pins.dir = .inp ∧ s.regs.rw = true)

/-- The position of the sequencer is one the transition table has a row for, with a byte still to move while it
moves bytes (10_state.md R32, R33; 41_protocol.md R152). -/
abbrev SeqReachable (s : State) : Prop :=
  (s.seq.ph = .turn ∨ s.seq.ph = .down ∨ s.seq.ph = .release → s.seq.sub = 0) ∧
  (s.seq.ph = .cmd ∨ s.seq.ph = .turn ∨ s.seq.ph = .data → s.seq.idx.toNat < s.regs.cnt.toNat) ∧
  (s.seq.ph = .cmd ∨ s.seq.ph = .turn → s.seq.idx = 0)

/-- The bytes behind a reference peer are in canonical form, all of them at addresses with storage. -/
def Peer.wf : Peer → Bool
  | .oracle _ => true
  | .loopWire => true
  | .reference r => Mem.wf r.mem && r.mem.all (fun c => Mem.exists c.1)

/-- The invariant of the machine: the sequencer and the pins agree (10_state.md R31), `RW` is `CMDB[0]` (R33), the
registers are within their widths (R41, R44, R45), and the peer's bytes are in canonical form. -/
abbrev Inv (s : State) : Prop :=
  SeqInv s ∧ SeqReachable s ∧ s.regs.rw = s.regs.cmdb.getLsbD 0 ∧
  inSigned s.params.zoneBits s.zone = true ∧
  s.seconds < 2 ^ s.params.epochBits ∧ s.lastMs < 2 ^ s.params.msBits ∧
  s.peer.wf = true

/-- Every request held at the host port either has an unassigned code or names a well-formed instruction. -/
def ReqsWf (s : State) : Prop :=
  ∀ r ∈ s.reqs, ∀ i, decodeHost s.params r = .ok i → i.wf s.params = true

/-! ## Traces -/

/-- The trace of `byte_wr(v)` (41_protocol.md R142, R143). -/
def traceByteWr (v : Byte) : List PinEvent :=
  (List.range 8).flatMap fun i => [.writeDat (v.getLsbD i), .toggleClk, .settle, .toggleClk]

/-- The trace of `byte_rd() -> v` (41_protocol.md R144, R145). -/
def traceByteRd (v : Byte) : List PinEvent :=
  (List.range 8).flatMap fun i => [.readDat (v.getLsbD i), .toggleClk, .settle, .toggleClk]

/-- The trace `W[c d]` of a write transaction (41_protocol.md R161). -/
def wrTrace (c : Byte) (d : List Byte) : List PinEvent :=
  [.writeCs true] ++ traceByteWr c ++ d.flatMap traceByteWr ++ [.writeCs false]

/-- The trace `R[c: d]` of a read transaction that sampled `d` (41_protocol.md R160). -/
def rdTrace (c : Byte) (d : List Byte) : List PinEvent :=
  [.writeCs true] ++ traceByteWr c ++ [.setInDat] ++ d.flatMap traceByteRd ++ [.writeCs false, .setOutDat]

/-- An event with the level of a sample taken out (41_protocol.md R183). -/
def PinEvent.unread : PinEvent → PinEvent
  | .readDat _ => .readDat false
  | .writeCs l => .writeCs l
  | .writeDat l => .writeDat l
  | .toggleClk => .toggleClk
  | .setInDat => .setInDat
  | .setOutDat => .setOutDat
  | .settle => .settle
  | .setOutCs => .setOutCs
  | .setOutClk => .setOutClk
  | .writeClk l => .writeClk l

/-- How many clock toggles a trace has. -/
def toggles (es : List PinEvent) : Nat := es.countP fun e => e == .toggleClk

/-- How many samples a trace has. -/
def samples (es : List PinEvent) : Nat := es.countP fun e => e.unread == .readDat false

/-! ## What a transaction leaves behind -/

/-- The data count and the data of a start request are those some operation gives its command byte
(30_encoding.md R96, R97): one byte under any command byte, eight under the register block commands, 1 to 31 under the
memory block commands, the data given for a write and not for a read. -/
abbrev FitsCommand (q : TxnReq) : Prop :=
  if q.cmd.getLsbD 0 = true then
    q.data = [] ∧ (q.cnt = 1 ∨ (q.cmd = 0xBF#8 ∧ q.cnt = 8) ∨ (q.cmd = 0xFF#8 ∧ q.cnt ≠ 0))
  else
    q.cnt.toNat = q.data.length ∧
      (q.data.length = 1 ∨ (q.cmd = 0xBE#8 ∧ q.data.length = 8) ∨ (q.cmd = 0xFE#8 ∧ 1 ≤ q.data.length))

/-- A start request pending, if there is one, has a command byte an operation can send and fits it. -/
def TxnFits (s : State) : Prop := ∀ q, s.txn = some q → q.cmd.getLsbD 7 = true ∧ FitsCommand q

/-- The machine is about to take the start request `q`: no reset, no TICK, no transaction in progress. -/
def AtStart (s : State) (q : TxnReq) : Prop :=
  s.rst = false ∧ s.ticks = [] ∧ s.seq.ph = .idle ∧ s.txn = some q

/-- Where a reference peer keeps data byte `k` of a transaction with the command byte `c` (20_memory.md R83, R84). -/
def placeOf (c : Byte) (k : Nat) : Option Nat := RefPeer.target { RefPeer.reset with cmd := c } k

/-- Nothing but the pins, the sequencer, the transaction registers, the trace, the peer, the sample count and the
response differs between `s` and `t`. -/
def SameBeside (s t : State) : Prop :=
  t = { s with
    pins := t.pins, seq := t.seq, regs := t.regs, trace := t.trace, peer := t.peer, asked := t.asked,
    resp := t.resp }

/-- The bytes of the reference peer, a fixture (logs 5 and 17), after a write transaction of `d` under the command byte
`c` (20_memory.md R83): a byte at no place of the transaction is as before; a byte at a place of it is the data byte sent there, if it stands at
address 7 or the peer was not protected at the start, and else as before. The second clause asks that the bytes of
the peer are in canonical form; the last says that they then are so afterwards. -/
def StoredBy (c : Byte) (d : List Byte) (s t : State) : Prop :=
  (∀ a, (∀ k, k < d.length → placeOf c k ≠ some a) → t.peer.byteAt a = s.peer.byteAt a) ∧
  (∀ r, s.peer = .reference r → Mem.wf r.mem = true → ∀ k, (h : k < d.length) → ∀ a, placeOf c k = some a →
    t.peer.byteAt a =
      if a = 7 ∨ (Mem.read r.mem 7).getLsbD 7 = false then some d[k] else s.peer.byteAt a) ∧
  (∀ r, s.peer = .reference r → ∃ r', t.peer = .reference r' ∧ (Mem.wf r.mem = true → Mem.wf r'.mem = true))

/-- A peer that is no reference peer is left as it was: an oracle keeps its levels, a loop-back wire stays one
(41_protocol.md R161: "A write transaction takes nothing from the peer"). -/
def TakesNothing (s t : State) : Prop :=
  (∀ ls, s.peer = .oracle ls → t.peer = .oracle ls) ∧ (s.peer = .loopWire → t.peer = .loopWire)

/-- `t` is `s` after a write transaction of `d` under `c`: the pins idle again with bit 7 of the last data byte in
the latch, the trace longer by the transaction (41_protocol.md R159, R161), nothing taken from the peer. What the
transaction registers hold afterwards is read from the transition table (log 20); the bytes of a reference peer, a
fixture, are those of 20_memory.md R83 (logs 5 and 17). -/
def WriteDone (c : Byte) (d : List Byte) (s t : State) : Prop :=
  t.trace = s.trace ++ wrTrace c d ∧
  t.pins = ⟨false, false, .out, (d.getLastD 0).getLsbD 7⟩ ∧
  t.seq = ⟨.idle, 0, 0, 0⟩ ∧
  t.regs.cmdb = c ∧ t.regs.rw = false ∧ t.regs.cnt.toNat = d.length ∧ t.regs.sh = d.getLastD 0 ∧
  (∀ i, (h : i < 31) → t.regs.db[i] = d.getD i s.regs.db[i]) ∧
  t.asked = s.asked ∧ SameBeside s t ∧ StoredBy c d s t ∧ TakesNothing s t

/-- `t` is `s` after a read transaction under `c` that sampled `d`: the pins idle again with 1 in the latch, the
trace longer by the transaction, `d` in the data buffer (41_protocol.md R159, R160; the registers by log 20). Whether a
read changes a peer is not in the spec (20_memory.md R69); of the fixtures alone it is said that a reference peer keeps
its bytes and a loop-back wire stays one (logs 5 and 17). -/
def ReadDone (c : Byte) (d : List Byte) (s t : State) : Prop :=
  t.trace = s.trace ++ rdTrace c d ∧
  t.pins = ⟨false, false, .out, true⟩ ∧
  t.seq = ⟨.idle, 0, 0, 0⟩ ∧
  t.regs.cmdb = c ∧ t.regs.rw = true ∧ t.regs.cnt.toNat = d.length ∧ t.regs.sh = d.getLastD 0 ∧
  (∀ i, (h : i < 31) → t.regs.db[i] = d.getD i s.regs.db[i]) ∧
  t.asked = s.asked + 8 * d.length ∧ SameBeside s t ∧
  (∀ r, s.peer = .reference r → ∃ r', t.peer = .reference r' ∧ r'.mem = r.mem) ∧
  (s.peer = .loopWire → t.peer = .loopWire)

/-- The bytes `d` are what the peer of `s` answered under the command byte `c`: an oracle's levels in order, the
first in bit 0 (20_memory.md R64, R70), then free values; a reference peer's bytes at the places of the transaction
(R84); ones from a loop-back wire (R86). -/
def Answered (c : Byte) (d : List Byte) (s t : State) : Prop :=
  (∀ ls, s.peer = .oracle ls →
    t.peer = .oracle (ls.drop (8 * d.length)) ∧
    ∀ k, (h : k < d.length) → ∀ i, i < 8 →
      d[k].getLsbD i = (ls[8 * k + i]?).getD
        (Config.peerLevel (s.asked + (8 * k + i)))) ∧
  (∀ r, s.peer = .reference r → ∀ k, (h : k < d.length) →
    d[k] = match placeOf c k with
      | some a => Mem.read r.mem a
      | none => 0) ∧
  (s.peer = .loopWire → ∀ v ∈ d, v = 0xFF#8)

/-! ## The calendar's tables -/

/-- `cum(m, Y)` as 42_calendar.md R194 prints it. -/
def cumTable (leap : Bool) (m : Nat) : Int :=
  if leap then [0, 31, 60, 91, 121, 152, 182, 213, 244, 274, 305, 335].getD m 0
  else [0, 31, 59, 90, 120, 151, 181, 212, 243, 273, 304, 334].getD m 0

/-- "divisible by 4, except centuries not divisible by 400" (42_calendar.md R191). -/
abbrev Leap (y : Int) : Prop := (4 ∣ y ∧ ¬ 100 ∣ y) ∨ 400 ∣ y

/-- `days_to_epoch` as the sums of 42_calendar.md R195. -/
def daysSum (y : Int) : Int :=
  if 2000 ≤ y then ((List.range (y - 2000).toNat).map fun (k : Nat) => if Leap (2000 + k) then (366 : Int) else 365).sum
  else -((List.range (2000 - y).toNat).map fun (k : Nat) => if Leap (y + k) then (366 : Int) else 365).sum

/-- The wall-clock sum as 42_calendar.md R200 writes it, over `daysSum` and the printed table. -/
def wallSum (p : Params) (tm : Tm) : Int :=
  let y := p.yearBase + tm.year.toInt + tm.mon.toInt / 12
  let m := (tm.mon.toInt % 12).toNat
  let d := daysSum y + cumTable (decide (Leap y)) m + (tm.mday.toInt - 1)
  86400 * d + 3600 * tm.hour.toInt + 60 * tm.min.toInt + tm.sec.toInt

/-- The calendar year of the instant `t` (42_calendar.md R205), less `YEAR_BASE`, fits the 16-bit year field of
10_state.md R36. At the defaults of 00_scope.md R9 this is so of every instant. -/
def YearFits (p : Params) (t : Nat) : Prop :=
  ∃ y : Int, daysSum y ≤ (t / 86400 : Nat) ∧ ((t / 86400 : Nat) : Int) < daysSum (y + 1) ∧
    -32768 ≤ y - p.yearBase ∧ y - p.yearBase ≤ 32767

/-- `x` is an instant of the epoch width (42_calendar.md R202). -/
abbrev InEpoch (p : Params) (x : Int) : Prop := 0 ≤ x ∧ x < 2 ^ p.epochBits

/-- `tm` is the normalised record of the instant `t`, with `isdst` as given: 42_calendar.md R205 line by line, the
year and the month by what determines them. Of the year field nothing is said where the year does not fit it
(log 24). -/
def IsSplit (p : Params) (isdst : Int) (t : Nat) (tm : Tm) : Prop :=
  ∃ (y : Int) (m : Nat), 2000 ≤ y ∧ m ≤ 11 ∧
    daysSum y ≤ (t / 86400 : Nat) ∧ ((t / 86400 : Nat) : Int) < daysSum (y + 1) ∧
    cumTable (decide (Leap y)) m ≤ tm.yday.toInt ∧
    tm.yday.toInt < (if m = 11 then (if Leap y then (366 : Int) else 365)
      else cumTable (decide (Leap y)) (m + 1)) ∧
    tm.sec.toInt = (t % 60 : Nat) ∧
    tm.min.toInt = (t % 3600 / 60 : Nat) ∧
    tm.hour.toInt = (t % 86400 / 3600 : Nat) ∧
    tm.mday.toInt = tm.yday.toInt - cumTable (decide (Leap y)) m + 1 ∧
    tm.mon.toInt = m ∧
    tm.wday.toInt = ((t / 86400 + 6) % 7 : Nat) ∧
    (-32768 ≤ y - p.yearBase → y - p.yearBase ≤ 32767 → tm.year.toInt = y - p.yearBase) ∧
    tm.yday.toInt = (t / 86400 : Nat) - daysSum y ∧
    tm.isdst.toInt = isdst

/-- The ASCII code of the digit of weight `w` of `v` (42_calendar.md R231). -/
def digitAt (v : Int) (w : Int) : Byte := BitVec.ofInt 8 (48 + v / w % 10)

/-! ## Which instructions -/

/-- The operation codes of 30_encoding.md R101. -/
def hostCodes : List Nat :=
  [0x01, 0x02, 0x03, 0x04, 0x10, 0x11, 0x12, 0x13, 0x14, 0x15, 0x16, 0x17, 0x18, 0x19, 0x1A,
    0x20, 0x21, 0x22, 0x23, 0x24, 0x25, 0x26, 0x27, 0x28, 0x29, 0x30, 0x31, 0x32, 0x33, 0x34]

/-- The operation code of a host operation (30_encoding.md R101); a wire command has none. -/
def opCodeOf : Instr → Option Nat
  | .toBcd _ => some 0x01
  | .fromBcd _ => some 0x02
  | .blkPack _ _ => some 0x03
  | .blkUnpack _ => some 0x04
  | .regRd _ => some 0x10
  | .regWr _ _ => some 0x11
  | .clkBurstRd => some 0x12
  | .clkBurstWr _ => some 0x13
  | .ramRd _ => some 0x14
  | .ramWr _ _ => some 0x15
  | .ramBurstRd _ => some 0x16
  | .ramBurstWr _ _ => some 0x17
  | .wpSet _ => some 0x18
  | .chipGetTime => some 0x19
  | .chipSetTime _ _ => some 0x1A
  | .isLeap _ => some 0x20
  | .daysToEpoch _ => some 0x21
  | .mkGmtime _ => some 0x22
  | .mktimeUtc _ => some 0x23
  | .mktimeLocal _ => some 0x23
  | .gmtime _ => some 0x24
  | .localtime _ => some 0x25
  | .setZone _ => some 0x26
  | .getZone => some 0x27
  | .setDst _ => some 0x28
  | .isotime _ => some 0x29
  | .tick _ => some 0x30
  | .getTime => some 0x31
  | .setTime _ => some 0x32
  | .getTimeTm => some 0x33
  | .setTimeTm _ => some 0x34
  | .wireClkBurstWr _ | .wireClkBurstRd | .wireRamBurstWr _ | .wireRamBurstRd _ => none
  | .wireClkWr _ _ | .wireClkRd _ | .wireRamWr _ _ | .wireRamRd _ | .wireNeverSent _ => none

/-- The operations 70_reset_and_hazards.md R294 calls pure: they depend on their operands alone. -/
def pureOp : Instr → Bool
  | .toBcd _ | .fromBcd _ | .blkPack _ _ | .blkUnpack _ => true
  | .isLeap _ | .daysToEpoch _ | .mkGmtime _ | .mktimeUtc _ | .gmtime _ | .isotime _ => true
  | .regRd _ | .regWr _ _ | .clkBurstRd | .clkBurstWr _ | .ramRd _ | .ramWr _ _ => false
  | .ramBurstRd _ | .ramBurstWr _ _ | .wpSet _ | .chipGetTime | .chipSetTime _ _ => false
  | .mktimeLocal _ | .localtime _ | .setZone _ | .getZone | .setDst _ => false
  | .tick _ | .getTime | .setTime _ | .getTimeTm | .setTimeTm _ => false
  | .wireClkBurstWr _ | .wireClkBurstRd | .wireRamBurstWr _ | .wireRamBurstRd _ => false
  | .wireClkWr _ _ | .wireClkRd _ | .wireRamWr _ _ | .wireRamRd _ | .wireNeverSent _ => false

/-- `exec i s` answers a next state whose trace is that of `s` and `n` events more, `k` of them clock toggles and
`m` samples (70_reset_and_hazards.md R321). -/
def Emits (i : Instr) (s : State) (n k m : Nat) : Prop :=
  ∃ t es, exec i s = .next t ∧ t.trace = s.trace ++ es ∧ es.length = n ∧ toggles es = k ∧ samples es = m

/-- The integer of a packed BCD byte, whatever its nibbles (40_bcd.md R124, R125). -/
def bcdValue (b : Byte) : Int := 10 * (b.toNat / 16 : Nat) + (b.toNat % 16 : Nat)

/-- `b` is the packed BCD byte of `v`, if `v` is in 0 to 99 (40_bcd.md R120 to R122). -/
def PacksTo (v : Int) (b : Byte) : Prop :=
  0 ≤ v → v ≤ 99 → (b.toNat : Int) = 16 * (v / 10) + v % 10

/-- An integer below 256 stored in an 8-bit signed field (40_bcd.md R128: "stored as `value - 256`"). -/
def stored8 (v : Int) : Int := if v ≤ 127 then v else v - 256

/-- The seven values `BLK_PACK` packs each lie in 0 to 99 (40_bcd.md R127). -/
abbrev Packable (p : Params) (tm : Tm) : Prop :=
  (0 ≤ tm.sec.toInt ∧ tm.sec.toInt ≤ 99) ∧ (0 ≤ tm.min.toInt ∧ tm.min.toInt ≤ 99) ∧
  (0 ≤ tm.hour.toInt ∧ tm.hour.toInt ≤ 99) ∧ (0 ≤ tm.mday.toInt ∧ tm.mday.toInt ≤ 99) ∧
  (0 ≤ tm.mon.toInt + 1 ∧ tm.mon.toInt + 1 ≤ 99) ∧ (0 ≤ tm.wday.toInt + 1 ∧ tm.wday.toInt + 1 ≤ 99) ∧
  (0 ≤ p.yearBase + tm.year.toInt - 2000 ∧ p.yearBase + tm.year.toInt - 2000 ≤ 99)

/-- The record can be printed in the fixed layout (42_calendar.md R231, R232). -/
abbrev Printable (p : Params) (tm : Tm) : Prop :=
  (0 ≤ p.yearBase + tm.year.toInt ∧ p.yearBase + tm.year.toInt ≤ 9999) ∧
  (0 ≤ tm.mon.toInt + 1 ∧ tm.mon.toInt + 1 ≤ 99) ∧ (0 ≤ tm.mday.toInt ∧ tm.mday.toInt ≤ 99) ∧
  (0 ≤ tm.hour.toInt ∧ tm.hour.toInt ≤ 99) ∧ (0 ≤ tm.min.toInt ∧ tm.min.toInt ≤ 99) ∧
  (0 ≤ tm.sec.toInt ∧ tm.sec.toInt ≤ 99)

/-- The answer of `dst_adj(u)` (42_calendar.md R220), the hook's adjustment read at `ZONE_BITS`. -/
def dstAt (s : State) (u : Nat) : Bool × Int :=
  if s.dstEn = true ∧ (Config.dstHook u).1 = true then (true, wrapSigned s.params.zoneBits (Config.dstHook u).2)
  else (false, 0)

end Sys2Proof.Machine
end

