-- ==== Sys2Proof/Certificates/Slice0/Obligations.lean ====
section
/-! DEFINITION. The statements for the provers. Each docstring names the rules of spec/ a statement formalises. A
statement that says what an instruction does concludes that `exec` answers a next state and says all of it: what is
not named is as before. -/

open Sys2Proof Sys2Proof.Machine

/-! ## Encodings -/

/-- Decoding what `encode` writes gives the instruction back, for every well-formed instruction: host requests
(30_encoding.md R101, R102) and command bytes (R90, R92 to R94). -/
def Obligations.DecodeEncodeAgree : Prop :=
  ∀ (p : Params) (i : Instr), p.wf → i.wf p = true → decode p (encode p i) = .ok i

/-- Words written out from the encodings: operation codes of 30_encoding.md R101 with their operands, and command
bytes bit by bit from R90 to R94. -/
def Obligations.WordsDecodeToTheirInstructions : Prop :=
  decode Params.default (.host { HostReq.blank 0b00000001#8 with n := 42 }) = .ok (.toBcd 42) ∧
  decode Params.default (.host { HostReq.blank 0b00010001#8 with addr := 7, b := 0x80 }) = .ok (.regWr 7 0x80) ∧
  decode Params.default (.host { HostReq.blank 0b00100011#8 with isLocal := true }) = .ok (.mktimeLocal Tm.zero) ∧
  decode Params.default (.host { HostReq.blank 0b00100110#8 with zone := 0xFFFFB9B0 }) = .ok (.setZone (-18000)) ∧
  decode Params.default (.host { HostReq.blank 0b00110000#8 with ms := 1100 }) = .ok (.tick 1100) ∧
  decode Params.default (.wire ⟨0b10001110#8, 1, [0x80]⟩) = .ok (.wireClkWr 7 0x80) ∧
  decode Params.default (.wire ⟨0b10111111#8, 8, []⟩) = .ok .wireClkBurstRd ∧
  decode Params.default (.wire ⟨0b11001010#8, 1, [0x77]⟩) = .ok (.wireRamWr 5 0x77) ∧
  decode Params.default (.wire ⟨0b11111101#8, 1, []⟩) = .ok (.wireRamRd 30) ∧
  decode Params.default (.wire ⟨0b11111110#8, 2, [0x11, 0x22]⟩) = .ok (.wireRamBurstWr [0x11, 0x22])

/-- The host decoder takes the codes of the table and no other, each for the operation the table gives it
(30_encoding.md R101), and says which code it rejects. That it takes the codes of a unit that is absent, which R101
calls unassigned, is the model's choice (log 22): their meanings then answer `bad_op`. -/
def Obligations.HostDecoderTakesTheTableCodes : Prop :=
  ∀ (p : Params) (r : HostReq),
    ((∃ i, decodeHost p r = .ok i) ↔ r.op.toNat ∈ hostCodes) ∧
    (∀ i, decodeHost p r = .ok i → opCodeOf i = some r.op.toNat) ∧
    (r.op.toNat ∉ hostCodes → decodeHost p r = .error (.badOp r.op))

/-- Command byte formation (30_encoding.md R92), the burst command bytes (R93) and the memory command bytes (R94). -/
def Obligations.CommandByteFormation : Prop :=
  (∀ addr : Byte,
    (cmdByte addr .write).toNat = (((addr.toNat &&& 0x3F) <<< 1) ||| 0x80) % 256 ∧
    (cmdByte addr .read).toNat = (((addr.toNat &&& 0x3F) <<< 1) ||| 0x81) % 256) ∧
  (clkBurstCmd .write = 0xBE#8 ∧ clkBurstCmd .read = 0xBF#8 ∧
    ramBurstCmd .write = 0xFE#8 ∧ ramBurstCmd .read = 0xFF#8) ∧
  (clkBurstCmd .write = cmdByte 31 .write ∧ clkBurstCmd .read = cmdByte 31 .read ∧
    ramBurstCmd .write = cmdByte 63 .write ∧ ramBurstCmd .read = cmdByte 63 .read) ∧
  (∀ a : Byte, a.toNat ≤ 30 →
    ramCmd a .write = cmdByte (32 + a) .write ∧ (ramCmd a .write).toNat = 0xC0 + 2 * a.toNat ∧
    ramCmd a .read = cmdByte (32 + a) .read ∧ (ramCmd a .read).toNat = 0xC1 + 2 * a.toNat)

/-- No transaction starts with a command byte below 0x80 (30_encoding.md R91): after any instruction the command
byte register is as before, or has bit 7 set and is a read's exactly when bit 0 is set. That the registers still hold
the transaction's values once the instruction has ended is read from the transition table (log 20): 10_state.md R33
calls them meaningless then, and the statement would be false of a block that clears them. -/
def Obligations.CommandBytesHaveBitSeven : Prop :=
  ∀ (i : Instr) (s t : State), exec i s = .next t →
    t.regs = s.regs ∨ (t.regs.cmdb.getLsbD 7 = true ∧ t.regs.rw = t.regs.cmdb.getLsbD 0)

/-! ## The step -/

/-- A step runs the decoded instruction. With the reset input low and no TICK waiting: an idle machine with a start
request runs the instruction it decodes to, without the request; with none, the first host request (10_state.md R21);
a machine in a transaction takes one step of the sequencer (41_protocol.md R150); and with nothing to do it waits
(70_reset_and_hazards.md R293). The clause about a start request is the model's choice: the port for it (log 12), its
whole transaction in one step, as every operation (log 1), and that it goes before a held host request (log 27). -/
def Obligations.StepRunsTheDecodedInstruction : Prop :=
  ∀ s : State, s.rst = false → s.ticks = [] →
    (∀ q i, s.seq.ph = .idle → s.txn = some q → decodeTxn q = .ok i → step s = exec i { s with txn := none }) ∧
    (∀ r rest i, s.seq.ph = .idle → s.txn = none → s.reqs = r :: rest → decodeHost s.params r = .ok i →
      step s = exec i { s with reqs := rest }) ∧
    (∀ t, s.seq.ph ≠ .idle → seqStep s = some t → step s = .next t) ∧
    (s.seq.ph = .idle → s.txn = none → s.reqs = [] → step s = .next s)

/-- An operation code that is not assigned is refused with the flag `bad_op`, with no pin event and no state change,
and so is an operation of a unit that is absent (30_encoding.md R108). -/
def Obligations.UnassignedCodesAnswerBadOp : Prop :=
  (∀ (s : State) (r : HostReq) (rest : List HostReq),
    s.rst = false → s.ticks = [] → s.seq.ph = .idle → s.txn = none → s.reqs = r :: rest →
    r.op.toNat ∉ hostCodes → step s = .next { s with reqs := rest, resp := some { badOp := true } }) ∧
  (∀ s : State, s.params.hasTickUnit = false →
    (∀ ms, exec (.tick ms) s = .next { s with resp := some { badOp := true } }) ∧
    exec .getTime s = .next { s with resp := some { badOp := true } } ∧
    (∀ t, exec (.setTime t) s = .next { s with resp := some { badOp := true } }) ∧
    exec .getTimeTm s = .next { s with resp := some { badOp := true } } ∧
    (∀ tm, exec (.setTimeTm tm) s = .next { s with resp := some { badOp := true } })) ∧
  (∀ s : State, s.params.hasIsotime = false →
    ∀ tm, exec (.isotime tm) s = .next { s with resp := some { badOp := true } })

/-- A TICK waiting beside other work takes effect entirely before it, or entirely after (43_softclock.md R255): the
step performs the TICK and leaves the other work, or does exactly what it would do with no TICK waiting and leaves
the TICK. With no other work the step performs the TICK. -/
def Obligations.TickIsServedBeforeOrAfter : Prop :=
  ∀ (s : State) (ms : Nat) (rest : List Nat), s.rst = false → s.ticks = ms :: rest →
    (mainReady s = true →
      step s = serveTick ms { s with ticks := rest, turn := s.turn + 1 } ∨
      step s = match step { s with ticks := [], turn := s.turn + 1 } with
        | .next t => .next { t with ticks := s.ticks }
        | .fault f => .fault f
        | .refused r => .refused r) ∧
    (mainReady s = false → step s = serveTick ms { s with ticks := rest })

/-- A TICK of the TICK port always completes and changes nothing but the tick unit and the response of that port: no
wire trace, no `ZONE`, no `DST_EN`, no response of another operation (60_exceptions.md R269). -/
def Obligations.TickPortChangesOnlyTheTickUnit : Prop :=
  ∀ (s : State) (ms : Nat), ∃ t r, serveTick ms s = .next t ∧
    t = { s with seconds := t.seconds, lastMs := t.lastMs, tickResp := some r } ∧
    (s.params.hasTickUnit = true → ms < 2 ^ s.params.msBits → ∃ u, exec (.tick ms) s = .next u ∧
      u.seconds = t.seconds ∧ u.lastMs = t.lastMs ∧ u.resp = some r)

/-! ## Invariants and reset -/

/-- Every step keeps the invariant: the idle invariant of 10_state.md R31 and its counterpart in every phase of a
transaction, `RW = CMDB[0]` (R33), the registers in their widths (R41, R44, R45), the peer's bytes in canonical
form. -/
def Obligations.StepKeepsTheInvariant : Prop :=
  ∀ s t : State, Inv s → step s = .next t → Inv t

/-- The invariant holds after reset. -/
def Obligations.ResetHasTheInvariant : Prop := Inv State.reset

/-- No step stops: from a state with the invariant, any start request pending one that fits its command byte, and only
well-formed requests held, the step answers a next state, of which the same is true and whose parameters (00_scope.md
R9) are as before (60_exceptions.md R260; start requests are the model's own port, log 12). -/
def Obligations.NoStepStops : Prop :=
  ∀ s : State, Inv s → TxnFits s → ReqsWf s → ∃ t, step s = .next t ∧ TxnFits t ∧ ReqsWf t ∧ t.params = s.params

/-- The reset values of 70_reset_and_hazards.md R290, in the state after reset and after a reset of any state; the
bytes behind the wires are not reset. That the step lowers the reset line is the model's choice, which R290 does not
speak of (log 16); the bytes are those of the reference peer, a fixture (log 5). -/
def Obligations.ResetLeavesTheStatedValues : Prop :=
  let AtReset (t : State) : Prop :=
    t.pins = ⟨false, false, .out, false⟩ ∧ t.seq = ⟨.idle, 0, 0, 0⟩ ∧
    t.regs.cmdb = 0 ∧ t.regs.rw = false ∧ t.regs.cnt = 0 ∧ t.regs.sh = 0 ∧
    (∀ i, (h : i < 31) → t.regs.db[i] = 0) ∧
    t.zone = 0 ∧ t.dstEn = false ∧ t.seconds = 0 ∧ t.lastMs = 0
  AtReset State.reset ∧
  ∀ s : State, s.rst = true →
    ∃ t, step s = .next t ∧ AtReset t ∧ t.rst = false ∧ ∀ a, t.peer.byteAt a = s.peer.byteAt a

/-- The pin events of reset, in their order, and the idle invariant after them; and no step but a reset writes the
clock level or makes chip-select or clock an output (70_reset_and_hazards.md R291). -/
def Obligations.ResetEmitsSixEvents : Prop :=
  let six : List PinEvent := [.writeCs false, .setOutCs, .writeClk false, .setOutClk, .writeDat false, .setOutDat]
  (State.reset.trace = six ∧ State.reset.idle) ∧
  (∀ s : State, s.rst = true → ∃ t, step s = .next t ∧ t.trace = s.trace ++ six ∧ t.idle) ∧
  ∀ s t : State, s.rst = false → step s = .next t →
    ∃ es, t.trace = s.trace ++ es ∧ ∀ e ∈ es, e ≠ .setOutCs ∧ e ≠ .setOutClk ∧ ∀ l, e ≠ .writeClk l

/-! ## BCD codec -/

/-- `TO_BCD` of 0 to 99 is the packed byte (40_bcd.md R122); above 99 it completes with some byte and no flag. -/
def Obligations.ToBcdPacksTwoDigits : Prop :=
  (∀ (p : Params) (r : HostReq), r.op = 0x01 → decodeHost p r = .ok (.toBcd r.n)) ∧
  ∀ (n : Byte) (s : State), ∃ b, exec (.toBcd n) s = .next { s with resp := some { b := some b } } ∧
    (n.toNat ≤ 99 →
      b.toNat = ((n.toNat / 10) <<< 4) ||| (n.toNat % 10) ∧ b.toNat / 16 ≤ 9 ∧ b.toNat % 16 ≤ 9)

/-- `FROM_BCD` of any byte is ten times its high nibble and its low nibble, malformed bytes alike (40_bcd.md R124,
R125). -/
def Obligations.FromBcdReadsEveryByte : Prop :=
  (∀ (p : Params) (r : HostReq), r.op = 0x02 → decodeHost p r = .ok (.fromBcd r.b)) ∧
  ∀ (b : Byte) (s : State), ∃ n, exec (.fromBcd b) s = .next { s with resp := some { n := some n } } ∧
    n.toNat = (b.toNat >>> 4) * 10 + (b.toNat &&& 0x0F) ∧ n.toNat ≤ 165 ∧
    (b.toNat / 16 ≤ 9 → b.toNat % 16 ≤ 9 → n.toNat ≤ 99)

/-- The round trip of the codec (40_bcd.md R126): on 0 to 99, and on valid packed bytes. -/
def Obligations.BcdRoundTrip : Prop :=
  (∀ (n b : Byte) (s t : State), n.toNat ≤ 99 → exec (.toBcd n) s = .next t → t.resp = some { b := some b } →
    exec (.fromBcd b) s = .next { s with resp := some { n := some n } }) ∧
  (∀ (n b : Byte) (s t : State), b.toNat / 16 ≤ 9 → b.toNat % 16 ≤ 9 → exec (.fromBcd b) s = .next t →
    t.resp = some { n := some n } → exec (.toBcd n) s = .next { s with resp := some { b := some b } })

/-- `BLK_PACK` (40_bcd.md R127, R129): it completes for every record, and each byte is the packed form of its value
where that lies in 0 to 99; byte 7 is `WP_ON` or `WP_OFF`. -/
def Obligations.BlkPackPacksEachField : Prop :=
  (∀ (p : Params) (r : HostReq), r.op = 0x03 → decodeHost p r = .ok (.blkPack r.tm r.flag)) ∧
  ∀ (tm : Tm) (flag : Bool) (s : State), ∃ k : Blk,
    exec (.blkPack tm flag) s = .next { s with resp := some { blk := some k } } ∧
    PacksTo tm.sec.toInt k.seconds ∧ PacksTo tm.min.toInt k.minutes ∧ PacksTo tm.hour.toInt k.hours ∧
    PacksTo tm.mday.toInt k.date ∧ PacksTo (tm.mon.toInt + 1) k.month ∧ PacksTo (tm.wday.toInt + 1) k.weekday ∧
    PacksTo (s.params.yearBase + tm.year.toInt - 2000) k.year ∧
    k.wp = if flag then s.params.wpOn else s.params.wpOff

/-- `BLK_UNPACK` (40_bcd.md R128): every field of the record, malformed bytes alike, the values stored at the field's
width; `yday` is 0, `isdst` -1, and the flag tests the bits of `WP_ON`. For a seconds byte 0x60 this is `sec = 60`,
which 10_state.md R36 says no operation produces: that R128 is followed there is the model's choice (log 28). -/
def Obligations.BlkUnpackReadsEachByte : Prop :=
  (∀ (p : Params) (r : HostReq), r.op = 0x04 → decodeHost p r = .ok (.blkUnpack r.blk)) ∧
  ∀ (k : Blk) (s : State), ∃ tm : Tm,
    exec (.blkUnpack k) s =
      .next { s with resp := some { tm := some tm, flag := some (decide (k.wp &&& s.params.wpOn ≠ 0)) } } ∧
    tm.sec.toInt = stored8 (bcdValue k.seconds) ∧ tm.min.toInt = stored8 (bcdValue k.minutes) ∧
    tm.hour.toInt = stored8 (bcdValue k.hours) ∧ tm.mday.toInt = stored8 (bcdValue k.date) ∧
    tm.mon.toInt = stored8 (bcdValue k.month - 1) ∧ tm.wday.toInt = stored8 (bcdValue k.weekday - 1) ∧
    tm.year = BitVec.ofInt 16 (bcdValue k.year + 2000 - s.params.yearBase) ∧ tm.yday.toInt = 0 ∧ tm.isdst.toInt = -1

/-- The round trip of the block codec (40_bcd.md R130), here for all fields under the conditions on `WP_ON` and `WP_OFF`
that R130 asks for the flag. For `sec = 60` it rests on following R128 against 10_state.md R36, the model's choice
(log 28). -/
def Obligations.BlockRoundTrip : Prop :=
  ∀ (tm : Tm) (flag : Bool) (s : State), Packable s.params tm →
    s.params.wpOn ≠ 0 → s.params.wpOff &&& s.params.wpOn = 0 →
    ∃ k : Blk, exec (.blkPack tm flag) s = .next { s with resp := some { blk := some k } } ∧
      exec (.blkUnpack k) s =
        .next { s with resp := some { tm := some { tm with yday := 0, isdst := 0xFF#8 }, flag := some flag } }

/-! ## The sequencer and the transactions -/

/-- The sequencer, stepped from the start of a write transaction, ends after its 34 + 32k events in exactly the state
of the transaction, `IDLE` again (41_protocol.md R150 to R153, R155, R157, R161). What the transaction registers
hold at the end is read from the transition table (log 20). -/
def Obligations.SequencerRunsWriteTransactions : Prop :=
  ∀ (s : State) (c : Byte) (d : List Byte), c.getLsbD 0 = false → 1 ≤ d.length → d.length ≤ 31 →
    seqSteps (33 + 32 * d.length) (seqStart c (BitVec.ofNat 5 d.length) d s) = some (wrTxn c d s) ∧
    (wrTxn c d s).trace = s.trace ++ wrTrace c d ∧ (wrTxn c d s).seq.ph = .idle

/-- The sequencer, stepped from the start of a read transaction, ends after its 36 + 32k events in exactly the state
of the transaction (41_protocol.md R150 to R154, R156 to R158, R160). What the transaction registers hold at the end
is read from the transition table (log 20). -/
def Obligations.SequencerRunsReadTransactions : Prop :=
  ∀ (s : State) (c : Byte) (k : Nat), c.getLsbD 0 = true → 1 ≤ k → k ≤ 31 →
    seqSteps (35 + 32 * k) (seqStart c (BitVec.ofNat 5 k) [] s) = some (rdTxn c k s).2 ∧
    (rdTxn c k s).1.length = k ∧
    (rdTxn c k s).2.trace = s.trace ++ rdTrace c (rdTxn c k s).1 ∧ (rdTxn c k s).2.seq.ph = .idle

/-- A transaction that starts in the idle invariant ends in it, after 16 toggles a byte of the clock; after a write
the latch holds bit 7 of the last data byte, after a read bit 7 of the command byte (41_protocol.md R159). -/
def Obligations.TransactionsEndIdle : Prop :=
  ∀ (s : State) (c : Byte), s.idle →
    (∀ d, d ≠ [] → (wrTxn c d s).idle ∧ (wrTxn c d s).pins.latch = (d.getLastD 0).getLsbD 7 ∧
      toggles ((wrTxn c d s).trace.drop s.trace.length) = 16 + 16 * d.length) ∧
    (∀ k, (rdTxn c k s).2.idle ∧ (rdTxn c k s).2.pins.latch = c.getLsbD 7 ∧
      toggles ((rdTxn c k s).2.trace.drop s.trace.length) = 16 + 16 * k)

/-- The transition table moves chip-select, clock, direction and latch one event a step, and no step of the sequencer
touches anything outside the sequencer, the pins and the peer (41_protocol.md R150, R152). -/
def Obligations.SequencerStepEmitsOneEvent : Prop :=
  ∀ s t : State, s.seq.ph ≠ .idle → seqStep s = some t →
    ∃ e, t.trace = s.trace ++ [e] ∧ t.pins = s.pins.after e ∧ SameBeside s t ∧ t.resp = s.resp ∧
      t.regs.cmdb = s.regs.cmdb ∧ t.regs.rw = s.regs.rw ∧ t.regs.cnt = s.regs.cnt

/-! ## Wire operations -/

/-- `REG_WR` and `WP_SET` (41_protocol.md R163, R164, R177): one write transaction of one byte, every address taken,
its bits 7 and 6 dropped. The final registers are log 20's, the bytes of a reference peer those of the fixture
(20_memory.md R83; logs 5 and 17). -/
def Obligations.RegisterWritesSendOneByte : Prop :=
  (∀ (p : Params) (r : HostReq), (r.op = 0x11 → decodeHost p r = .ok (.regWr r.addr r.b)) ∧
    (r.op = 0x18 → decodeHost p r = .ok (.wpSet r.flag))) ∧
  ∀ s : State, s.idle →
    (∀ addr b : Byte, ∃ t, exec (.regWr addr b) s = .next t ∧ t.resp = some {} ∧
      WriteDone (BitVec.ofNat 8 (0x80 + 2 * (addr.toNat % 64))) [b] s t) ∧
    (∀ flag, ∃ t, exec (.wpSet flag) s = .next t ∧ t.resp = some {} ∧
      WriteDone 0x8E#8 [if flag then s.params.wpOn else s.params.wpOff] s t)

/-- `REG_RD` (41_protocol.md R162, R164): one read transaction of one byte, and that byte is the result. Whether a read
changes a peer is not in the spec (20_memory.md R69): that a reference peer keeps its bytes is said of the fixture alone
(logs 5 and 17), and the final registers are log 20's. -/
def Obligations.RegisterReadReturnsTheByte : Prop :=
  (∀ (p : Params) (r : HostReq), r.op = 0x10 → decodeHost p r = .ok (.regRd r.addr)) ∧
  ∀ s : State, s.idle → ∀ addr : Byte, ∃ t v, exec (.regRd addr) s = .next t ∧ t.resp = some { b := some v } ∧
    ReadDone (BitVec.ofNat 8 (0x81 + 2 * (addr.toNat % 64))) [v] s t ∧
    Answered (BitVec.ofNat 8 (0x81 + 2 * (addr.toNat % 64))) [v] s t

/-- `CLK_BURST_WR` and `CHIP_SET_TIME` (41_protocol.md R166, R179): the eight bytes in order, as given or as
`BLK_PACK` makes them. The final registers are log 20's, the bytes of a reference peer those of the fixture
(20_memory.md R83; logs 5 and 17). -/
def Obligations.BlockWritesSendEightBytes : Prop :=
  (∀ (p : Params) (r : HostReq), (r.op = 0x13 → decodeHost p r = .ok (.clkBurstWr r.blk)) ∧
    (r.op = 0x1A → decodeHost p r = .ok (.chipSetTime r.tm r.flag))) ∧
  ∀ s : State, s.idle →
    (∀ k : Blk, ∃ t, exec (.clkBurstWr k) s = .next t ∧ t.resp = some {} ∧
      WriteDone 0xBE#8 [k.seconds, k.minutes, k.hours, k.date, k.month, k.weekday, k.year, k.wp] s t) ∧
    (∀ tm flag, ∃ t k, exec (.chipSetTime tm flag) s = .next t ∧ t.resp = some {} ∧
      exec (.blkPack tm flag) s = .next { s with resp := some { blk := some k } } ∧
      WriteDone 0xBE#8 [k.seconds, k.minutes, k.hours, k.date, k.month, k.weekday, k.year, k.wp] s t)

/-- `CLK_BURST_RD` and `CHIP_GET_TIME` (41_protocol.md R165, R178): eight bytes read, returned raw, or as
`BLK_UNPACK` reads them. Whether a read changes a peer is not in the spec (20_memory.md R69): that a reference peer
keeps its bytes is said of the fixture alone (logs 5 and 17), and the final registers are log 20's. -/
def Obligations.BlockReadsReturnEightBytes : Prop :=
  (∀ (p : Params) (r : HostReq), (r.op = 0x12 → decodeHost p r = .ok .clkBurstRd) ∧
    (r.op = 0x19 → decodeHost p r = .ok .chipGetTime)) ∧
  ∀ s : State, s.idle →
    (∃ t k, exec .clkBurstRd s = .next t ∧ t.resp = some { blk := some k } ∧
      ReadDone 0xBF#8 [k.seconds, k.minutes, k.hours, k.date, k.month, k.weekday, k.year, k.wp] s t ∧
      Answered 0xBF#8 [k.seconds, k.minutes, k.hours, k.date, k.month, k.weekday, k.year, k.wp] s t) ∧
    (∃ t k u, exec .chipGetTime s = .next t ∧ exec (.blkUnpack k) s = .next u ∧ t.resp = u.resp ∧
      ReadDone 0xBF#8 [k.seconds, k.minutes, k.hours, k.date, k.month, k.weekday, k.year, k.wp] s t ∧
      Answered 0xBF#8 [k.seconds, k.minutes, k.hours, k.date, k.month, k.weekday, k.year, k.wp] s t)

/-- `RAM_RD` and `RAM_WR` (41_protocol.md R170 to R172): a memory address above 30 is refused with `bad_addr`, no pin
event and no other change; else one transaction of one byte. The final registers are log 20's, and what is said of a
reference peer's bytes is the fixture's (logs 5 and 17). -/
def Obligations.MemoryByteAccess : Prop :=
  (∀ (p : Params) (r : HostReq), (r.op = 0x14 → decodeHost p r = .ok (.ramRd r.addr)) ∧
    (r.op = 0x15 → decodeHost p r = .ok (.ramWr r.addr r.b))) ∧
  ∀ (s : State) (addr : Byte),
    (30 < addr.toNat →
      exec (.ramRd addr) s = .next { s with resp := some { badAddr := true } } ∧
      ∀ b, exec (.ramWr addr b) s = .next { s with resp := some { badAddr := true } }) ∧
    (addr.toNat ≤ 30 → s.idle →
      (∃ t v, exec (.ramRd addr) s = .next t ∧ t.resp = some { b := some v } ∧
        ReadDone (BitVec.ofNat 8 (0xC1 + 2 * addr.toNat)) [v] s t ∧
        Answered (BitVec.ofNat 8 (0xC1 + 2 * addr.toNat)) [v] s t) ∧
      ∀ b, ∃ t, exec (.ramWr addr b) s = .next t ∧ t.resp = some {} ∧
        WriteDone (BitVec.ofNat 8 (0xC0 + 2 * addr.toNat)) [b] s t)

/-- `RAM_BURST_RD` (41_protocol.md R173, R175): a size of 0 does nothing, another reads `min(size, 31)` bytes from
memory address 0. The final registers are log 20's, and what is said of a reference peer's bytes is the fixture's
(logs 5 and 17). -/
def Obligations.MemoryBurstReadClamps : Prop :=
  (∀ (p : Params) (r : HostReq), r.op = 0x16 → decodeHost p r = .ok (.ramBurstRd (r.size % 2 ^ p.sizeBits))) ∧
  ∀ (s : State) (size : Nat),
    (size = 0 → exec (.ramBurstRd size) s = .next { s with resp := some { data := some [], count := some 0 } }) ∧
    (0 < size → s.idle → ∃ t d, d.length = min size 31 ∧ exec (.ramBurstRd size) s = .next t ∧
      t.resp = some { data := some d, count := some (BitVec.ofNat 5 (min size 31)) } ∧
      ReadDone 0xFF#8 d s t ∧ Answered 0xFF#8 d s t)

/-- `RAM_BURST_WR` (41_protocol.md R174, R175): a size of 0 does nothing; another sends the first `min(size, 31)`
bytes, between a clearing and a setting of write protect when `AUTO_WP`. Of a reference peer it is said byte by byte
what stands in it afterwards: with `AUTO_WP` the memory bytes sent, if `WP_OFF` leaves bit 7 of address 7 clear, and
`WP_ON` at address 7. The final registers are log 20's, the fixture logs 5 and 17's. -/
def Obligations.MemoryBurstWriteClamps : Prop :=
  (∀ (p : Params) (r : HostReq), r.op = 0x17 →
    decodeHost p r = .ok (.ramBurstWr (r.size % 2 ^ p.sizeBits) r.data)) ∧
  ∀ (s : State) (size : Nat) (data : List Byte),
    (size = 0 → exec (.ramBurstWr size data) s = .next { s with resp := some { count := some 0 } }) ∧
    (0 < size → min size 31 ≤ data.length → s.idle →
      ∃ t, exec (.ramBurstWr size data) s = .next t ∧
        t.resp = some { count := some (BitVec.ofNat 5 (min size 31)) } ∧
        (s.params.autoWp = true →
          (∃ u v, WriteDone 0x8E#8 [s.params.wpOff] s u ∧
            WriteDone 0xFE#8 (data.take (min size 31)) u v ∧ WriteDone 0x8E#8 [s.params.wpOn] v t) ∧
          ∀ r, s.peer = .reference r → Mem.wf r.mem = true →
            t.peer.byteAt 7 = some s.params.wpOn ∧
            (∀ k, (h : k < data.length) → k < min size 31 → t.peer.byteAt (32 + k) =
              if s.params.wpOff.getLsbD 7 = false then some data[k] else s.peer.byteAt (32 + k)) ∧
            ∀ a, a ≠ 7 → (a < 32 ∨ 32 + min size 31 ≤ a) → t.peer.byteAt a = s.peer.byteAt a) ∧
        (s.params.autoWp = false → WriteDone 0xFE#8 (data.take (min size 31)) s t))

/-- `RAM_BURST_WR` with fewer data bytes than it is to send is refused by name: 60_exceptions.md R262 gives it no
meaning and says a model should refuse it (log 11). -/
def Obligations.ShortDataIsRefused : Prop :=
  ∀ (s : State) (size : Nat) (data : List Byte), data.length < min size 31 →
    exec (.ramBurstWr size data) s = .refused .shortData

/-- The wire command rows that write (30_encoding.md R92 to R94; 41_protocol.md R161): each is its transaction, and
no response is handed out (the model's choice, log 12). A start request for a write whose count no operation gives its
command byte (30_encoding.md R96) names no row and is refused, and so is the memory burst outside 1 to 31 bytes (the
model's stop, log 12). -/
def Obligations.WireCommandsWrite : Prop :=
  (∀ s q, AtStart s q → q.cmd.getLsbD 7 = true → q.cmd.getLsbD 0 = false → ¬ FitsCommand q →
    step s = .refused .badTransaction) ∧
  (∀ (s : State) (d : List Byte), d.length = 0 ∨ 31 < d.length →
    exec (.wireRamBurstWr d) s = .refused .badTransaction) ∧
  ∀ s : State, s.idle →
    (∀ k : Blk, ∃ t, exec (.wireClkBurstWr k) s = .next t ∧ t.resp = s.resp ∧
      WriteDone 0xBE#8 [k.seconds, k.minutes, k.hours, k.date, k.month, k.weekday, k.year, k.wp] s t) ∧
    (∀ d : List Byte, 1 ≤ d.length → d.length ≤ 31 → ∃ t, exec (.wireRamBurstWr d) s = .next t ∧
      t.resp = s.resp ∧ WriteDone 0xFE#8 d s t) ∧
    (∀ (a : BitVec 5) (b : Byte), ∃ t, exec (.wireClkWr a b) s = .next t ∧ t.resp = s.resp ∧
      WriteDone (BitVec.ofNat 8 (0x80 + 2 * a.toNat)) [b] s t) ∧
    (∀ (a : BitVec 5) (b : Byte), ∃ t, exec (.wireRamWr a b) s = .next t ∧ t.resp = s.resp ∧
      WriteDone (BitVec.ofNat 8 (0xC0 + 2 * a.toNat)) [b] s t)

/-- The wire command rows that read (30_encoding.md R92 to R94; 41_protocol.md R160): each is its transaction, the
bytes stand in the data buffer, and no response is handed out (the model's choice, log 12). A start request for a read
whose count no operation gives its command byte (30_encoding.md R96), or that carries data, names no row and is
refused, and so is the memory burst of 0 bytes (the model's stop, log 12). What is said of a reference peer's bytes is
the fixture's (logs 5 and 17). -/
def Obligations.WireCommandsRead : Prop :=
  (∀ s q, AtStart s q → q.cmd.getLsbD 7 = true → q.cmd.getLsbD 0 = true → ¬ FitsCommand q →
    step s = .refused .badTransaction) ∧
  (∀ s : State, exec (.wireRamBurstRd 0) s = .refused .badTransaction) ∧
  ∀ s : State, s.idle →
    (∃ t d, d.length = 8 ∧ exec .wireClkBurstRd s = .next t ∧ t.resp = s.resp ∧
      ReadDone 0xBF#8 d s t ∧ Answered 0xBF#8 d s t) ∧
    (∀ cnt : BitVec 5, cnt ≠ 0 → ∃ t d, d.length = cnt.toNat ∧ exec (.wireRamBurstRd cnt) s = .next t ∧
      t.resp = s.resp ∧ ReadDone 0xFF#8 d s t ∧ Answered 0xFF#8 d s t) ∧
    (∀ a : BitVec 5, ∃ t v, exec (.wireClkRd a) s = .next t ∧ t.resp = s.resp ∧
      ReadDone (BitVec.ofNat 8 (0x81 + 2 * a.toNat)) [v] s t ∧
      Answered (BitVec.ofNat 8 (0x81 + 2 * a.toNat)) [v] s t) ∧
    (∀ a : BitVec 5, ∃ t v, exec (.wireRamRd a) s = .next t ∧ t.resp = s.resp ∧
      ReadDone (BitVec.ofNat 8 (0xC1 + 2 * a.toNat)) [v] s t ∧
      Answered (BitVec.ofNat 8 (0xC1 + 2 * a.toNat)) [v] s t)

/-- A command byte below 0x80 is never sent, and the row that stands for one stops (30_encoding.md R97). -/
def Obligations.CommandsBelowEightyStop : Prop :=
  ∀ (c : BitVec 7) (s : State), exec (.wireNeverSent c) s = .refused .commandNeverSent

/-- Outside the idle invariant a wire operation that would emit an event, and a wire command row, is refused by name:
10_state.md R31 "defines no wire operation from any other pin state" (the model's choice of a stop, log 10). -/
def Obligations.WireOperationsNeedTheIdleInvariant : Prop :=
  ∀ s : State, ¬ s.idle →
    (∀ addr, exec (.regRd addr) s = .refused .pinsNotIdle) ∧
    (∀ addr b, exec (.regWr addr b) s = .refused .pinsNotIdle) ∧
    exec .clkBurstRd s = .refused .pinsNotIdle ∧
    (∀ k, exec (.clkBurstWr k) s = .refused .pinsNotIdle) ∧
    (∀ addr, addr.toNat ≤ 30 → exec (.ramRd addr) s = .refused .pinsNotIdle) ∧
    (∀ addr b, addr.toNat ≤ 30 → exec (.ramWr addr b) s = .refused .pinsNotIdle) ∧
    (∀ size, 0 < size → exec (.ramBurstRd size) s = .refused .pinsNotIdle) ∧
    (∀ flag, exec (.wpSet flag) s = .refused .pinsNotIdle) ∧
    exec .chipGetTime s = .refused .pinsNotIdle ∧
    (∀ tm flag, exec (.chipSetTime tm flag) s = .refused .pinsNotIdle) ∧
    (∀ size data, 0 < size → min size 31 ≤ data.length →
      exec (.ramBurstWr size data) s = .refused .pinsNotIdle) ∧
    (∀ k, exec (.wireClkBurstWr k) s = .refused .pinsNotIdle) ∧
    exec .wireClkBurstRd s = .refused .pinsNotIdle ∧
    (∀ d, 1 ≤ d.length → d.length ≤ 31 → exec (.wireRamBurstWr d) s = .refused .pinsNotIdle) ∧
    (∀ cnt, cnt ≠ 0 → exec (.wireRamBurstRd cnt) s = .refused .pinsNotIdle) ∧
    (∀ a b, exec (.wireClkWr a b) s = .refused .pinsNotIdle) ∧
    (∀ a, exec (.wireClkRd a) s = .refused .pinsNotIdle) ∧
    (∀ a b, exec (.wireRamWr a b) s = .refused .pinsNotIdle) ∧
    (∀ a, exec (.wireRamRd a) s = .refused .pinsNotIdle)

/-- The trace an instruction emits, but for the levels it samples, is a function of the instruction and the
parameters alone (41_protocol.md R183). -/
def Obligations.TraceDependsOnTheOperationAlone : Prop :=
  ∀ (i : Instr) (s₁ s₂ t₁ t₂ : State), s₁.params = s₂.params → exec i s₁ = .next t₁ → exec i s₂ = .next t₂ →
    ∃ e₁ e₂, t₁.trace = s₁.trace ++ e₁ ∧ t₂.trace = s₂.trace ++ e₂ ∧
      e₁.map PinEvent.unread = e₂.map PinEvent.unread

/-- The event counts of every wire operation (70_reset_and_hazards.md R321). -/
def Obligations.EventCounts : Prop :=
  (∀ s : State, s.idle →
    (∀ addr b, Emits (.regWr addr b) s 66 32 0) ∧
    (∀ addr b, addr.toNat ≤ 30 → Emits (.ramWr addr b) s 66 32 0) ∧
    (∀ flag, Emits (.wpSet flag) s 66 32 0) ∧
    (∀ addr, Emits (.regRd addr) s 68 32 8) ∧
    (∀ addr, addr.toNat ≤ 30 → Emits (.ramRd addr) s 68 32 8) ∧
    (∀ k, Emits (.clkBurstWr k) s 290 144 0) ∧
    (∀ tm flag, Emits (.chipSetTime tm flag) s 290 144 0) ∧
    Emits .clkBurstRd s 292 144 64 ∧ Emits .chipGetTime s 292 144 64 ∧
    (∀ size k, k = min size 31 → 1 ≤ k → Emits (.ramBurstRd size) s (36 + 32 * k) (16 + 16 * k) (8 * k)) ∧
    (∀ size k data, k = min size 31 → 1 ≤ k → k ≤ data.length → s.params.autoWp = true →
      Emits (.ramBurstWr size data) s (166 + 32 * k) (80 + 16 * k) 0) ∧
    (∀ size k data, k = min size 31 → 1 ≤ k → k ≤ data.length → s.params.autoWp = false →
      Emits (.ramBurstWr size data) s (34 + 32 * k) (16 + 16 * k) 0)) ∧
  (∀ s : State, Emits (.ramBurstRd 0) s 0 0 0 ∧ (∀ data, Emits (.ramBurstWr 0 data) s 0 0 0) ∧
    (∀ addr, 30 < addr.toNat → Emits (.ramRd addr) s 0 0 0 ∧ ∀ b, Emits (.ramWr addr b) s 0 0 0))

/-- With an unprotected reference peer, a register block written is the register block read back (20_memory.md
R85). -/
def Obligations.BlockLoopBack : Prop :=
  ∀ (s t : State) (r : RefPeer) (k : Blk), s.idle → s.peer = .reference r → Mem.wf r.mem = true →
    (Mem.read r.mem 7).getLsbD 7 = false →
    exec (.clkBurstWr k) s = .next t →
    ∃ u, exec .clkBurstRd t = .next u ∧ u.resp = some { blk := some k }

/-! ## Calendar -/

/-- `IS_LEAP` (42_calendar.md R191, R192), for every 16-bit year. -/
def Obligations.LeapYearRule : Prop :=
  (∀ (p : Params) (r : HostReq), r.op = 0x20 → decodeHost p r = .ok (.isLeap r.year)) ∧
  ∀ (year : BitVec 16) (s : State),
    exec (.isLeap year) s = .next { s with resp := some { leap := some (decide (Leap year.toInt)) } }

/-- The closed form is the sum over the years, before 2000 as after it (42_calendar.md R195, R197). -/
def Obligations.DaysClosedFormIsTheSum : Prop :=
  ∀ y : Int, let n := y - 2000
    yearDays y = 365 * n + (n + 3) / 4 - (n + 99) / 100 + (n + 399) / 400 ∧ yearDays y = daysSum y

/-- `DAYS_TO_EPOCH` (42_calendar.md R196): every result fits its 32 bits. -/
def Obligations.DaysToEpochIsTheSum : Prop :=
  (∀ (p : Params) (r : HostReq), r.op = 0x21 → decodeHost p r = .ok (.daysToEpoch r.year)) ∧
  ∀ (year : BitVec 16) (s : State), ∃ d, exec (.daysToEpoch year) s = .next { s with resp := some { days := some d } } ∧
    d.toInt = daysSum year.toInt

/-- `MK_GMTIME` (42_calendar.md R200, R202 to R204): the flag is set exactly when the wall-clock sum is no instant of
the width, and the result is the sum where it is one. -/
def Obligations.MkGmtimeSumsTheFields : Prop :=
  ∀ (tm : Tm) (s : State), ∃ t,
    exec (.mkGmtime tm) s =
      .next { s with resp := some { t := some t, range := !decide (InEpoch s.params (wallSum s.params tm)) } } ∧
    (InEpoch s.params (wallSum s.params tm) → (t : Int) = wallSum s.params tm)

/-- `GMTIME` gives the normalised record of every instant, at every width; of the year field nothing is said where the
year does not fit it (42_calendar.md R205, R206, R209; log 24). -/
def Obligations.GmtimeSplitsTheInstant : Prop :=
  ∀ (t : Nat) (s : State), ∃ tm, exec (.gmtime t) s = .next { s with resp := some { tm := some tm } } ∧
    IsSplit s.params 0 t tm

/-- `MKTIME` with `local = 0` (42_calendar.md R210, R212): the instant of the record and the record normalised. -/
def Obligations.MktimeUtcNormalises : Prop :=
  ∀ (tm : Tm) (s : State),
    let ok := InEpoch s.params (wallSum s.params tm)
    ∃ t tm',
    exec (.mktimeUtc tm) s = .next { s with resp := some { t := some t, tm := some tm', range := !decide ok } } ∧
    (ok → (t : Int) = wallSum s.params tm ∧ IsSplit s.params 0 t tm')

/-- `MKTIME` with `local = 1` (42_calendar.md R211, R212, R220, R221): the zone and the adjustment found at the not yet
adjusted instant are subtracted from the instant and not from the record. -/
def Obligations.MktimeLocalSubtractsZoneAndDst : Prop :=
  ∀ (tm : Tm) (s : State),
    let wall := wallSum s.params tm
    let utc := wall - s.zone
    let adj := dstAt s utc.toNat
    let ok := InEpoch s.params wall ∧ InEpoch s.params utc ∧ InEpoch s.params (utc - adj.2)
    ∃ t tm', exec (.mktimeLocal tm) s =
        .next { s with resp := some { t := some t, tm := some tm', range := !decide ok } } ∧
      (ok →
        (t : Int) = utc - adj.2 ∧ IsSplit s.params (if adj.1 then 1 else 0) wall.toNat tm')

/-- `LOCALTIME` (42_calendar.md R215, R220): the record of the instant with the zone and the adjustment found at the
instant itself added. -/
def Obligations.LocaltimeAddsZoneAndDst : Prop :=
  ∀ (t : Nat) (s : State),
    let adj := dstAt s t
    let loc := t + s.zone + adj.2
    ∃ tm, exec (.localtime t) s =
        .next { s with resp := some { tm := some tm, range := !decide (InEpoch s.params loc) } } ∧
      (InEpoch s.params loc → IsSplit s.params (if adj.1 then 1 else 0) loc.toNat tm)

/-- The UTC round trip (42_calendar.md R214): an instant to its record and back is the instant, by `MK_GMTIME`, by
`MKTIME` with `local = 0`, and with `ZONE` and `DST_EN` at 0 by `MKTIME` with `local = 1`, the record unchanged; and a
record in range through `MK_GMTIME` and `GMTIME` is its normalised form, which `MKTIME` with `local = 0` hands back.
The way back from a record needs the year to fit its field (log 24), which at the defaults is always so. -/
def Obligations.UtcRoundTrip : Prop :=
  ∀ s : State,
    (∀ t, t < 2 ^ s.params.epochBits → YearFits s.params t → ∃ tm,
      exec (.gmtime t) s = .next { s with resp := some { tm := some tm } } ∧
      exec (.mkGmtime tm) s = .next { s with resp := some { t := some t } } ∧
      exec (.mktimeUtc tm) s = .next { s with resp := some { t := some t, tm := some tm } } ∧
      (s.zone = 0 → s.dstEn = false →
        exec (.mktimeLocal tm) s = .next { s with resp := some { t := some t, tm := some tm } })) ∧
    (∀ tm t, exec (.mkGmtime tm) s = .next { s with resp := some { t := some t } } → ∃ tm', IsSplit s.params 0 t tm' ∧
      exec (.gmtime t) s = .next { s with resp := some { tm := some tm' } } ∧
      exec (.mktimeUtc tm) s = .next { s with resp := some { t := some t, tm := some tm' } })

/-- `MKTIME` with `local = 1` undoes `LOCALTIME` while no hook is registered and the local time is in range
(42_calendar.md R211, R215), where the local year fits its field (log 24). -/
def Obligations.LocalRoundTripWithoutDst : Prop :=
  ∀ (s : State) (t : Nat) (tm : Tm), s.dstEn = false → t < 2 ^ s.params.epochBits →
    YearFits s.params ((t : Int) + s.zone).toNat →
    exec (.localtime t) s = .next { s with resp := some { tm := some tm } } →
    exec (.mktimeLocal tm) s = .next { s with resp := some { t := some t, tm := some tm } }

/-- A conversion asks the hook once (42_calendar.md R221): `MKTIME` with `local = 1` is the same for two hooks that
agree at the not yet adjusted instant, and `LOCALTIME` for two that agree at the instant. -/
def Obligations.ConversionsAskTheHookOnce : Prop :=
  ∀ (h₁ h₂ : Nat → Bool × Int) (p : Params) (zone : Int) (en : Bool),
    (∀ tm, h₁ ((wallSum p tm - zone) % 2 ^ p.epochBits).toNat = h₂ ((wallSum p tm - zone) % 2 ^ p.epochBits).toNat →
      mkLocal h₁ p zone en tm = mkLocal h₂ p zone en tm) ∧
    (∀ t, h₁ t = h₂ t → toLocal h₁ p zone en t = toLocal h₂ p zone en t)

/-- `SET_ZONE`, `GET_ZONE` and `SET_DST` (42_calendar.md R216, R217, R219). -/
def Obligations.ZoneAndDstRegisters : Prop :=
  (∀ (p : Params) (r : HostReq), (r.op = 0x26 → decodeHost p r = .ok (.setZone (wrapSigned p.zoneBits r.zone))) ∧
    (r.op = 0x27 → decodeHost p r = .ok .getZone) ∧ (r.op = 0x28 → decodeHost p r = .ok (.setDst r.flag))) ∧
  ∀ s : State,
    (∀ zone, s.params.wf → inSigned s.params.zoneBits zone = true →
      exec (.setZone zone) s = .next { s with zone := zone, resp := some {} }) ∧
    exec .getZone s = .next { s with resp := some { zone := some s.zone } } ∧
    (∀ flag, exec (.setDst flag) s = .next { s with dstEn := flag, resp := some {} })

/-- `ISOTIME` (42_calendar.md R230 to R232): the 20 bytes of a record that fits the layout, and `bad_fmt` with no text
for one that does not. -/
def Obligations.IsotimePrintsOrRefuses : Prop :=
  (∀ (p : Params) (r : HostReq), r.op = 0x29 → decodeHost p r = .ok (.isotime r.tm)) ∧
  ∀ (tm : Tm) (s : State), s.params.hasIsotime = true →
    (Printable s.params tm →
      let y := s.params.yearBase + tm.year.toInt
      let two (v : Int) : List Byte := [digitAt v 10, digitAt v 1]
      exec (.isotime tm) s = .next { s with resp := some { text := some (
        [digitAt y 1000, digitAt y 100, digitAt y 10, digitAt y 1] ++ [0x2D#8] ++ two (tm.mon.toInt + 1) ++ [0x2D#8]
        ++ two tm.mday.toInt ++ [0x20#8] ++ two tm.hour.toInt ++ [0x3A#8] ++ two tm.min.toInt ++ [0x3A#8]
        ++ two tm.sec.toInt ++ [0x00#8]) } }) ∧
    (¬ Printable s.params tm → exec (.isotime tm) s = .next { s with resp := some { badFmt := true } })

/-- The pure operations depend on their operands alone, whatever the state of the block, and change nothing but the
response (70_reset_and_hazards.md R294). -/
def Obligations.PureOperationsDependOnOperandsAlone : Prop :=
  ∀ (i : Instr) (s₁ s₂ : State), pureOp i = true → s₁.params = s₂.params →
    ∃ r, exec i s₁ = .next { s₁ with resp := some r } ∧ exec i s₂ = .next { s₂ with resp := some r }

/-! ## Tick unit -/

/-- `TICK` (43_softclock.md R241 to R243). -/
def Obligations.TickAdvancesWholeSeconds : Prop :=
  (∀ (p : Params) (r : HostReq), r.op = 0x30 → decodeHost p r = .ok (.tick (r.ms % 2 ^ p.msBits))) ∧
  ∀ (ms : Nat) (s : State), s.params.hasTickUnit = true →
    let delta := ((ms : Int) - s.lastMs) % 2 ^ s.params.msBits
    let n := (delta / 1000).toNat
    (delta < 1000 → exec (.tick ms) s = .next { s with resp := some { advanced := some false } }) ∧
    (1000 ≤ delta → exec (.tick ms) s = .next { s with
      seconds := (s.seconds + n) % 2 ^ s.params.epochBits
      lastMs := (s.lastMs + 1000 * n) % 2 ^ s.params.msBits
      resp := some { advanced := some true } })

/-- The remainder below a second stays in the account (43_softclock.md R242): after a TICK the baseline lies
`delta mod 1000` before the reading. -/
def Obligations.TickKeepsTheRemainder : Prop :=
  ∀ (ms : Nat) (s t : State), s.params.hasTickUnit = true → exec (.tick ms) s = .next t →
    ((ms : Int) - t.lastMs) % 2 ^ t.params.msBits = ((ms : Int) - s.lastMs) % 2 ^ s.params.msBits % 1000

/-- No elapsed time is dropped (43_softclock.md R241, R242): two TICKs, the second reading no earlier than the first
since the baseline, leave the counter and the baseline one TICK with the second reading leaves. -/
def Obligations.TwoTicksCountAsOne : Prop :=
  ∀ (m₁ m₂ : Nat) (s t u v : State), s.params.hasTickUnit = true →
    ((m₁ : Int) - s.lastMs) % 2 ^ s.params.msBits ≤ ((m₂ : Int) - s.lastMs) % 2 ^ s.params.msBits →
    exec (.tick m₁) s = .next t → exec (.tick m₂) t = .next u → exec (.tick m₂) s = .next v →
    u.seconds = v.seconds ∧ u.lastMs = v.lastMs

/-- The document's own sequence (43_softclock.md R249): readings 0, 400, 1100, 2600 from reset, and 5300 from reset. -/
def Obligations.TickSequenceOfTheDocument : Prop :=
  ∃ t₁ t₂ t₃ t₄ u,
    exec (.tick 0) State.reset = .next t₁ ∧ t₁.seconds = 0 ∧ t₁.lastMs = 0 ∧
    exec (.tick 400) t₁ = .next t₂ ∧ t₂.seconds = 0 ∧ t₂.lastMs = 0 ∧
    exec (.tick 1100) t₂ = .next t₃ ∧ t₃.seconds = 1 ∧ t₃.lastMs = 1000 ∧
    exec (.tick 2600) t₃ = .next t₄ ∧ t₄.seconds = 2 ∧ t₄.lastMs = 2000 ∧
    exec (.tick 5300) State.reset = .next u ∧ u.seconds = 5 ∧ u.lastMs = 5000

/-- `GET_TIME` and `SET_TIME` (43_softclock.md R245, R246): the counter read and written, `LAST_MS` kept. -/
def Obligations.SecondsReadAndWritten : Prop :=
  (∀ (p : Params) (r : HostReq), (r.op = 0x31 → decodeHost p r = .ok .getTime) ∧
    (r.op = 0x32 → decodeHost p r = .ok (.setTime (r.t % 2 ^ p.epochBits)))) ∧
  ∀ s : State, s.params.hasTickUnit = true →
    exec .getTime s = .next { s with resp := some { t := some s.seconds } } ∧
    ∀ t, t < 2 ^ s.params.epochBits → exec (.setTime t) s = .next { s with seconds := t, resp := some {} }

/-- `GET_TIME_TM` (43_softclock.md R247): the record of the counter and the zone; the DST hook is not asked. -/
def Obligations.GetTimeTmAddsTheZone : Prop :=
  ∀ s : State, s.params.hasTickUnit = true →
    let loc : Int := s.seconds + s.zone
    ∃ tm, exec .getTimeTm s =
        .next { s with resp := some { tm := some tm, range := !decide (InEpoch s.params loc) } } ∧
      (InEpoch s.params loc → IsSplit s.params 0 loc.toNat tm)

/-- `SET_TIME_TM` (43_softclock.md R248): what `MKTIME` with `local = 1` answers, its instant into the counter, also
when `range` is set; `LAST_MS` kept. -/
def Obligations.SetTimeTmIsMktimeThenSetTime : Prop :=
  (∀ (p : Params) (r : HostReq), r.op = 0x34 → decodeHost p r = .ok (.setTimeTm r.tm)) ∧
  ∀ (tm : Tm) (s : State), s.params.hasTickUnit = true → ∃ t tm' range,
    exec (.mktimeLocal tm) s = .next { s with resp := some { t := some t, tm := some tm', range := range } } ∧
    exec (.setTimeTm tm) s = .next { s with seconds := t, resp := some { tm := some tm', range := range } }
end

