-- ==== Sys2Proof/Laws/Memory.lean ====
section
/-! SUPPORT. The bytes behind the wires: a read after a write, and that a write keeps the canonical form. -/

namespace Sys2Proof.Machine

/-- Every address listed in `m` lies above `k`. -/
def Mem.above (m : Mem) (k : Nat) : Prop := ∀ c ∈ m, k < c.1

theorem mem_wf_cons (k : Nat) (v : Byte) (m : Mem) :
    Mem.wf ((k, v) :: m) = true ↔ Mem.above m k ∧ v ≠ Mem.unlisted ∧ Mem.wf m = true := by
  simp only [Mem.wf, Mem.above, List.map_cons, List.pairwise_cons, List.all_cons, Bool.and_eq_true,
    decide_eq_true_eq, bne_iff_ne, List.mem_map, Prod.exists]
  constructor
  · rintro ⟨⟨h1, h2⟩, h3, h4⟩
    exact ⟨fun c hc => h1 c.1 ⟨c.1, c.2, hc, rfl⟩, h3, h2, h4⟩
  · rintro ⟨h1, h3, h2, h4⟩
    exact ⟨⟨fun a ⟨x, y, hxy, hx⟩ => hx ▸ h1 (x, y) hxy, h2⟩, h3, h4⟩

/-- An address not above the listed ones reads as unlisted. -/
theorem mem_read_of_above {m : Mem} {k a : Nat} (h : Mem.above m k) (ha : a ≤ k) : Mem.read m a = Mem.unlisted := by
  induction m with
  | nil => rfl
  | cons c m ih =>
    have h1 : k < c.1 := h c (by simp)
    have hne : a ≠ c.1 := by omega
    simpa [Mem.read, hne] using ih fun x hx => h x (by simp [hx])

theorem mem_above_remove {m : Mem} {k : Nat} (a : Nat) (h : Mem.above m k) : Mem.above (Mem.remove m a) k := by
  induction m with
  | nil => simpa [Mem.remove] using h
  | cons c m ih =>
    have hm : Mem.above m k := fun x hx => h x (by simp [hx])
    by_cases e : a = c.1
    · simpa [Mem.remove, e] using hm
    · intro x hx
      simp only [Mem.remove, e, if_false, List.mem_cons] at hx
      rcases hx with rfl | hx
      · exact h (c.1, c.2) (by simp)
      · exact ih hm x hx

theorem mem_above_insert {m : Mem} {k a : Nat} (v : Byte) (h : Mem.above m k) (ha : k < a) :
    Mem.above (Mem.insert m a v) k := by
  induction m with
  | nil => intro x hx; simp only [Mem.insert, List.mem_singleton] at hx; subst hx; exact ha
  | cons c m ih =>
    have hc : k < c.1 := h c (by simp)
    have hm : Mem.above m k := fun x hx => h x (by simp [hx])
    intro x hx
    simp only [Mem.insert] at hx
    split at hx
    · simp only [List.mem_cons] at hx
      rcases hx with rfl | rfl | hx
      · exact ha
      · exact hc
      · exact hm x hx
    · split at hx
      · simp only [List.mem_cons] at hx
        rcases hx with rfl | hx
        · exact ha
        · exact hm x hx
      · simp only [List.mem_cons] at hx
        rcases hx with rfl | hx
        · exact hc
        · exact ih hm x hx

theorem mem_remove_wf {m : Mem} (a : Nat) (h : Mem.wf m = true) : Mem.wf (Mem.remove m a) = true := by
  induction m with
  | nil => simpa [Mem.remove] using h
  | cons c m ih =>
    obtain ⟨h1, h2, h3⟩ := (mem_wf_cons c.1 c.2 m).1 h
    by_cases e : a = c.1
    · simpa [Mem.remove, e] using h3
    · simpa [Mem.remove, e] using (mem_wf_cons _ _ _).2 ⟨mem_above_remove a h1, h2, ih h3⟩

theorem mem_insert_wf {m : Mem} (a : Nat) {v : Byte} (hv : v ≠ Mem.unlisted) (h : Mem.wf m = true) :
    Mem.wf (Mem.insert m a v) = true := by
  induction m with
  | nil => exact (mem_wf_cons a v []).2 ⟨fun _ hc => by simp at hc, hv, h⟩
  | cons c m ih =>
    obtain ⟨h1, h2, h3⟩ := (mem_wf_cons c.1 c.2 m).1 h
    simp only [Mem.insert]
    split
    · rename_i hlt
      refine (mem_wf_cons _ _ _).2 ⟨?_, hv, h⟩
      intro x hx
      simp only [List.mem_cons] at hx
      rcases hx with rfl | hx
      · exact hlt
      · exact lt_trans hlt (h1 x hx)
    · split
      · rename_i e
        exact (mem_wf_cons _ _ _).2 ⟨e ▸ h1, hv, h3⟩
      · rename_i h4 h5
        exact (mem_wf_cons _ _ _).2 ⟨mem_above_insert v h1 (by omega), h2, ih h3⟩

/-- A write keeps the canonical form. -/
theorem mem_write_wf {m : Mem} (a : Nat) (v : Byte) (h : Mem.wf m = true) : Mem.wf (Mem.write m a v) = true := by
  unfold Mem.write
  split
  · exact mem_remove_wf a h
  · rename_i hv
    exact mem_insert_wf a hv h

theorem mem_read_remove {m : Mem} (a b : Nat) (h : Mem.wf m = true) :
    Mem.read (Mem.remove m a) b = if b = a then Mem.unlisted else Mem.read m b := by
  induction m with
  | nil => simp [Mem.remove, Mem.read]
  | cons c m ih =>
    obtain ⟨h1, _, h3⟩ := (mem_wf_cons c.1 c.2 m).1 h
    by_cases e : a = c.1
    · by_cases e2 : b = c.1
      · simpa [Mem.remove, e, e2] using mem_read_of_above h1 (le_refl c.1)
      · simp [Mem.remove, Mem.read, e, e2]
    · by_cases e2 : b = c.1
      · have e3 : ¬ c.1 = a := fun x => e x.symm
        simp [Mem.remove, Mem.read, e, e2, e3]
      · simp [Mem.remove, Mem.read, e, e2, ih h3]

theorem mem_read_insert {m : Mem} (a : Nat) (v : Byte) (b : Nat) :
    Mem.read (Mem.insert m a v) b = if b = a then v else Mem.read m b := by
  induction m with
  | nil => simp [Mem.insert, Mem.read]
  | cons c m ih =>
    simp only [Mem.insert]
    split
    · simp [Mem.read]
    · split
      · rename_i e
        by_cases e2 : b = a
        · simp [Mem.read, e2]
        · have e3 : ¬ b = c.1 := fun x => e2 (x.trans e.symm)
          simp [Mem.read, e2, e3]
      · rename_i e
        by_cases e2 : b = c.1
        · have e3 : ¬ c.1 = a := fun x => e x.symm
          simp [Mem.read, e2, e3]
        · simp [Mem.read, e2, ih]

/-- A read after a write: the byte written at its address, every other byte as before. -/
theorem mem_read_write {m : Mem} (a : Nat) (v : Byte) (b : Nat) (h : Mem.wf m = true) :
    Mem.read (Mem.write m a v) b = if b = a then v else Mem.read m b := by
  unfold Mem.write
  split
  · rename_i hv
    rw [mem_read_remove a b h, hv]
  · exact mem_read_insert a v b

/-- What a write lists lies at the addresses listed before and at its own. -/
theorem mem_all_write {m : Mem} (a : Nat) (v : Byte) (q : Nat → Bool) (ha : q a = true)
    (h : m.all (fun c => q c.1) = true) : (Mem.write m a v).all (fun c => q c.1) = true := by
  have hr : ∀ m : Mem, m.all (fun c => q c.1) = true → (Mem.remove m a).all (fun c => q c.1) = true := by
    intro m
    induction m with
    | nil => simp [Mem.remove]
    | cons c m ih =>
      intro h
      simp only [List.all_cons, Bool.and_eq_true] at h
      by_cases e : a = c.1
      · simpa [Mem.remove, e] using h.2
      · simpa [Mem.remove, e, h.1] using ih h.2
  have hi : ∀ m : Mem, m.all (fun c => q c.1) = true → (Mem.insert m a v).all (fun c => q c.1) = true := by
    intro m
    induction m with
    | nil => simp [Mem.insert, ha]
    | cons c m ih =>
      intro h
      simp only [List.all_cons, Bool.and_eq_true] at h
      simp only [Mem.insert]
      split
      · simp only [List.all_cons, Bool.and_eq_true]
        exact ⟨ha, h⟩
      · split
        · simp only [List.all_cons, Bool.and_eq_true]
          exact ⟨ha, h.2⟩
        · simp only [List.all_cons, Bool.and_eq_true]
          exact ⟨h.1, ih h.2⟩
  unfold Mem.write
  split
  · exact hr m h
  · exact hi m h

/-- The reference peer at its reset is in canonical form. -/
theorem mem_wf_nil : Mem.wf [] = true := by decide

end Sys2Proof.Machine
end

