-- ==== Sys2Proof/Laws/State.lean ====
section
/-! SUPPORT. One lemma per field per update of the state: `respond`, `refuseOp`, `emit`, `finish`, and the pins under
one event. Later proofs cite these and unfold no record update. -/

namespace Sys2Proof.Machine

variable (s : State) (r : Response) (es : List PinEvent) (c : Byte) (d : List Byte)

/-! ## respond -/

@[simp] theorem respond_resp : (s.respond r).resp = some r := rfl
@[simp] theorem respond_params : (s.respond r).params = s.params := rfl
@[simp] theorem respond_pins : (s.respond r).pins = s.pins := rfl
@[simp] theorem respond_seq : (s.respond r).seq = s.seq := rfl
@[simp] theorem respond_regs : (s.respond r).regs = s.regs := rfl
@[simp] theorem respond_zone : (s.respond r).zone = s.zone := rfl
@[simp] theorem respond_dstEn : (s.respond r).dstEn = s.dstEn := rfl
@[simp] theorem respond_seconds : (s.respond r).seconds = s.seconds := rfl
@[simp] theorem respond_lastMs : (s.respond r).lastMs = s.lastMs := rfl
@[simp] theorem respond_rst : (s.respond r).rst = s.rst := rfl
@[simp] theorem respond_reqs : (s.respond r).reqs = s.reqs := rfl
@[simp] theorem respond_ticks : (s.respond r).ticks = s.ticks := rfl
@[simp] theorem respond_txn : (s.respond r).txn = s.txn := rfl
@[simp] theorem respond_tickResp : (s.respond r).tickResp = s.tickResp := rfl
@[simp] theorem respond_trace : (s.respond r).trace = s.trace := rfl
@[simp] theorem respond_peer : (s.respond r).peer = s.peer := rfl
@[simp] theorem respond_asked : (s.respond r).asked = s.asked := rfl
@[simp] theorem respond_turn : (s.respond r).turn = s.turn := rfl

/-! ## emit -/

@[simp] theorem emit_pins : (s.emit es).pins = s.pins.run es := rfl
@[simp] theorem emit_peer : (s.emit es).peer = s.peer.watch s.pins es := rfl
@[simp] theorem emit_trace : (s.emit es).trace = s.trace ++ es := rfl
@[simp] theorem emit_params : (s.emit es).params = s.params := rfl
@[simp] theorem emit_seq : (s.emit es).seq = s.seq := rfl
@[simp] theorem emit_regs : (s.emit es).regs = s.regs := rfl
@[simp] theorem emit_zone : (s.emit es).zone = s.zone := rfl
@[simp] theorem emit_dstEn : (s.emit es).dstEn = s.dstEn := rfl
@[simp] theorem emit_seconds : (s.emit es).seconds = s.seconds := rfl
@[simp] theorem emit_lastMs : (s.emit es).lastMs = s.lastMs := rfl
@[simp] theorem emit_rst : (s.emit es).rst = s.rst := rfl
@[simp] theorem emit_reqs : (s.emit es).reqs = s.reqs := rfl
@[simp] theorem emit_ticks : (s.emit es).ticks = s.ticks := rfl
@[simp] theorem emit_txn : (s.emit es).txn = s.txn := rfl
@[simp] theorem emit_resp : (s.emit es).resp = s.resp := rfl
@[simp] theorem emit_tickResp : (s.emit es).tickResp = s.tickResp := rfl
@[simp] theorem emit_asked : (s.emit es).asked = s.asked := rfl
@[simp] theorem emit_turn : (s.emit es).turn = s.turn := rfl

/-! ## finish -/

@[simp] theorem finish_seq : (s.finish c d).seq = Seq.atIdle := rfl
@[simp] theorem finish_cmdb : (s.finish c d).regs.cmdb = c := rfl
@[simp] theorem finish_rw : (s.finish c d).regs.rw = c.getLsbD 0 := rfl
@[simp] theorem finish_cnt : (s.finish c d).regs.cnt = BitVec.ofNat 5 d.length := rfl
@[simp] theorem finish_sh : (s.finish c d).regs.sh = d.getLastD 0 := rfl
@[simp] theorem finish_db : (s.finish c d).regs.db = loadDb s.regs.db d := rfl
@[simp] theorem finish_pins : (s.finish c d).pins = s.pins := rfl
@[simp] theorem finish_peer : (s.finish c d).peer = s.peer := rfl
@[simp] theorem finish_trace : (s.finish c d).trace = s.trace := rfl
@[simp] theorem finish_params : (s.finish c d).params = s.params := rfl
@[simp] theorem finish_zone : (s.finish c d).zone = s.zone := rfl
@[simp] theorem finish_dstEn : (s.finish c d).dstEn = s.dstEn := rfl
@[simp] theorem finish_seconds : (s.finish c d).seconds = s.seconds := rfl
@[simp] theorem finish_lastMs : (s.finish c d).lastMs = s.lastMs := rfl
@[simp] theorem finish_rst : (s.finish c d).rst = s.rst := rfl
@[simp] theorem finish_reqs : (s.finish c d).reqs = s.reqs := rfl
@[simp] theorem finish_ticks : (s.finish c d).ticks = s.ticks := rfl
@[simp] theorem finish_txn : (s.finish c d).txn = s.txn := rfl
@[simp] theorem finish_resp : (s.finish c d).resp = s.resp := rfl
@[simp] theorem finish_tickResp : (s.finish c d).tickResp = s.tickResp := rfl
@[simp] theorem finish_asked : (s.finish c d).asked = s.asked := rfl
@[simp] theorem finish_turn : (s.finish c d).turn = s.turn := rfl

/-! ## Pins under one event -/

variable (p : Pins) (l : Level)

@[simp] theorem after_writeCs : p.after (.writeCs l) = { p with cs := l } := rfl
@[simp] theorem after_writeDat : p.after (.writeDat l) = { p with latch := l } := rfl
@[simp] theorem after_toggleClk : p.after .toggleClk = { p with clk := !p.clk } := rfl
@[simp] theorem after_writeClk : p.after (.writeClk l) = { p with clk := l } := rfl
@[simp] theorem after_setInDat : p.after .setInDat = { p with dir := .inp } := rfl
@[simp] theorem after_setOutDat : p.after .setOutDat = { p with dir := .out } := rfl
@[simp] theorem after_readDat : p.after (.readDat l) = p := rfl
@[simp] theorem after_settle : p.after .settle = p := rfl
@[simp] theorem after_setOutCs : p.after .setOutCs = p := rfl
@[simp] theorem after_setOutClk : p.after .setOutClk = p := rfl

@[simp] theorem seq_atIdle_ph : Seq.atIdle.ph = .idle := rfl

end Sys2Proof.Machine
end

