-- ==== Sys2Proof/Laws/Ops.lean ====
section
/-! SUPPORT. What each shared operation can do, said once: runs of events, the byte transfers, the two transactions,
the register-wide reads. -/

namespace Sys2Proof.Machine

/-! ## Runs of events -/

@[simp] theorem run_nil (p : Pins) : p.run [] = p := rfl

@[simp] theorem run_cons (p : Pins) (e : PinEvent) (es : List PinEvent) : p.run (e :: es) = (p.after e).run es := rfl

theorem run_append (p : Pins) (es fs : List PinEvent) : p.run (es ++ fs) = (p.run es).run fs := by
  simp [Pins.run, List.foldl_append]

@[simp] theorem watch_nil (q : Peer) (p : Pins) : q.watch p [] = q := rfl

@[simp] theorem watch_cons (q : Peer) (p : Pins) (e : PinEvent) (es : List PinEvent) :
    q.watch p (e :: es) = (q.observe p e).watch (p.after e) es := rfl

theorem watch_append (q : Peer) (p : Pins) (es fs : List PinEvent) :
    q.watch p (es ++ fs) = (q.watch p es).watch (p.run es) fs := by
  induction es generalizing q p with
  | nil => rfl
  | cons e es ih => simp [ih]

/-- Emitting two runs one after the other is emitting them as one. -/
theorem emit_append (s : State) (es fs : List PinEvent) : (s.emit es).emit fs = s.emit (es ++ fs) := by
  simp [State.emit, run_append, watch_append, List.append_assoc]

/-! ## Bytes on the wire -/

theorem byteWr_eq_trace (v : Byte) : byteWr v = traceByteWr v := by
  simp [byteWr, bitWr, traceByteWr, List.range, List.range.loop]

theorem bytesWr_eq_trace (d : List Byte) : bytesWr d = d.flatMap traceByteWr := by
  have h : byteWr = traceByteWr := funext byteWr_eq_trace
  simp [bytesWr, h]

/-- Sending a byte leaves its bit 7 in the latch and the rest of the pins as they were (41_protocol.md R142, R143). -/
theorem run_byteWr (p : Pins) (v : Byte) : p.run (byteWr v) = { p with latch := v.getLsbD 7 } := by
  simp [byteWr, bitWr, Pins.run]

/-- Sending bytes leaves bit 7 of the last in the latch. -/
theorem run_bytesWr (p : Pins) (d : List Byte) :
    p.run (bytesWr d) = { p with latch := (d.getLast?.map fun v => v.getLsbD 7).getD p.latch } := by
  induction d generalizing p with
  | nil => rfl
  | cons v d ih =>
    have h : bytesWr (v :: d) = byteWr v ++ bytesWr d := by simp [bytesWr]
    rw [h, run_append, run_byteWr, ih]
    cases d with
    | nil => simp
    | cons w d => simp [List.getLast?_cons]

/-- A sample: the level, the event, the count. -/
theorem sample_spec (s : State) : ∃ l, s.sample = (l, { s.emit [.readDat l] with asked := s.asked + 1 }) :=
  ⟨s.level, rfl⟩

/-- A bit read: the sample and the clock cycle (41_protocol.md R144). -/
theorem bitRd_spec (s : State) :
    s.bitRd = (s.level, { s.emit [.readDat s.level, .toggleClk, .settle, .toggleClk] with asked := s.asked + 1 }) := by
  simp [State.bitRd, State.sample, State.emit, Pins.run]

/-- `n` bits read: the levels found, their events in order, the count; nothing else is touched. -/
theorem bitsRd_spec (n : Nat) (s : State) :
    (State.bitsRd n s).1.length = n ∧
    (State.bitsRd n s).2 =
      { s.emit ((State.bitsRd n s).1.flatMap fun l => [.readDat l, .toggleClk, .settle, .toggleClk]) with
        asked := s.asked + n } := by
  induction n generalizing s with
  | zero => simp [State.bitsRd, State.emit]
  | succ n ih =>
    have hb := bitRd_spec s
    set l := s.level with hl
    set s1 : State := { s.emit [.readDat l, .toggleClk, .settle, .toggleClk] with asked := s.asked + 1 } with hs1
    obtain ⟨h1, h2⟩ := ih s1
    have h3 : State.bitsRd (n + 1) s = (l :: (State.bitsRd n s1).1, (State.bitsRd n s1).2) := by
      simp only [State.bitsRd, hb]
    rw [h3]
    refine ⟨by simp [h1], ?_⟩
    simp only [h2, List.flatMap_cons, ← emit_append]
    simp [hs1, State.emit, Nat.add_assoc, Nat.add_comm 1]

/-- Eight levels and the byte they make: bit `i` is level `i` (41_protocol.md R145). -/
theorem byteOfLevels_bits (ls : List Level) (h : ls.length = 8) (i : Nat) (hi : i < 8) :
    (byteOfLevels ls).getLsbD i = ls[i]'(by omega) := by
  match ls, h with
  | [a, b, c, d, e, f, g, k], _ =>
    revert i
    revert a b c d e f g k
    decide

/-- The levels of a byte read are the bits of the byte. -/
theorem levels_of_byte (ls : List Level) (h : ls.length = 8) :
    (ls.flatMap fun l => [PinEvent.readDat l, .toggleClk, .settle, .toggleClk]) = traceByteRd (byteOfLevels ls) := by
  have hb := byteOfLevels_bits ls h
  match ls, h with
  | [a, b, c, d, e, f, g, k], _ =>
    simp only [traceByteRd, List.range, List.range.loop, List.flatMap_cons, List.flatMap_nil]
    rw [hb 0 (by decide), hb 1 (by decide), hb 2 (by decide), hb 3 (by decide), hb 4 (by decide), hb 5 (by decide),
      hb 6 (by decide), hb 7 (by decide)]
    rfl

/-- A byte read (41_protocol.md R145): its events, eight samples, nothing else touched. -/
theorem byteRd_spec (s : State) :
    s.byteRd.2 = { s.emit (traceByteRd s.byteRd.1) with asked := s.asked + 8 } := by
  obtain ⟨h1, h2⟩ := bitsRd_spec 8 s
  have h3 := levels_of_byte _ h1
  have h4 : s.byteRd = (byteOfLevels (State.bitsRd 8 s).1, (State.bitsRd 8 s).2) := rfl
  rw [h4, h2, h3]

/-- `k` bytes read (41_protocol.md R156): as many bytes, their events in order, eight samples each, nothing else
touched. -/
theorem bytesRd_spec (k : Nat) (s : State) :
    (State.bytesRd k s).1.length = k ∧
    (State.bytesRd k s).2 =
      { s.emit ((State.bytesRd k s).1.flatMap traceByteRd) with asked := s.asked + 8 * k } := by
  induction k generalizing s with
  | zero => simp [State.bytesRd, State.emit]
  | succ k ih =>
    have hb := byteRd_spec s
    obtain ⟨h1, h2⟩ := ih s.byteRd.2
    have h3 : State.bytesRd (k + 1) s = (s.byteRd.1 :: (State.bytesRd k s.byteRd.2).1, (State.bytesRd k s.byteRd.2).2) :=
      rfl
    rw [h3]
    refine ⟨by simp [h1], ?_⟩
    simp only [h2, List.flatMap_cons, ← emit_append]
    rw [hb]
    simp [State.emit, Nat.mul_add, Nat.add_assoc, Nat.add_comm 8]

/-- Reading a byte leaves the pins as they were. -/
theorem run_traceByteRd (p : Pins) (v : Byte) : p.run (traceByteRd v) = p := by
  simp [traceByteRd, List.range, List.range.loop, Pins.run]

theorem run_tracesByteRd (p : Pins) (d : List Byte) : p.run (d.flatMap traceByteRd) = p := by
  induction d with
  | nil => rfl
  | cons v d ih => simp [run_append, run_traceByteRd, ih]

/-! ## Transactions -/

/-- A write transaction: the events of 41_protocol.md R161, then the registers as it leaves them. -/
theorem wrTxn_spec (c : Byte) (d : List Byte) (s : State) :
    wrTxn c d s = (s.emit (wrTrace c d)).finish c d := by
  simp [wrTxn, wrTrace, byteWr_eq_trace, bytesWr_eq_trace]

/-- A read transaction: `k` bytes, the events of 41_protocol.md R160 with those bytes, `8 * k` samples, then the
registers as it leaves them. -/
theorem rdTxn_spec (c : Byte) (k : Nat) (s : State) :
    (rdTxn c k s).1.length = k ∧
    (rdTxn c k s).2 =
      State.finish { s.emit (rdTrace c (rdTxn c k s).1) with asked := s.asked + 8 * k } c (rdTxn c k s).1 := by
  set s1 := s.emit (.writeCs true :: (byteWr c ++ [.setInDat])) with hs1
  obtain ⟨h1, h2⟩ := bytesRd_spec k s1
  have h3 : rdTxn c k s = ((State.bytesRd k s1).1,
      ((State.bytesRd k s1).2.emit [.writeCs false, .setOutDat]).finish c (State.bytesRd k s1).1) := rfl
  rw [h3]
  refine ⟨h1, ?_⟩
  have h4 : rdTrace c (State.bytesRd k s1).1 =
      ((.writeCs true :: (byteWr c ++ [.setInDat])) ++ (State.bytesRd k s1).1.flatMap traceByteRd) ++
        [.writeCs false, .setOutDat] := by
    simp [rdTrace, byteWr_eq_trace]
  simp only
  rw [h4, ← emit_append, ← emit_append, ← hs1, h2]
  simp [State.emit, State.finish, hs1]

/-- The pins after a write transaction from idle pins (41_protocol.md R159). -/
theorem wrTxn_pins (c : Byte) (d : List Byte) (s : State) (h : s.pins.idle) (hd : d ≠ []) :
    (wrTxn c d s).pins = ⟨false, false, .out, (d.getLastD 0).getLsbD 7⟩ := by
  obtain ⟨h1, h2, h3⟩ := h
  obtain ⟨v, hv⟩ : ∃ v, d.getLast? = some v := ⟨_, List.getLast?_eq_some_getLast hd⟩
  have hv' : d.getLastD 0 = v := by rw [List.getLastD_eq_getLast?, hv]; rfl
  simp only [wrTxn, finish_pins, emit_pins, run_cons, run_append, run_byteWr, run_bytesWr, hv, hv']
  simp [h2, h3]

/-- The pins after a read transaction from idle pins (41_protocol.md R159). -/
theorem rdTxn_pins (c : Byte) (k : Nat) (s : State) (h : s.pins.idle) :
    (rdTxn c k s).2.pins = ⟨false, false, .out, c.getLsbD 7⟩ := by
  obtain ⟨h1, h2, h3⟩ := h
  rw [(rdTxn_spec c k s).2]
  have hp : ∀ p : Pins, p.run (traceByteWr c) = { p with latch := c.getLsbD 7 } := fun p => by
    rw [← byteWr_eq_trace, run_byteWr]
  simp only [finish_pins, rdTrace, emit_pins, run_append, run_cons, run_nil, hp, run_tracesByteRd]
  simp [h2]

/-- A wire operation either ran from the idle invariant or was refused. -/
theorem onWire_next {s t : State} {f : State → State} (h : onWire s f = .next t) : s.idle ∧ t = f s := by
  unfold onWire at h
  split at h
  · rename_i hi
    exact ⟨hi, by simpa using h.symm⟩
  · cases h

theorem onWire_of_idle {s : State} (f : State → State) (h : s.idle) : onWire s f = .next (f s) := if_pos h

/-! ## The peer's bytes -/

/-- An event of the block changes the bytes behind the wires only where a rising clock edge completes a data byte
of a write, and then by one write to a place with storage. -/
theorem observe_mem (r : RefPeer) (p : Pins) (e : PinEvent) :
    (r.observe p e).mem = r.mem ∨
      ∃ a v, Mem.exists a = true ∧ (r.observe p e).mem = Mem.write r.mem a v := by
  have hs : ∀ q : RefPeer, ∀ k v, q.store k v = q.mem ∨
      ∃ a, Mem.exists a = true ∧ q.store k v = Mem.write q.mem a v := by
    intro q k v
    unfold RefPeer.store
    split
    · rename_i a ha
      split
      · refine .inr ⟨a, ?_, rfl⟩
        unfold RefPeer.target at ha
        split at ha
        · split at ha
          · cases ha; simp [Mem.exists]; omega
          · cases ha
        · split at ha
          · split at ha
            · cases ha; simp [Mem.exists]; omega
            · cases ha
          · split at ha
            · rename_i h
              cases ha
              exact h.2
            · cases ha
      · exact .inl rfl
    · exact .inl rfl
  cases e with
  | writeCs l => cases l <;> exact .inl rfl
  | toggleClk =>
    simp only [RefPeer.observe]
    split
    · unfold RefPeer.shiftIn
      simp only
      split
      · exact .inl rfl
      · split
        · exact .inl rfl
        · split
          · rcases hs r ((r.nbits + 1) / 8 - 2) (setBit r.sh (r.nbits % 8) p.latch) with h | ⟨a, ha, h⟩
            · exact .inl h
            · exact .inr ⟨a, _, ha, h⟩
          · exact .inl rfl
    · exact .inl rfl
  | _ => exact .inl rfl

/-- Every event keeps the peer's bytes in canonical form. -/
theorem observe_wf (q : Peer) (p : Pins) (e : PinEvent) (h : q.wf = true) : (q.observe p e).wf = true := by
  cases q with
  | oracle ls => cases e <;> rfl
  | loopWire => rfl
  | reference r =>
    simp only [Peer.wf, Bool.and_eq_true] at h
    simp only [Peer.observe, Peer.wf, Bool.and_eq_true]
    rcases observe_mem r p e with hm | ⟨a, v, ha, hm⟩
    · rw [hm]; exact h
    · rw [hm]; exact ⟨mem_write_wf a v h.1, mem_all_write a v Mem.exists ha h.2⟩

theorem watch_wf (q : Peer) (p : Pins) (es : List PinEvent) (h : q.wf = true) : (q.watch p es).wf = true := by
  induction es generalizing q p with
  | nil => exact h
  | cons e es ih => exact ih _ _ (observe_wf q p e h)

/-! ## Numbers -/

/-- The flag of `fit` is set exactly outside the epoch width (42_calendar.md R202, R203). -/
theorem fit_range (p : Params) (x : Int) : (fit p x).2 = !decide (InEpoch p x) := by
  simp [fit, InEpoch]

/-- Inside the epoch width `fit` delivers the number itself. -/
theorem fit_value (p : Params) (x : Int) (h : InEpoch p x) : ((fit p x).1 : Int) = x := by
  have h2 : x % 2 ^ p.epochBits = x := Int.emod_eq_of_lt h.1 h.2
  simp [fit, h2, h.1]

/-- What `fit` delivers is of the epoch width. -/
theorem fit_lt (p : Params) (x : Int) : (fit p x).1 < 2 ^ p.epochBits := by
  have hp : (0 : Int) < 2 ^ p.epochBits := by positivity
  have h1 := Int.emod_nonneg x (ne_of_gt hp)
  have h2 := Int.emod_lt_of_pos x hp
  have h3 : (((fit p x).1 : Nat) : Int) < 2 ^ p.epochBits := by simpa [fit, h1] using h2
  exact_mod_cast h3

/-- A signed read of any number is of the width (30_encoding.md R102). -/
theorem wrapSigned_inSigned (bits : Nat) (v : Int) : inSigned bits (wrapSigned bits v) = true := by
  have hp : (0 : Int) < 2 ^ bits := by positivity
  have hq : (0 : Int) < 2 ^ (bits - 1) := by positivity
  have h1 := Int.emod_nonneg v (ne_of_gt hp)
  have h2 := Int.emod_lt_of_pos v hp
  have h3 : (2 : Int) ^ bits ≤ 2 * 2 ^ (bits - 1) := by
    cases bits with
    | zero => simp
    | succ n => simp [pow_succ, mul_comm]
  have key : -(2 : Int) ^ (bits - 1) ≤ wrapSigned bits v ∧ wrapSigned bits v < (2 : Int) ^ (bits - 1) := by
    simp only [wrapSigned]
    split <;> constructor <;> omega
  simpa [inSigned] using key

/-- A signed number of the width reads as itself. -/
theorem wrapSigned_of_inSigned (bits : Nat) (v : Int) (hb : 0 < bits) (h : inSigned bits v = true) :
    wrapSigned bits v = v := by
  obtain ⟨n, rfl⟩ : ∃ n, bits = n + 1 := ⟨bits - 1, by omega⟩
  simp only [inSigned, Bool.and_eq_true, decide_eq_true_eq, Nat.add_sub_cancel] at h
  have hp : (2 : Int) ^ (n + 1) = 2 * 2 ^ n := by rw [pow_succ, mul_comm]
  have hq : (0 : Int) < 2 ^ n := by positivity
  simp only [wrapSigned, Nat.add_sub_cancel, hp]
  by_cases h0 : 0 ≤ v
  · rw [Int.emod_eq_of_lt h0 (by omega)]
    simp [h.2]
  · have h5 : v % (2 * 2 ^ n) = v + 2 * 2 ^ n := by
      rw [← Int.add_emod_right, Int.emod_eq_of_lt (by omega) (by omega)]
    rw [h5]
    split <;> omega

/-- The year field holds a number that fits it. -/
theorem yearField_toInt (v : Int) (hl : -32768 ≤ v) (hh : v ≤ 32767) : (yearField v).toInt = v := by
  have h : inSigned 16 v = true := by simp [inSigned]; omega
  rw [yearField, if_pos h, BitVec.toInt_ofInt]
  exact Int.bmod_eq_of_le (by omega) (by omega)

/-- A loop-back wire stays one. -/
@[simp] theorem watch_loopWire (p : Pins) (es : List PinEvent) : Peer.loopWire.watch p es = .loopWire := by
  induction es generalizing p with
  | nil => rfl
  | cons e es ih => simp [Peer.observe, ih]

end Sys2Proof.Machine
end

