-- ==== Sys2Proof/Laws/PerInstr.lean ====
section
/-! SUPPORT. The family of statements made instruction by instruction: what `encode` writes for a well-formed
instruction fits the ports it is presented at (10_state.md R22; 30_encoding.md R102; 41_protocol.md R151). -/

namespace Sys2Proof.Laws

/-- The request fits its port. On the host port the parameter-width fields are within their widths
(10_state.md R22) and the operation code is assigned (30_encoding.md R101); at the sequencer the count and the data
agree with the direction bit of the command byte (30_encoding.md R90, R96). -/
def EncodeInRange.Fits (p : Params) : Request → Prop
  | .host r => assignedOp r.op = true ∧ r.size < 2 ^ p.sizeBits ∧ r.t < 2 ^ p.epochBits ∧
      r.zone < 2 ^ p.zoneBits ∧ r.ms < 2 ^ p.msBits
  | .wire r => r.cnt ≠ 0 ∧
      (r.cmd.getLsbD 7 = true → r.data.length = if r.cmd.getLsbD 0 then 0 else r.cnt.toNat)

/-- The encoding of a well-formed instruction fits its port. -/
def EncodeInRange.Statement (i : Instr) : Prop :=
  ∀ p : Params, i.wf p = true → EncodeInRange.Fits p (encode p i)

/-- A request with no parameter-width field fits when its code is assigned. -/
theorem EncodeInRange.fits_host (p : Params) (r : HostReq) (ho : assignedOp r.op = true) (hs : r.size = 0)
    (ht : r.t = 0) (hz : r.zone = 0) (hm : r.ms = 0) : EncodeInRange.Fits p (.host r) := by
  refine ⟨ho, ?_, ?_, ?_, ?_⟩ <;> simp [*]

/-- A raw signed field is within its width. -/
theorem EncodeInRange.rawSigned_lt (bits : Nat) (z : Int) : rawSigned bits z < 2 ^ bits := by
  have hpos : (0 : Int) < 2 ^ bits := by positivity
  have h0 := Int.emod_nonneg z (ne_of_gt hpos)
  have h1 := Int.emod_lt_of_pos z hpos
  simp only [rawSigned]
  zify
  rw [Int.toNat_of_nonneg h0]
  exact_mod_cast h1

theorem EncodeInRange.toBcd (n : Byte) : EncodeInRange.Statement (.toBcd n) := fun p _ =>
  EncodeInRange.fits_host p _ rfl rfl rfl rfl rfl

theorem EncodeInRange.fromBcd (b : Byte) : EncodeInRange.Statement (.fromBcd b) := fun p _ =>
  EncodeInRange.fits_host p _ rfl rfl rfl rfl rfl

theorem EncodeInRange.blkPack (tm : Tm) (flag : Bool) : EncodeInRange.Statement (.blkPack tm flag) := fun p _ =>
  EncodeInRange.fits_host p _ rfl rfl rfl rfl rfl

theorem EncodeInRange.blkUnpack (blk : Blk) : EncodeInRange.Statement (.blkUnpack blk) := fun p _ =>
  EncodeInRange.fits_host p _ rfl rfl rfl rfl rfl

theorem EncodeInRange.regRd (addr : Byte) : EncodeInRange.Statement (.regRd addr) := fun p _ =>
  EncodeInRange.fits_host p _ rfl rfl rfl rfl rfl

theorem EncodeInRange.regWr (addr b : Byte) : EncodeInRange.Statement (.regWr addr b) := fun p _ =>
  EncodeInRange.fits_host p _ rfl rfl rfl rfl rfl

theorem EncodeInRange.clkBurstRd : EncodeInRange.Statement .clkBurstRd := fun p _ =>
  EncodeInRange.fits_host p _ rfl rfl rfl rfl rfl

theorem EncodeInRange.clkBurstWr (blk : Blk) : EncodeInRange.Statement (.clkBurstWr blk) := fun p _ =>
  EncodeInRange.fits_host p _ rfl rfl rfl rfl rfl

theorem EncodeInRange.ramRd (addr : Byte) : EncodeInRange.Statement (.ramRd addr) := fun p _ =>
  EncodeInRange.fits_host p _ rfl rfl rfl rfl rfl

theorem EncodeInRange.ramWr (addr b : Byte) : EncodeInRange.Statement (.ramWr addr b) := fun p _ =>
  EncodeInRange.fits_host p _ rfl rfl rfl rfl rfl

theorem EncodeInRange.ramBurstRd (size : Nat) : EncodeInRange.Statement (.ramBurstRd size) := fun p h => by
  simp only [Instr.wf, decide_eq_true_eq] at h
  exact ⟨rfl, h, Nat.two_pow_pos _, Nat.two_pow_pos _, Nat.two_pow_pos _⟩

theorem EncodeInRange.ramBurstWr (size : Nat) (data : List Byte) : EncodeInRange.Statement (.ramBurstWr size data) := fun p h => by
  simp only [Instr.wf, Bool.and_eq_true, decide_eq_true_eq] at h
  exact ⟨rfl, h.1, Nat.two_pow_pos _, Nat.two_pow_pos _, Nat.two_pow_pos _⟩

theorem EncodeInRange.wpSet (flag : Bool) : EncodeInRange.Statement (.wpSet flag) := fun p _ =>
  EncodeInRange.fits_host p _ rfl rfl rfl rfl rfl

theorem EncodeInRange.chipGetTime : EncodeInRange.Statement .chipGetTime := fun p _ =>
  EncodeInRange.fits_host p _ rfl rfl rfl rfl rfl

theorem EncodeInRange.chipSetTime (tm : Tm) (flag : Bool) : EncodeInRange.Statement (.chipSetTime tm flag) := fun p _ =>
  EncodeInRange.fits_host p _ rfl rfl rfl rfl rfl

theorem EncodeInRange.isLeap (year : BitVec 16) : EncodeInRange.Statement (.isLeap year) := fun p _ =>
  EncodeInRange.fits_host p _ rfl rfl rfl rfl rfl

theorem EncodeInRange.daysToEpoch (year : BitVec 16) : EncodeInRange.Statement (.daysToEpoch year) := fun p _ =>
  EncodeInRange.fits_host p _ rfl rfl rfl rfl rfl

theorem EncodeInRange.mkGmtime (tm : Tm) : EncodeInRange.Statement (.mkGmtime tm) := fun p _ =>
  EncodeInRange.fits_host p _ rfl rfl rfl rfl rfl

theorem EncodeInRange.mktimeUtc (tm : Tm) : EncodeInRange.Statement (.mktimeUtc tm) := fun p _ =>
  EncodeInRange.fits_host p _ rfl rfl rfl rfl rfl

theorem EncodeInRange.mktimeLocal (tm : Tm) : EncodeInRange.Statement (.mktimeLocal tm) := fun p _ =>
  EncodeInRange.fits_host p _ rfl rfl rfl rfl rfl

theorem EncodeInRange.gmtime (t : Nat) : EncodeInRange.Statement (.gmtime t) := fun p h => by
  simp only [Instr.wf, decide_eq_true_eq] at h
  exact ⟨rfl, Nat.two_pow_pos _, h, Nat.two_pow_pos _, Nat.two_pow_pos _⟩

theorem EncodeInRange.localtime (t : Nat) : EncodeInRange.Statement (.localtime t) := fun p h => by
  simp only [Instr.wf, decide_eq_true_eq] at h
  exact ⟨rfl, Nat.two_pow_pos _, h, Nat.two_pow_pos _, Nat.two_pow_pos _⟩

theorem EncodeInRange.setZone (zone : Int) : EncodeInRange.Statement (.setZone zone) := fun _ _ =>
  ⟨rfl, Nat.two_pow_pos _, Nat.two_pow_pos _, EncodeInRange.rawSigned_lt _ _, Nat.two_pow_pos _⟩

theorem EncodeInRange.getZone : EncodeInRange.Statement .getZone := fun p _ =>
  EncodeInRange.fits_host p _ rfl rfl rfl rfl rfl

theorem EncodeInRange.setDst (flag : Bool) : EncodeInRange.Statement (.setDst flag) := fun p _ =>
  EncodeInRange.fits_host p _ rfl rfl rfl rfl rfl

theorem EncodeInRange.isotime (tm : Tm) : EncodeInRange.Statement (.isotime tm) := fun p _ =>
  EncodeInRange.fits_host p _ rfl rfl rfl rfl rfl

theorem EncodeInRange.tick (ms : Nat) : EncodeInRange.Statement (.tick ms) := fun p h => by
  simp only [Instr.wf, decide_eq_true_eq] at h
  exact ⟨rfl, Nat.two_pow_pos _, Nat.two_pow_pos _, Nat.two_pow_pos _, h⟩

theorem EncodeInRange.getTime : EncodeInRange.Statement .getTime := fun p _ =>
  EncodeInRange.fits_host p _ rfl rfl rfl rfl rfl

theorem EncodeInRange.setTime (t : Nat) : EncodeInRange.Statement (.setTime t) := fun p h => by
  simp only [Instr.wf, decide_eq_true_eq] at h
  exact ⟨rfl, Nat.two_pow_pos _, h, Nat.two_pow_pos _, Nat.two_pow_pos _⟩

theorem EncodeInRange.getTimeTm : EncodeInRange.Statement .getTimeTm := fun p _ =>
  EncodeInRange.fits_host p _ rfl rfl rfl rfl rfl

theorem EncodeInRange.setTimeTm (tm : Tm) : EncodeInRange.Statement (.setTimeTm tm) := fun p _ =>
  EncodeInRange.fits_host p _ rfl rfl rfl rfl rfl

theorem EncodeInRange.wireClkBurstWr (blk : Blk) : EncodeInRange.Statement (.wireClkBurstWr blk) := fun p _ =>
  ⟨by simp, fun _ => by simp [clkBurstCmd, Blk.toList]⟩

theorem EncodeInRange.wireClkBurstRd : EncodeInRange.Statement .wireClkBurstRd := fun p _ =>
  ⟨by simp, fun _ => rfl⟩

theorem EncodeInRange.wireRamBurstWr (data : List Byte) : EncodeInRange.Statement (.wireRamBurstWr data) := fun p h => by
  simp only [Instr.wf, Bool.and_eq_true, decide_eq_true_eq] at h
  have hl : data.length % 32 = data.length := Nat.mod_eq_of_lt (by omega)
  refine ⟨fun hc => ?_, fun _ => ?_⟩
  · have := congrArg BitVec.toNat hc
    simp [hl] at this
    simp [this] at h
  · simp [ramBurstCmd, hl]

theorem EncodeInRange.wireRamBurstRd (cnt : BitVec 5) : EncodeInRange.Statement (.wireRamBurstRd cnt) := fun p h => by
  simp only [Instr.wf, decide_eq_true_eq] at h
  exact ⟨h, fun _ => by simp [ramBurstCmd]⟩

theorem EncodeInRange.wireClkWr (a : BitVec 5) (b : Byte) : EncodeInRange.Statement (.wireClkWr a b) := fun p _ => by
  have : ∀ a : BitVec 5, (cmdByte (a.setWidth 8) .write).getLsbD 0 = false := by decide
  exact ⟨by simp, fun _ => by rw [this a]; rfl⟩

theorem EncodeInRange.wireClkRd (a : BitVec 5) : EncodeInRange.Statement (.wireClkRd a) := fun p _ => by
  have : ∀ a : BitVec 5, (cmdByte (a.setWidth 8) .read).getLsbD 0 = true := by decide
  exact ⟨by simp, fun _ => by simp [this a]⟩

theorem EncodeInRange.wireRamWr (a : BitVec 5) (b : Byte) : EncodeInRange.Statement (.wireRamWr a b) := fun p _ => by
  have : ∀ a : BitVec 5, (ramCmd (a.setWidth 8) .write).getLsbD 0 = false := by decide
  exact ⟨by simp, fun _ => by rw [this a]; rfl⟩

theorem EncodeInRange.wireRamRd (a : BitVec 5) : EncodeInRange.Statement (.wireRamRd a) := fun p _ => by
  have : ∀ a : BitVec 5, (ramCmd (a.setWidth 8) .read).getLsbD 0 = true := by decide
  exact ⟨by simp, fun _ => by simp [this a]⟩

theorem EncodeInRange.wireNeverSent (c : BitVec 7) : EncodeInRange.Statement (.wireNeverSent c) := fun p _ => by
  have : ∀ c : BitVec 7, (c.setWidth 8 : Byte).getLsbD 7 = false := by decide
  exact ⟨by simp, fun h => absurd h (by rw [this c]; decide)⟩

end Sys2Proof.Laws
end

