-- ==== Sys2Proof/Laws/Records.lean ====
section
/-! SUPPORT. The seconds of the records the block answers (10_state.md R36): always below 60 from the calendar engine
and the software clock, and exactly which bytes of a peer the block codec decodes to 60 (log 28). -/

namespace Sys2Proof.Machine

/-- The seconds of a record taken from an instant are below 60 (42_calendar.md R205; 10_state.md R36). -/
theorem splitTime_sec_lt (p : Params) (isdst : Bool) (t : Nat) : (splitTime p isdst t).sec.toNat < 60 := by
  simp only [splitTime, BitVec.toNat_ofNat]; omega

/-- The outcome is a next state, and a record answered in it has its seconds below 60. -/
def SecondsBelowSixty (o : Host.Outcome State Fault Refusal) : Prop :=
  ∃ t r, o = .next t ∧ t.resp = some r ∧ ∀ tm, r.tm = some tm → tm.sec.toNat < 60

theorem SecondsBelowSixty.of_respond (s : State) (r : Response) (h : ∀ tm, r.tm = some tm → tm.sec.toNat < 60) :
    SecondsBelowSixty (.next (s.respond r)) := ⟨_, r, rfl, rfl, h⟩

theorem SecondsBelowSixty.of_withTickUnit (s : State) (f : State → State)
    (h : SecondsBelowSixty (.next (f s))) : SecondsBelowSixty (withTickUnit s f) := by
  unfold withTickUnit
  split
  · exact h
  · exact .of_respond s _ (fun _ h => nomatch h)

theorem execMktimeUtc_seconds (tm : Tm) (s : State) : SecondsBelowSixty (exec (.mktimeUtc tm) s) :=
  .of_respond s _ (by rintro _ ⟨⟩; exact splitTime_sec_lt ..)

theorem execMktimeLocal_seconds (tm : Tm) (s : State) : SecondsBelowSixty (exec (.mktimeLocal tm) s) :=
  .of_respond s _ (by rintro _ ⟨⟩; exact splitTime_sec_lt ..)

theorem execGmtime_seconds (t : Nat) (s : State) : SecondsBelowSixty (exec (.gmtime t) s) :=
  .of_respond s _ (by rintro _ ⟨⟩; exact splitTime_sec_lt ..)

theorem execLocaltime_seconds (t : Nat) (s : State) : SecondsBelowSixty (exec (.localtime t) s) :=
  .of_respond s _ (by rintro _ ⟨⟩; exact splitTime_sec_lt ..)

theorem execGetTimeTm_seconds (s : State) : SecondsBelowSixty (exec .getTimeTm s) := by
  apply SecondsBelowSixty.of_withTickUnit
  exact .of_respond _ _ (by rintro _ ⟨⟩; exact splitTime_sec_lt ..)

theorem execSetTimeTm_seconds (tm : Tm) (s : State) : SecondsBelowSixty (exec (.setTimeTm tm) s) := by
  apply SecondsBelowSixty.of_withTickUnit
  exact .of_respond _ _ (by rintro _ ⟨⟩; exact splitTime_sec_lt ..)

/-- The seconds bytes that decode to 60 (40_bcd.md R124, R125): the packed byte 0x60 and the malformed byte 0x5A. -/
theorem unpackTm_sec_eq_sixty (p : Params) (k : Blk) :
    (unpackTm p k).sec = 60 ↔ k.seconds = 0x60 ∨ k.seconds = 0x5A := by
  have h : ∀ b : Byte, BitVec.ofInt 8 (bcdInt b) = 60 ↔ b = 0x60 ∨ b = 0x5A := by decide
  exact h k.seconds

end Sys2Proof.Machine
end

