-- ==== Sys2Proof/Tests/Slice0.lean ====
section
/-! SUPPORT. Small tests: ill-formed terms refused, words decoded, one step of every instruction on a small state, and
for each statement with hypotheses a concrete case that meets them. Expected results are copied from
95_test_vectors.md (V1 to V12, S1 to S9, P1 to P4) or worked by hand from the encoding tables of 30_encoding.md; each
group names its source. -/

namespace Sys2Proof.Tests

open Sys2Proof.Machine

/-! ## Helpers -/

/-- What `f` sees of the state after `i`. -/
def after (i : Instr) (s : State) {α : Type} (f : State → α) : Option α :=
  match exec i s with
  | .next t => some (f t)
  | .fault _ => none
  | .refused _ => none

/-- The refusal of `i`, if it is refused. -/
def refusal (i : Instr) (s : State) : Option Refusal :=
  match exec i s with
  | .next _ => none
  | .fault _ => none
  | .refused r => some r

/-- A host request decoded at the default parameters. -/
def host (r : HostReq) : Option Instr := (decodeHost Params.default r).toOption

/-- A start request decoded. -/
def wire (c : Byte) (k : BitVec 5) (d : List Byte) : Option Instr := (decodeTxn ⟨c, k, d⟩).toOption

/-- Reset, with a reference peer that holds `mem`. -/
def withPeer (mem : Mem) : State := { State.reset with peer := .reference { RefPeer.reset with mem := mem } }

/-- Reset, with an oracle that answers the levels `ls` (1 for high). -/
def withLevels (ls : List Nat) : State := { State.reset with peer := .oracle (ls.map (· == 1)) }

/-- `Write(DAT,l) T S T` for each level, in the notation of 95_test_vectors.md V4. -/
def sent (ls : List Nat) : List PinEvent := ls.flatMap fun l => [.writeDat (l == 1), .toggleClk, .settle, .toggleClk]

/-- `Read(DAT)->l T S T` for each level. -/
def sampled (ls : List Nat) : List PinEvent := ls.flatMap fun l => [.readDat (l == 1), .toggleClk, .settle, .toggleClk]

/-- The events since reset. -/
def events (s : State) : List PinEvent := s.trace.drop 6

/-- 2017-07-04 09:05:03 without weekday and year-day. -/
def july : Tm := { Tm.zero with sec := 3, min := 5, hour := 9, mday := 4, mon := 6, year := 117 }

/-- The same, normalised: a Tuesday, day 184. -/
def julyNorm : Tm := { july with wday := 2, yday := 184 }

/-- 2000-01-01 00:00:00. -/
def epochTm : Tm := { Tm.zero with mday := 1, year := 100, wday := 6 }

/-- The block of that July day, protected. -/
def julyBlk : Blk := ⟨0x03, 0x05, 0x09, 0x04, 0x07, 0x03, 0x17, 0x80⟩

/-- A reference peer that holds that block. -/
def julyMem : Mem := [(0, 0x03), (1, 0x05), (2, 0x09), (3, 0x04), (4, 0x07), (5, 0x03), (6, 0x17), (7, 0x80)]

/-! ## Well-formedness: each check refuses an ill-formed term (30_encoding.md R102, R96; 41_protocol.md R174) -/

theorem test_wf_ramBurstRd_size : Instr.wf Params.default (.ramBurstRd 65536) = false := by decide

theorem test_wf_ramBurstWr_size : Instr.wf Params.default (.ramBurstWr 65536 (List.replicate 31 0)) = false := by decide

theorem test_wf_ramBurstWr_data : Instr.wf Params.default (.ramBurstWr 3 [1, 2]) = false := by decide

theorem test_wf_gmtime : Instr.wf Params.default (.gmtime 4294967296) = false := by decide

theorem test_wf_localtime : Instr.wf Params.default (.localtime 4294967296) = false := by decide

theorem test_wf_setZone_high : Instr.wf Params.default (.setZone 2147483648) = false := by decide

theorem test_wf_setZone_low : Instr.wf Params.default (.setZone (-2147483649)) = false := by decide

theorem test_wf_tick : Instr.wf Params.default (.tick 4294967296) = false := by decide

theorem test_wf_setTime : Instr.wf Params.default (.setTime 4294967296) = false := by decide

theorem test_wf_wireRamBurstWr_none : Instr.wf Params.default (.wireRamBurstWr []) = false := by decide

theorem test_wf_wireRamBurstWr_long : Instr.wf Params.default (.wireRamBurstWr (List.replicate 32 0)) = false := by decide

theorem test_wf_wireRamBurstRd : Instr.wf Params.default (.wireRamBurstRd 0) = false := by decide

theorem test_wf_wireRamWr : Instr.wf Params.default (.wireRamWr 31 0) = false := by decide

theorem test_wf_wireRamRd : Instr.wf Params.default (.wireRamRd 31) = false := by decide

/-! ## Decoding: operation codes of 30_encoding.md R101 with operand fields, command bytes bit by bit from R90 -/

theorem test_decode_toBcd : host { HostReq.blank 0b00000001 with n := 42 } = some (.toBcd 42) := by decide

theorem test_decode_fromBcd : host { HostReq.blank 0b00000010 with b := 0x59 } = some (.fromBcd 0x59) := by decide

theorem test_decode_blkPack : host { HostReq.blank 0b00000011 with tm := july, flag := true } = some (.blkPack july true) := by decide

theorem test_decode_blkUnpack : host { HostReq.blank 0b00000100 with blk := julyBlk } = some (.blkUnpack julyBlk) := by decide

theorem test_decode_regRd : host { HostReq.blank 0b00010000 with addr := 64 } = some (.regRd 64) := by decide

theorem test_decode_regWr : host { HostReq.blank 0b00010001 with addr := 7, b := 0x80 } = some (.regWr 7 0x80) := by decide

theorem test_decode_clkBurstRd : host (HostReq.blank 0b00010010) = some .clkBurstRd := by decide

theorem test_decode_clkBurstWr : host { HostReq.blank 0b00010011 with blk := julyBlk } = some (.clkBurstWr julyBlk) := by decide

theorem test_decode_ramRd : host { HostReq.blank 0b00010100 with addr := 30 } = some (.ramRd 30) := by decide

theorem test_decode_ramWr : host { HostReq.blank 0b00010101 with addr := 5, b := 0x77 } = some (.ramWr 5 0x77) := by decide

theorem test_decode_ramBurstRd : host { HostReq.blank 0b00010110 with size := 65536 + 3 } = some (.ramBurstRd 3) := by decide

theorem test_decode_ramBurstWr : host { HostReq.blank 0b00010111 with size := 2, data := [0x11, 0x22] } = some (.ramBurstWr 2 [0x11, 0x22]) := by decide

theorem test_decode_wpSet : host { HostReq.blank 0b00011000 with flag := true } = some (.wpSet true) := by decide

theorem test_decode_chipGetTime : host (HostReq.blank 0b00011001) = some .chipGetTime := by decide

theorem test_decode_chipSetTime : host { HostReq.blank 0b00011010 with tm := july, flag := true } = some (.chipSetTime july true) := by decide

theorem test_decode_isLeap : host { HostReq.blank 0b00100000 with year := 2100 } = some (.isLeap 2100) := by decide

theorem test_decode_daysToEpoch : host { HostReq.blank 0b00100001 with year := 2017 } = some (.daysToEpoch 2017) := by decide

theorem test_decode_mkGmtime : host { HostReq.blank 0b00100010 with tm := july } = some (.mkGmtime july) := by decide

theorem test_decode_mktimeUtc : host { HostReq.blank 0b00100011 with tm := july, isLocal := false } = some (.mktimeUtc july) := by decide

theorem test_decode_mktimeLocal : host { HostReq.blank 0b00100011 with tm := july, isLocal := true } = some (.mktimeLocal july) := by decide

theorem test_decode_gmtime : host { HostReq.blank 0b00100100 with t := 4294967295 } = some (.gmtime 4294967295) := by decide

theorem test_decode_localtime : host { HostReq.blank 0b00100101 with t := 18000 } = some (.localtime 18000) := by decide

theorem test_decode_setZone : host { HostReq.blank 0b00100110 with zone := 0xFFFFB9B0 } = some (.setZone (-18000)) := by decide

theorem test_decode_getZone : host (HostReq.blank 0b00100111) = some .getZone := by decide

theorem test_decode_setDst : host { HostReq.blank 0b00101000 with flag := true } = some (.setDst true) := by decide

theorem test_decode_isotime : host { HostReq.blank 0b00101001 with tm := july } = some (.isotime july) := by decide

theorem test_decode_tick : host { HostReq.blank 0b00110000 with ms := 1100 } = some (.tick 1100) := by decide

theorem test_decode_getTime : host (HostReq.blank 0b00110001) = some .getTime := by decide

theorem test_decode_setTime : host { HostReq.blank 0b00110010 with t := 552474303 } = some (.setTime 552474303) := by decide

theorem test_decode_getTimeTm : host (HostReq.blank 0b00110011) = some .getTimeTm := by decide

theorem test_decode_setTimeTm : host { HostReq.blank 0b00110100 with tm := july } = some (.setTimeTm july) := by decide

theorem test_decode_wireClkBurstWr : wire 0b10111110 8 [0x03, 0x05, 0x09, 0x04, 0x07, 0x03, 0x17, 0x80] = some (.wireClkBurstWr julyBlk) := by decide

theorem test_decode_wireClkBurstRd : wire 0b10111111 8 [] = some .wireClkBurstRd := by decide

theorem test_decode_wireRamBurstWr : wire 0b11111110 2 [0x11, 0x22] = some (.wireRamBurstWr [0x11, 0x22]) := by decide

theorem test_decode_wireRamBurstRd : wire 0b11111111 31 [] = some (.wireRamBurstRd 31) := by decide

theorem test_decode_wireClkWr : wire 0b10001110 1 [0x80] = some (.wireClkWr 7 0x80) := by decide

theorem test_decode_wireClkRd : wire 0b10000001 1 [] = some (.wireClkRd 0) := by decide

theorem test_decode_wireRamWr : wire 0b11001010 1 [0x77] = some (.wireRamWr 5 0x77) := by decide

theorem test_decode_wireRamRd : wire 0b11111101 1 [] = some (.wireRamRd 30) := by decide

theorem test_decode_wireNeverSent : wire 0b01111111 1 [] = some (.wireNeverSent 0x7F) := by decide

/-- 95_test_vectors.md V11: unassigned operation codes are rejected, and the code is named. -/
theorem test_decode_unassigned :
    decodeHost Params.default (HostReq.blank 0x1B) = .error (.badOp 0x1B) ∧ host (HostReq.blank 0x00) = none ∧
    host (HostReq.blank 0x05) = none ∧ host (HostReq.blank 0x2A) = none ∧ host (HostReq.blank 0x35) = none ∧
    host (HostReq.blank 0xFF) = none := by decide

/-- 95_test_vectors.md V3: command bytes of the addresses of the table. -/
theorem test_command_bytes :
    cmdByte 8 .write = 0x90 ∧ cmdByte 30 .read = 0xBD ∧ cmdByte 64 .read = 0x81 ∧ cmdByte 255 .write = 0xFE ∧
    ramCmd 1 .write = 0xC2 ∧ ramCmd 30 .read = 0xFD := by decide

/-- The table's words of two rows, run as the first instruction after reset. -/
theorem test_fetch_word :
    decodeTableWord 8 0x27 = some .getZone ∧ decodeTableWord 8 0xFC = some (.wireRamWr 30 0) ∧
    step (State.reset.withFetchWord 8 0x27) = .next { State.reset with resp := some { zone := some 0 } } :=
  ⟨by decide, by decide, rfl⟩

/-! ## BCD codec (95_test_vectors.md V1, V2) -/

theorem test_toBcd_42 : after (.toBcd 42) State.reset State.resp = some (some { b := some 0x42 }) := by decide

theorem test_toBcd_99 : after (.toBcd 99) State.reset State.resp = some (some { b := some 0x99 }) := by decide

theorem test_fromBcd_59 : after (.fromBcd 0x59) State.reset State.resp = some (some { n := some 59 }) := by decide

theorem test_fromBcd_malformed : after (.fromBcd 0x1F) State.reset State.resp = some (some { n := some 25 }) := by
  decide

theorem test_blkPack : after (.blkPack { july with wday := 2 } true) State.reset State.resp =
    some (some { blk := some julyBlk }) := by decide

theorem test_blkPack_2099 :
    after (.blkPack ⟨59, 59, 23, 31, 11, 4, 199, 0, 0⟩ false) State.reset State.resp =
      some (some { blk := some ⟨0x59, 0x59, 0x23, 0x31, 0x12, 0x05, 0x99, 0x00⟩ }) := by decide

theorem test_blkUnpack_malformed :
    after (.blkUnpack ⟨0x7A, 0xFF, 0x23, 0x31, 0x12, 0x08, 0xA5, 0x00⟩) State.reset State.resp =
      some (some { tm := some ⟨80, BitVec.ofInt 8 (-91), 23, 31, 11, 7, 205, 0, BitVec.ofInt 8 (-1)⟩, flag := some false }) := by
  decide

theorem test_blkUnpack_zero : after (.blkUnpack Blk.zero) State.reset State.resp =
    some (some { tm := some ⟨0, 0, 0, 0, BitVec.ofInt 8 (-1), BitVec.ofInt 8 (-1), 100, 0, BitVec.ofInt 8 (-1)⟩, flag := some false }) := by
  decide

/-! ## Wire operations (95_test_vectors.md V4, P1, P2) -/

/-- V4, the full trace of `REG_RD addr=0` against a peer that answers 0x25. -/
theorem test_regRd_trace :
    after (.regRd 0) (withLevels [1, 0, 1, 0, 0, 1, 0, 0]) (fun t => (events t, t.resp, t.pins)) =
      some ([.writeCs true] ++ sent [1, 0, 0, 0, 0, 0, 0, 1] ++ [.setInDat] ++ sampled [1, 0, 1, 0, 0, 1, 0, 0]
        ++ [.writeCs false, .setOutDat], some { b := some 0x25 }, ⟨false, false, .out, true⟩) := by decide +kernel

/-- V4: against a loop-back wire every sampled byte is 0xFF. -/
theorem test_regRd_loopWire : after (.regRd 0) { State.reset with peer := .loopWire } State.resp =
    some (some { b := some 0xFF }) := by decide

/-- V4: `REG_WR addr=0, b=0x25` is `W[80 25]`. -/
theorem test_regWr_trace : after (.regWr 0 0x25) State.reset events =
    some ([.writeCs true] ++ sent [0, 0, 0, 0, 0, 0, 0, 1] ++ sent [1, 0, 1, 0, 0, 1, 0, 0] ++ [.writeCs false]) := by decide +kernel

/-- P1 step 5: a write to a protected peer is lost. -/
theorem test_regWr_protected : after (.regWr 0 0x59) (withPeer julyMem) (fun t => t.peer.byteAt 0) =
    some (some 0x03) := by decide

/-- P1 step 3. -/
theorem test_clkBurstRd : after .clkBurstRd (withPeer julyMem) (fun t => (t.resp, (events t).length)) =
    some (some { blk := some julyBlk }, 292) := by decide +kernel

/-- P1 step 2 on the wire, and the peer after it. -/
theorem test_clkBurstWr : after (.clkBurstWr julyBlk) (withPeer [])
    (fun t => ((events t).length, t.peer.byteAt 0, t.peer.byteAt 6, t.peer.byteAt 7, t.pins.latch)) =
    some (290, some 0x03, some 0x17, some 0x80, true) := by decide +kernel

/-- P2 step 2. -/
theorem test_ramRd : after (.ramRd 30) (withPeer [(62, 0xBE)]) State.resp = some (some { b := some 0xBE }) := by decide

/-- P2 step 3. -/
theorem test_ramRd_badAddr : after (.ramRd 31) State.reset (fun t => (t.resp, events t)) =
    some (some { badAddr := true }, []) := by decide

/-- V4: `RAM_WR addr=5, b=0x77` is `W[CA 77]`. -/
theorem test_ramWr : after (.ramWr 5 0x77) (withPeer []) (fun t => (events t, t.peer.byteAt 37)) =
    some ([.writeCs true] ++ sent [0, 1, 0, 1, 0, 0, 1, 1] ++ sent [1, 1, 1, 0, 1, 1, 1, 0] ++ [.writeCs false],
      some 0x77) := by decide +kernel

theorem test_ramWr_badAddr : after (.ramWr 255 0) State.reset State.resp = some (some { badAddr := true }) := by decide

/-- P2 step 4. -/
theorem test_ramBurstRd : after (.ramBurstRd 3) (withPeer [(32, 0xA0), (33, 0xA1), (34, 0xA2)])
    (fun t => (t.resp, (events t).length)) =
    some (some { data := some [0xA0, 0xA1, 0xA2], count := some 3 }, 132) := by decide +kernel

/-- V4: a size above 31 reads 31 bytes. -/
theorem test_ramBurstRd_clamped : after (.ramBurstRd 65535) (withPeer [(62, 0xBE)])
    (fun t => (t.resp.bind Response.count, (t.resp.bind Response.data).map List.length)) = some (some 31, some 31) := by
  decide +kernel

/-- V4: `RAM_BURST_WR size=2` is `W[8E 00] | W[FE 11 22] | W[8E 80]`, and it gets past the protection. -/
theorem test_ramBurstWr : after (.ramBurstWr 2 [0x11, 0x22]) (withPeer [(7, 0x80)])
    (fun t => ((events t).length, t.resp, t.peer.byteAt 32, t.peer.byteAt 33, t.peer.byteAt 7)) =
    some (230, some { count := some 2 }, some 0x11, some 0x22, some 0x80) := by decide +kernel

/-- P2 step 1: 50 bytes are clamped to 31. -/
theorem test_ramBurstWr_clamped : after (.ramBurstWr 50 ((List.range 50).map fun i => BitVec.ofNat 8 (0xA0 + i)))
    (withPeer [(7, 0x80)]) (fun t => ((events t).length, t.resp, t.peer.byteAt 62, t.peer.byteAt 63)) =
    some (1158, some { count := some 31 }, some 0xBE, some 0) := by decide +kernel

/-- V4, the full trace of `WP_SET flag=0`. -/
theorem test_wpSet_trace : after (.wpSet false) State.reset (fun t => (events t, t.pins.latch)) =
    some ([.writeCs true] ++ sent [0, 1, 1, 1, 0, 0, 0, 1] ++ sent [0, 0, 0, 0, 0, 0, 0, 0] ++ [.writeCs false],
      false) := by decide +kernel

/-- P1 step 1: address 7 is writable even when protected. -/
theorem test_wpSet_clears : after (.wpSet false) (withPeer [(7, 0x80)]) (fun t => t.peer.byteAt 7) = some (some 0) := by
  decide

/-- 41_protocol.md R178. -/
theorem test_chipGetTime : after .chipGetTime (withPeer julyMem) State.resp =
    some (some { tm := some { july with wday := 2, isdst := BitVec.ofInt 8 (-1) }, flag := some true }) := by
  decide +kernel

/-- P1 step 2. -/
theorem test_chipSetTime : after (.chipSetTime { july with wday := 2 } true) (withPeer [])
    (fun t => ((events t).length, t.resp, t.peer.byteAt 3, t.peer.byteAt 4, t.peer.byteAt 5)) =
    some (290, some {}, some 0x04, some 0x07, some 0x03) := by decide +kernel

/-! ## Calendar (95_test_vectors.md V5 to V9) -/

theorem test_isLeap_2100 : after (.isLeap 2100) State.reset State.resp = some (some { leap := some false }) := by decide

theorem test_isLeap_minus_400 : after (.isLeap (BitVec.ofInt 16 (-400))) State.reset State.resp =
    some (some { leap := some true }) := by decide

theorem test_daysToEpoch_2017 : after (.daysToEpoch 2017) State.reset State.resp =
    some (some { days := some 6210 }) := by decide

theorem test_daysToEpoch_lowest : after (.daysToEpoch 0x8000) State.reset State.resp =
    some (some { days := some (BitVec.ofInt 32 (-12698751)) }) := by decide

theorem test_mkGmtime_july : after (.mkGmtime july) State.reset State.resp =
    some (some { t := some 552474303 }) := by decide

theorem test_mkGmtime_range : after (.mkGmtime { Tm.zero with sec := BitVec.ofInt 8 (-1), mday := 1, year := 100 })
    State.reset (fun t => t.resp.map Response.range) = some (some true) := by decide

theorem test_mktimeUtc_borrow : after (.mktimeUtc ⟨75, 59, 23, 31, 11, 0, 99, 0, 0⟩) State.reset State.resp =
    some (some { t := some 15, tm := some { epochTm with sec := 15 } }) := by decide

theorem test_mktimeUtc_months : after (.mktimeUtc { Tm.zero with mday := 1, mon := 14, year := 116 }) State.reset State.resp =
    some (some { t := some 541641600, tm := some ⟨0, 0, 0, 1, 2, 3, 117, 59, 0⟩ }) := by decide

theorem test_mktimeLocal_zone : after (.mktimeLocal july) { State.reset with zone := 3600 } State.resp =
    some (some { t := some 552470703, tm := some julyNorm }) := by decide

/-- V8, the example hook: the inverse away from a transition, and the single pass at one. -/
theorem test_mktimeLocal_hook :
    let hook (u : Nat) : Bool × Int := if 1000000 ≤ u ∧ u < 2000000 then (true, 3600) else (false, 0)
    (mkLocal hook Params.default 3600 true { Tm.zero with min := 40, hour := 10, mday := 18, year := 100 }).1 = 1500000 ∧
    (mkLocal hook Params.default 3600 true ⟨40, 16, 5, 24, 0, 0, 100, 0, 0⟩).1 = 2002600 := by decide +kernel

theorem test_gmtime_july : after (.gmtime 552474303) State.reset State.resp = some (some { tm := some julyNorm }) := by
  decide

theorem test_gmtime_last : after (.gmtime 4294967295) State.reset State.resp =
    some (some { tm := some ⟨15, 28, 6, 7, 1, 2, 236, 37, 0⟩ }) := by decide

theorem test_localtime_zone : after (.localtime 552470703) { State.reset with zone := 3600 } State.resp =
    some (some { tm := some julyNorm }) := by decide

theorem test_localtime_range : after (.localtime 0) { State.reset with zone := -18000 }
    (fun t => t.resp.map Response.range) = some (some true) := by decide

theorem test_setZone : after (.setZone 3600) State.reset (fun t => (t.zone, t.resp)) = some (3600, some {}) := by decide

theorem test_getZone : after .getZone { State.reset with zone := -18000 } State.resp =
    some (some { zone := some (-18000) }) := by decide

theorem test_setDst : after (.setDst true) State.reset (fun t => (t.dstEn, t.resp)) = some (true, some {}) := by decide

/-- S5: "2017-07-04 09:05:03" and the terminator. -/
theorem test_isotime : after (.isotime july) State.reset State.resp =
    some (some { text := some [0x32, 0x30, 0x31, 0x37, 0x2D, 0x30, 0x37, 0x2D, 0x30, 0x34, 0x20, 0x30, 0x39, 0x3A,
      0x30, 0x35, 0x3A, 0x30, 0x33, 0x00] }) := by decide

theorem test_isotime_badFmt : after (.isotime { Tm.zero with mday := 1, year := 8100 }) State.reset State.resp =
    some (some { badFmt := true }) := by decide

/-! ## Tick unit (95_test_vectors.md V10) -/

theorem test_tick_5300 : after (.tick 5300) State.reset (fun t => (t.seconds, t.lastMs, t.resp)) =
    some (5, 5000, some { advanced := some true }) := by decide

theorem test_tick_wrapped : after (.tick 704) { State.reset with lastMs := 4294966796 } (fun t => (t.seconds, t.lastMs)) =
    some (1, 500) := by decide

theorem test_getTime : after .getTime { State.reset with seconds := 552474303 } State.resp =
    some (some { t := some 552474303 }) := by decide

theorem test_setTime : after (.setTime 552474303) { State.reset with seconds := 7, lastMs := 2000 }
    (fun t => (t.seconds, t.lastMs)) = some (552474303, 2000) := by decide

theorem test_getTimeTm : after .getTimeTm { State.reset with zone := 3600 } State.resp =
    some (some { tm := some { epochTm with hour := 1 } }) := by decide +kernel

theorem test_setTimeTm : after (.setTimeTm july) { State.reset with zone := 3600 } (fun t => (t.seconds, t.resp)) =
    some (552470703, some { tm := some julyNorm }) := by decide

/-! ## Wire commands: the traces of 41_protocol.md R160, R161, the levels of 95_test_vectors.md V3 -/

theorem test_wireClkWr : after (.wireClkWr 7 0x00) State.reset (fun t => (events t, t.resp)) =
    some ([.writeCs true] ++ sent [0, 1, 1, 1, 0, 0, 0, 1] ++ sent [0, 0, 0, 0, 0, 0, 0, 0] ++ [.writeCs false], none) := by decide +kernel

theorem test_wireClkRd : after (.wireClkRd 6) (withPeer julyMem) (fun t => (t.regs.cmdb, t.regs.rw, t.regs.db[0])) =
    some (0x8D, true, 0x17) := by decide

theorem test_wireRamWr : after (.wireRamWr 30 0xA5) (withPeer []) (fun t => (t.regs.cmdb, t.peer.byteAt 62)) =
    some (0xFC, some 0xA5) := by decide

theorem test_wireRamRd : after (.wireRamRd 0) (withPeer [(32, 0x5A)]) (fun t => (t.regs.cmdb, t.regs.db[0])) =
    some (0xC1, 0x5A) := by decide

theorem test_wireClkBurstWr : after (.wireClkBurstWr julyBlk) (withPeer [])
    (fun t => (t.regs.cmdb, t.regs.cnt, t.peer.byteAt 4)) = some (0xBE, 8, some 0x07) := by decide +kernel

theorem test_wireClkBurstRd : after .wireClkBurstRd (withPeer julyMem)
    (fun t => (t.regs.cmdb, t.regs.db[2], (events t).length)) = some (0xBF, 0x09, 292) := by decide +kernel

theorem test_wireRamBurstWr : after (.wireRamBurstWr [0x11, 0x22]) (withPeer [])
    (fun t => ((events t).length, t.peer.byteAt 33)) = some (98, some 0x22) := by decide +kernel

theorem test_wireRamBurstRd : after (.wireRamBurstRd 2) (withPeer [(32, 0xA0), (33, 0xA1)])
    (fun t => (t.regs.cnt, t.regs.db[0], t.regs.db[1])) = some (2, 0xA0, 0xA1) := by decide +kernel

theorem test_wireNeverSent : refusal (.wireNeverSent 0x7F) State.reset = some .commandNeverSent := by decide

/-- The sequencer, stepped by the machine, goes through the positions of V4 in `REG_RD`: 67 steps after the start. -/
theorem test_sequencer_regRd :
    ((seqSteps 67 (seqStart 0x81 1 [] (withLevels [1, 0, 1, 0, 0, 1, 0, 0]))).map fun t => (t.seq, (events t).length, t.regs.db[0]))
      = some (⟨.idle, 0, 0, 0⟩, 68, 0x25) := by decide +kernel

/-! ## Witnesses: for each statement with hypotheses, a concrete case that meets them, at the ends of the ranges -/

/-- Reset, with the request `r` held at the host port. -/
def held (r : HostReq) : State := { State.reset with reqs := [r] }

/-- Reset, with the reset input raised. -/
def raised : State := { State.reset with rst := true }

/-- A state in a transaction: `REG_RD addr=0` just started. -/
def started : State := seqStart 0x81 1 [] State.reset

/-- A state outside the idle invariant: chip-select is high. -/
def selected : State := { State.reset with pins := { Pins.reset with cs := true } }

/-- The defaults with neither the tick unit nor `ISOTIME`. -/
def bare : State := { State.reset with params := { Params.default with hasTickUnit := false, hasIsotime := false } }

/-- A reference peer that is protected. -/
def guarded : State := withPeer [(7, 0x80)]

theorem witness_DecodeEncodeAgree : Params.default.wf ∧ (Instr.setZone (-2147483648)).wf Params.default = true ∧
    (Instr.setZone 2147483647).wf Params.default = true ∧ (Instr.gmtime 4294967295).wf Params.default = true ∧
    (Instr.wireRamRd 30).wf Params.default = true ∧
    (Instr.ramBurstWr 65535 (List.replicate 31 0)).wf Params.default = true ∧
    (Instr.wireRamBurstWr (List.replicate 31 0)).wf Params.default = true := by decide +kernel

theorem witness_HostDecoderTakesTheTableCodes : (0x00#8).toNat ∉ hostCodes ∧ (0x35#8).toNat ∉ hostCodes := by decide

theorem witness_CommandByteFormation : (0#8).toNat ≤ 30 ∧ (30#8).toNat ≤ 30 := by decide

theorem witness_CommandBytesHaveBitSeven : ∃ t, exec (.regWr 0 0) State.reset = .next t := ⟨_, rfl⟩

theorem witness_StepRunsTheDecodedInstruction :
    (State.reset.rst = false ∧ State.reset.ticks = [] ∧ State.reset.seq.ph = .idle ∧ State.reset.txn = none ∧
      State.reset.reqs = []) ∧
    (decodeTxn ⟨0x81, 1, []⟩ = .ok (.wireClkRd 0)) ∧
    (decodeHost Params.default (HostReq.blank 0x27) = .ok .getZone ∧ (held (HostReq.blank 0x27)).seq.ph = .idle) ∧
    (started.rst = false ∧ started.ticks = [] ∧ started.seq.ph ≠ .idle) := by decide

theorem witness_StepRunsTheDecodedInstruction_sequencer : ∃ t, seqStep started = some t := ⟨_, rfl⟩

theorem witness_UnassignedCodesAnswerBadOp : (held (HostReq.blank 0x05)).rst = false ∧
    (held (HostReq.blank 0x05)).reqs = [HostReq.blank 0x05] ∧ (HostReq.blank 0x05).op.toNat ∉ hostCodes ∧
    bare.params.hasTickUnit = false ∧ bare.params.hasIsotime = false := by decide

theorem witness_TickIsServedBeforeOrAfter :
    mainReady { held (HostReq.blank 0x31) with ticks := [1000] } = true ∧
    mainReady { State.reset with ticks := [1000] } = false := by decide

theorem witness_TickPortChangesOnlyTheTickUnit :
    State.reset.params.hasTickUnit = true ∧ 4294967295 < 2 ^ State.reset.params.msBits := by decide

theorem witness_StepKeepsTheInvariant : Inv State.reset ∧ ∃ t, step State.reset = .next t := ⟨by decide, _, rfl⟩

theorem witness_StepKeepsTheInvariant_started : Inv started ∧ ∃ t, step started = .next t := ⟨by decide, _, rfl⟩

theorem witness_NoStepStops : Inv (held (HostReq.blank 0x10)) ∧ TxnFits (held (HostReq.blank 0x10)) ∧
    ReqsWf (held (HostReq.blank 0x10)) := by
  refine ⟨by decide, (fun _ h => absurd h (by simp [held, State.reset])), ?_⟩
  intro r hr i hi
  simp only [held, List.mem_singleton] at hr
  subst hr
  have h : decodeHost State.reset.params (HostReq.blank 0x10) = .ok (.regRd 0) := rfl
  simp only [held, h, Except.ok.injEq] at hi
  subst hi
  rfl

/-- With a start request pending, the longest memory burst. -/
theorem witness_NoStepStops_pending :
    let q : TxnReq := ⟨0xFE, 31, List.replicate 31 0⟩
    let s : State := { State.reset with txn := some q }
    Inv s ∧ TxnFits s ∧ ReqsWf s := by
  refine ⟨by decide, ?_, fun r hr => nomatch hr⟩
  intro q hq
  obtain rfl := Option.some.inj hq
  decide

theorem witness_ResetLeavesTheStatedValues : raised.rst = true := rfl

theorem witness_ResetEmitsSixEvents : { started with rst := true }.rst = true ∧
    started.rst = false ∧ ∃ t, step started = .next t := ⟨rfl, rfl, _, rfl⟩

theorem witness_ToBcdPacksTwoDigits : (HostReq.blank 0x01).op = 0x01 ∧ (99#8).toNat ≤ 99 ∧ (0#8).toNat ≤ 99 := by decide

theorem witness_FromBcdReadsEveryByte : (HostReq.blank 0x02).op = 0x02 ∧ (0x99#8).toNat / 16 ≤ 9 ∧
    (0x99#8).toNat % 16 ≤ 9 := by decide

theorem witness_BcdRoundTrip :
    ((99#8).toNat ≤ 99 ∧ ∃ t, exec (.toBcd 99) State.reset = .next t ∧ t.resp = some { b := some 0x99 }) ∧
    ((0x99#8).toNat / 16 ≤ 9 ∧ (0x99#8).toNat % 16 ≤ 9 ∧
      ∃ t, exec (.fromBcd 0x99) State.reset = .next t ∧ t.resp = some { n := some 99 }) :=
  ⟨⟨by decide, _, rfl, by decide⟩, by decide, by decide, _, rfl, by decide⟩

/-- Every operation code a decoding clause of a statement names. -/
theorem witness_operation_codes : ∀ c ∈ hostCodes, (HostReq.blank (BitVec.ofNat 8 c)).op.toNat = c := by decide

theorem witness_BlkPackPacksEachField : (HostReq.blank 0x03).op = 0x03 ∧ 0 ≤ julyNorm.sec.toInt ∧
    julyNorm.sec.toInt ≤ 99 ∧ 0 ≤ State.reset.params.yearBase + (100#16).toInt - 2000 ∧
    State.reset.params.yearBase + (199#16).toInt - 2000 ≤ 99 := by decide

theorem witness_BlkUnpackReadsEachByte : (HostReq.blank 0x04).op = 0x04 := rfl

theorem witness_BlockRoundTrip : Packable Params.default julyNorm ∧
    Packable Params.default ⟨99, 99, 99, 99, 98, 98, 199, 0, 0⟩ ∧
    Packable Params.default ⟨0, 0, 0, 0, BitVec.ofInt 8 (-1), BitVec.ofInt 8 (-1), 100, 0, 0⟩ ∧
    Params.default.wpOn ≠ 0 ∧ Params.default.wpOff &&& Params.default.wpOn = 0 := by decide

theorem witness_SequencerRunsWriteTransactions : (0x80#8).getLsbD 0 = false ∧ 1 ≤ [0x25#8].length ∧
    (List.replicate 31 (0#8)).length ≤ 31 := by decide

theorem witness_SequencerRunsReadTransactions : (0x81#8).getLsbD 0 = true ∧ (0xFF#8).getLsbD 0 = true ∧
    1 ≤ 1 ∧ 31 ≤ 31 := by decide

theorem witness_RegisterWritesSendOneByte : State.reset.idle := by decide

theorem witness_RegisterReadReturnsTheByte : (withPeer julyMem).idle := by decide

theorem witness_BlockWritesSendEightBytes : guarded.idle := by decide

theorem witness_BlockReadsReturnEightBytes : (withLevels [1]).idle := by decide

theorem witness_MemoryBurstReadClamps : 0 < 1 ∧ 0 < 65535 ∧ (withPeer julyMem).idle := by decide

theorem witness_TransactionsEndIdle : State.reset.idle ∧ [0x25#8] ≠ [] := by decide

theorem witness_SequencerStepEmitsOneEvent : started.seq.ph ≠ .idle ∧ ∃ t, seqStep started = some t :=
  ⟨by decide, _, rfl⟩

theorem witness_MemoryByteAccess : 30 < (31#8).toNat ∧ (30#8).toNat ≤ 30 ∧ State.reset.idle := by decide

/-- A canonical reference peer, `WP_OFF` with bit 7 clear, and one with it set; the first address past the burst. -/
theorem witness_MemoryBurstWriteClamps_peer : guarded.peer = .reference { RefPeer.reset with mem := [(7, 0x80)] } ∧
    Mem.wf [(7, 0x80#8)] = true ∧ guarded.idle ∧ guarded.params.wpOff.getLsbD 7 = false ∧
    { Params.default with wpOff := 0x80 }.wpOff.getLsbD 7 ≠ false ∧ 32 + min 50 31 ≤ 63 ∧ 31 < 32 := by decide

theorem witness_MemoryBurstWriteClamps : 0 < 1 ∧ min 1 31 ≤ [0x11#8].length ∧
    min 65535 31 ≤ (List.replicate 31 (0#8)).length ∧ State.reset.params.autoWp = true ∧
    { State.reset with params := { Params.default with autoWp := false } }.params.autoWp = false := by decide

theorem witness_ShortDataIsRefused : ([] : List Byte).length < min 1 31 ∧
    (List.replicate 30 (0#8)).length < min 50 31 := by decide

theorem witness_WireCommandsWrite : State.reset.idle ∧ 1 ≤ [0x11#8].length ∧ (List.replicate 31 (0#8)).length ≤ 31 := by
  decide

theorem witness_WireCommandsRead : State.reset.idle ∧ (1 : BitVec 5) ≠ 0 ∧ (31 : BitVec 5) ≠ 0 := by decide

theorem witness_WireOperationsNeedTheIdleInvariant : ¬ selected.idle ∧ (30#8).toNat ≤ 30 ∧
    min 1 31 ≤ [0x11#8].length ∧ min 65535 31 ≤ (List.replicate 31 (0#8)).length ∧ (1 : BitVec 5) ≠ 0 := by decide

/-- Start requests that do not fit: two bytes under a single write, eight under a memory address, none at all, a read
with data, a read of eight from one address, a block read of one that does fit. -/
theorem witness_FitsCommand : ¬ FitsCommand ⟨0x80, 2, [1, 2]⟩ ∧ ¬ FitsCommand ⟨0xC0, 8, List.replicate 8 0⟩ ∧
    ¬ FitsCommand ⟨0xFE, 0, []⟩ ∧ ¬ FitsCommand ⟨0x81, 1, [0]⟩ ∧ ¬ FitsCommand ⟨0x81, 8, []⟩ ∧
    ¬ FitsCommand ⟨0xFF, 0, []⟩ ∧ FitsCommand ⟨0xBF, 1, []⟩ ∧ FitsCommand ⟨0xFE, 31, List.replicate 31 0⟩ :=
  ⟨by decide, by decide, by decide, by decide, by decide, by decide, by decide, by decide⟩

theorem witness_AtStart : let q : TxnReq := ⟨0x80, 2, [1, 2]⟩
    AtStart { State.reset with txn := some q } q ∧ q.cmd.getLsbD 7 = true ∧ q.cmd.getLsbD 0 = false :=
  ⟨⟨rfl, rfl, rfl, rfl⟩, by decide, by decide⟩

theorem witness_AtStart_read : let q : TxnReq := ⟨0x81, 8, []⟩
    AtStart { State.reset with txn := some q } q ∧ q.cmd.getLsbD 7 = true ∧ q.cmd.getLsbD 0 = true :=
  ⟨⟨rfl, rfl, rfl, rfl⟩, by decide, by decide⟩

theorem witness_WireCommandsWrite_refused : 31 < (List.replicate 32 (0#8)).length ∧ ([] : List Byte).length = 0 := by
  decide

theorem witness_TraceDependsOnTheOperationAlone : State.reset.params = guarded.params ∧
    (∃ t, exec (.regRd 7) State.reset = .next t) ∧ ∃ t, exec (.regRd 7) guarded = .next t :=
  ⟨rfl, ⟨_, rfl⟩, _, rfl⟩

theorem witness_EventCounts : State.reset.idle ∧ (30#8).toNat ≤ 30 ∧ 30 < (31#8).toNat ∧ 31 = min 32 31 ∧
    (1 : Nat) = min 1 31 ∧ 31 ≤ (List.replicate 31 (0#8)).length := by decide

theorem witness_BlockLoopBack : (withPeer []).idle ∧ (withPeer []).peer = .reference RefPeer.reset ∧
    Mem.wf RefPeer.reset.mem = true ∧ (Mem.read RefPeer.reset.mem 7).getLsbD 7 = false ∧
    ∃ t, exec (.clkBurstWr julyBlk) (withPeer []) = .next t :=
  ⟨by decide, rfl, by decide, by decide, _, rfl⟩

theorem witness_LeapYearRule : (HostReq.blank 0x20).op = 0x20 := rfl

/-- 95_test_vectors.md V7: the first and the last instant, and one second beyond each. -/
theorem witness_MkGmtimeSumsTheFields :
    let sum (tm : Tm) : Int := wallSum Params.default tm
    sum epochTm = 0 ∧ sum ⟨15, 28, 6, 7, 1, 0, 236, 0, 0⟩ = 4294967295 ∧
    InEpoch Params.default 0 ∧ InEpoch Params.default 4294967295 ∧
    ¬ InEpoch Params.default (-1) ∧ ¬ InEpoch Params.default 4294967296 := by decide +kernel

/-- The first and the last instant of 32 bits at the defaults. -/
theorem witness_YearFits : YearFits Params.default 0 ∧ YearFits Params.default 4294967295 :=
  ⟨⟨2000, by decide +kernel⟩, ⟨2136, by decide +kernel⟩⟩

theorem witness_MktimeUtcNormalises : InEpoch Params.default (wallSum Params.default epochTm) := by decide +kernel

theorem witness_MktimeLocalSubtractsZoneAndDst :
    InEpoch State.reset.params (wallSum State.reset.params july) ∧
    InEpoch State.reset.params (wallSum State.reset.params july - 3600) ∧
    InEpoch State.reset.params (wallSum State.reset.params july - 3600 - (dstAt State.reset 552470703).2) := by
  decide +kernel

theorem witness_LocaltimeAddsZoneAndDst :
    InEpoch State.reset.params ((4294967295 : Nat) + State.reset.zone + (dstAt State.reset 4294967295).2) ∧
    ¬ InEpoch State.reset.params ((0 : Nat) + (-18000) + (dstAt State.reset 0).2) := by decide +kernel

theorem witness_UtcRoundTrip : YearFits State.reset.params 4294967295 ∧ 4294967295 < 2 ^ State.reset.params.epochBits ∧
    State.reset.zone = 0 ∧ State.reset.dstEn = false ∧
    exec (.mkGmtime july) State.reset = .next { State.reset with resp := some { t := some 552474303 } } :=
  ⟨⟨2136, by decide +kernel⟩, by decide, rfl, rfl, rfl⟩

theorem witness_LocalRoundTripWithoutDst :
    YearFits State.reset.params ((552470703 : Nat) + (3600 : Int)).toNat ∧ State.reset.dstEn = false ∧ 552470703 < 2 ^ State.reset.params.epochBits ∧
    exec (.localtime 552470703) { State.reset with zone := 3600 } =
      .next { State.reset with zone := 3600, resp := some { tm := some julyNorm } } :=
  ⟨⟨2017, by decide +kernel⟩, rfl, by decide, rfl⟩

/-- Two hooks that differ, but agree at the instants the two conversions ask about. -/
theorem witness_ConversionsAskTheHookOnce :
    let h₁ (u : Nat) : Bool × Int := if u = 5 then (true, 3600) else (false, 0)
    let h₂ (u : Nat) : Bool × Int := if u = 7 then (true, 3600) else (false, 0)
    h₁ 5 ≠ h₂ 5 ∧ h₁ 0 = h₂ 0 ∧
    h₁ ((wallSum Params.default epochTm - 0) % 2 ^ Params.default.epochBits).toNat =
      h₂ ((wallSum Params.default epochTm - 0) % 2 ^ Params.default.epochBits).toNat := by decide +kernel

theorem witness_ZoneAndDstRegisters : State.reset.params.wf ∧
    inSigned State.reset.params.zoneBits (-2147483648) = true ∧
    inSigned State.reset.params.zoneBits 2147483647 = true := by decide

theorem witness_IsotimePrintsOrRefuses : State.reset.params.hasIsotime = true ∧ Printable Params.default july ∧
    Printable Params.default { epochTm with year := 8099 } ∧ ¬ Printable Params.default { epochTm with year := 8100 } ∧
    Printable Params.default { epochTm with mon := BitVec.ofInt 8 (-1) } ∧
    ¬ Printable Params.default { epochTm with mday := 100 } := by decide

theorem witness_PureOperationsDependOnOperandsAlone : pureOp (.gmtime 0) = true ∧
    State.reset.params = started.params := by decide

theorem witness_TickAdvancesWholeSeconds : State.reset.params.hasTickUnit = true ∧
    ((999 : Nat) - (State.reset.lastMs : Int)) % 2 ^ State.reset.params.msBits < 1000 ∧
    1000 ≤ ((1000 : Nat) - (State.reset.lastMs : Int)) % 2 ^ State.reset.params.msBits := by decide

theorem witness_TickKeepsTheRemainder : State.reset.params.hasTickUnit = true ∧
    ∃ t, exec (.tick 1999) State.reset = .next t := ⟨rfl, _, rfl⟩

theorem witness_TwoTicksCountAsOne : State.reset.params.hasTickUnit = true ∧
    ((1100 : Nat) - (State.reset.lastMs : Int)) % 2 ^ State.reset.params.msBits ≤
      ((2600 : Nat) - (State.reset.lastMs : Int)) % 2 ^ State.reset.params.msBits ∧
    (∃ t u, exec (.tick 1100) State.reset = .next t ∧ exec (.tick 2600) t = .next u) ∧
    ∃ v, exec (.tick 2600) State.reset = .next v :=
  ⟨rfl, by decide, ⟨_, _, rfl, rfl⟩, _, rfl⟩

theorem witness_SecondsReadAndWritten : State.reset.params.hasTickUnit = true ∧
    4294967295 < 2 ^ State.reset.params.epochBits := by decide

theorem witness_SetTimeTmIsMktimeThenSetTime : State.reset.params.hasTickUnit = true := rfl

theorem witness_GetTimeTmAddsTheZone : State.reset.params.hasTickUnit = true ∧
    InEpoch State.reset.params ((State.reset.seconds : Int) + State.reset.zone) := by decide

end Sys2Proof.Tests
end

section
/-! SUPPORT. What a step can do, said once: what it takes from the ports, the rows of the transition table, and the
changes an instruction is made of. The invariant is derived from these. -/

namespace Sys2Proof.Machine

variable {s s' t u : State}

/-! ## What is taken from the ports -/

/-- `s'` is `s` with some of the work held at its ports taken out and the turn counted. -/
def Taken (s s' : State) : Prop :=
  s' = { s with reqs := s'.reqs, ticks := s'.ticks, txn := s'.txn, turn := s'.turn }

/-- The work `w` starts from `s` but for what was taken from the ports. -/
def Work.StartsFrom (s : State) : Work → Prop
  | .reset => s.rst = true
  | .advance s' => Taken s s'
  | .tick _ s' => Taken s s'
  | .run _ s' => Taken s s'
  | .reject s' => Taken s s'
  | .stop _ => True
  | .wait => True

/-- Beside a TICK `fetchMain` changes the ports alone; `n` turns have been counted before it. -/
theorem fetchMain_startsFrom (s : State) (n : Nat) : (fetchMain { s with turn := n }).StartsFrom s := by
  unfold fetchMain
  split
  · exact rfl
  · split
    · split
      · exact rfl
      · trivial
    · split
      · trivial
      · split <;> exact rfl

theorem fetch_startsFrom (s : State) : (fetch s).StartsFrom s := by
  unfold fetch
  split
  · assumption
  · split
    · exact fetchMain_startsFrom s s.turn
    · split
      · split
        · exact rfl
        · exact fetchMain_startsFrom s (s.turn + 1)
      · exact rfl

/-- With the reset input low and no TICK waiting, the work is that of the other ports. -/
theorem fetch_eq_fetchMain (hr : s.rst = false) (ht : s.ticks = []) : fetch s = fetchMain s := by
  simp [fetch, hr, ht]

theorem fetchMain_of_busy (h : s.seq.ph ≠ .idle) : fetchMain s = .advance s := if_pos h

theorem fetchMain_of_txn {q : TxnReq} {i : Instr} (h : s.seq.ph = .idle) (hq : s.txn = some q)
    (hi : decodeTxn q = .ok i) : fetchMain s = .run i { s with txn := none } := by
  simp [fetchMain, h, hq, hi]

theorem fetchMain_of_req {r : HostReq} {rest : List HostReq} {i : Instr} (h : s.seq.ph = .idle)
    (hq : s.txn = none) (hr : s.reqs = r :: rest) (hi : decodeHost s.params r = .ok i) :
    fetchMain s = .run i { s with reqs := rest } := by
  simp [fetchMain, h, hq, hr, hi]

theorem fetchMain_of_nothing (h : s.seq.ph = .idle) (hq : s.txn = none) (hr : s.reqs = []) :
    fetchMain s = .wait := by
  simp [fetchMain, h, hq, hr]

theorem advance_next : advance s = .next t ↔ seqStep s = some t := by
  unfold advance
  cases seqStep s <;> simp

/-- A reading of the TICK port is a `TICK` whose response stands on that port. -/
theorem serveTick_next {ms : Nat} (h : serveTick ms s = .next t) :
    ∃ u, exec (.tick (readUnsigned s.params.msBits ms)) s = .next u ∧
      t = { u with resp := s.resp, tickResp := u.resp } := by
  unfold serveTick at h
  split at h
  · rename_i u hu
    exact ⟨u, hu, by simpa using h.symm⟩
  · cases h
  · cases h

/-! ## The rows of the transition table -/

/-- The phases that move a byte, bit by bit, through the sub-steps 0 to 3 (10_state.md R32). -/
def Phase.MovesBits (ph : Phase) : Prop := ph = .cmd ∨ ph = .data

/-- The rows of 41_protocol.md R152, each with the position it starts from and the state it leads to. -/
inductive SeqRow (s : State) : State → Prop
  | idle (hph : s.seq.ph = .idle) : SeqRow s s
  | drive (hph : s.seq.ph.MovesBits) (hsub : s.seq.sub.toNat = 0) : SeqRow s (seqDrive s)
  | sample (hph : s.seq.ph = .data) (hsub : s.seq.sub.toNat = 0) : SeqRow s (seqSample s)
  | rise (hph : s.seq.ph.MovesBits) (hsub : s.seq.sub.toNat = 1) : SeqRow s (seqRise s)
  | settle (hph : s.seq.ph.MovesBits) (hsub : s.seq.sub.toNat = 2) : SeqRow s (seqSettle s)
  | fall (hph : s.seq.ph.MovesBits) (hsub : s.seq.sub.toNat = 3) : SeqRow s (seqFall s)
  | turn (hph : s.seq.ph = .turn) (hsub : s.seq.sub.toNat = 0) : SeqRow s (seqTurn s)
  | down (hph : s.seq.ph = .down) (hsub : s.seq.sub.toNat = 0) : SeqRow s (seqDown s)
  | release (hph : s.seq.ph = .release) (hsub : s.seq.sub.toNat = 0) : SeqRow s (seqRelease s)

theorem seqStep_row (h : seqStep s = some t) : SeqRow s t := by
  have hlt := s.seq.sub.isLt
  have hsub : s.seq.sub.toNat = 0 ∨ s.seq.sub.toNat = 1 ∨ s.seq.sub.toNat = 2 ∨ s.seq.sub.toNat = 3 := by omega
  cases hph : s.seq.ph with
  | idle =>
    obtain rfl : s = t := by simpa [seqStep, hph] using h
    exact .idle hph
  | cmd =>
    rcases hsub with h0 | h1 | h2 | h3
    · obtain rfl : seqDrive s = t := by simpa [seqStep, hph, h0] using h
      exact .drive (.inl hph) h0
    · obtain rfl : seqRise s = t := by simpa [seqStep, hph, h1] using h
      exact .rise (.inl hph) h1
    · obtain rfl : seqSettle s = t := by simpa [seqStep, hph, h2] using h
      exact .settle (.inl hph) h2
    · obtain rfl : seqFall s = t := by simpa [seqStep, hph, h3] using h
      exact .fall (.inl hph) h3
  | turn =>
    rcases hsub with h0 | hn | hn | hn
    · obtain rfl : seqTurn s = t := by simpa [seqStep, hph, h0] using h
      exact .turn hph h0
    all_goals simp [seqStep, hph, hn] at h
  | data =>
    rcases hsub with h0 | h1 | h2 | h3
    · obtain rfl : (if s.regs.rw then seqSample s else seqDrive s) = t := by simpa [seqStep, hph, h0] using h
      split
      · exact .sample hph h0
      · exact .drive (.inr hph) h0
    · obtain rfl : seqRise s = t := by simpa [seqStep, hph, h1] using h
      exact .rise (.inr hph) h1
    · obtain rfl : seqSettle s = t := by simpa [seqStep, hph, h2] using h
      exact .settle (.inr hph) h2
    · obtain rfl : seqFall s = t := by simpa [seqStep, hph, h3] using h
      exact .fall (.inr hph) h3
  | down =>
    rcases hsub with h0 | hn | hn | hn
    · obtain rfl : seqDown s = t := by simpa [seqStep, hph, h0] using h
      exact .down hph h0
    all_goals simp [seqStep, hph, hn] at h
  | release =>
    rcases hsub with h0 | hn | hn | hn
    · obtain rfl : seqRelease s = t := by simpa [seqStep, hph, h0] using h
      exact .release hph h0
    all_goals simp [seqStep, hph, hn] at h

/-- What every row keeps: nothing but the wires, the sequencer and its registers changes, the pins and the peer follow
the events emitted, and the transaction's command byte and count stay. -/
structure SeqFrame (s t : State) : Prop where
  beside : SameBeside s t
  emitted : ∃ es, t.pins = s.pins.run es ∧ t.peer = s.peer.watch s.pins es ∧ t.trace = s.trace ++ es
  cmdb : t.regs.cmdb = s.regs.cmdb
  rw : t.regs.rw = s.regs.rw
  cnt : t.regs.cnt = s.regs.cnt

theorem seqFall_frame (s : State) : SeqFrame s (seqFall s) := by
  unfold seqFall seqAfterCmd seqAfterByte
  dsimp only
  split
  · exact ⟨rfl, ⟨[.toggleClk], rfl, rfl, rfl⟩, rfl, rfl, rfl⟩
  · split
    all_goals split
    all_goals exact ⟨rfl, ⟨[.toggleClk], rfl, rfl, rfl⟩, rfl, rfl, rfl⟩

theorem SeqRow.frame (h : SeqRow s t) : SeqFrame s t := by
  cases h with
  | idle => exact ⟨rfl, ⟨[], rfl, rfl, (List.append_nil _).symm⟩, rfl, rfl, rfl⟩
  | fall => exact seqFall_frame s
  | drive | sample | rise | settle | turn | down | release => exact ⟨rfl, ⟨_, rfl, rfl, rfl⟩, rfl, rfl, rfl⟩

/-! ## Positions of the sequencer -/

/-- What the pins and the registers are at each phase: `SeqInv` and `SeqReachable` read phase by phase. -/
def AtPhase (s : State) : Phase → Prop
  | .idle => s.pins.idle
  | .cmd => s.pins.cs = true ∧ s.pins.clk = clkAt s.seq.sub ∧ s.pins.dir = .out ∧
      s.seq.idx = 0 ∧ s.seq.idx.toNat < s.regs.cnt.toNat
  | .turn => s.pins.cs = true ∧ s.pins.clk = false ∧ s.pins.dir = .out ∧ s.regs.rw = true ∧
      s.seq.sub = 0 ∧ s.seq.idx = 0 ∧ s.seq.idx.toNat < s.regs.cnt.toNat
  | .data => s.pins.cs = true ∧ s.pins.clk = clkAt s.seq.sub ∧ s.pins.dir = dataDir s.regs.rw ∧
      s.seq.idx.toNat < s.regs.cnt.toNat
  | .down => s.pins.cs = true ∧ s.pins.clk = false ∧ s.pins.dir = dataDir s.regs.rw ∧ s.seq.sub = 0
  | .release => s.pins.cs = false ∧ s.pins.clk = false ∧ s.pins.dir = .inp ∧ s.regs.rw = true ∧ s.seq.sub = 0

theorem atPhase_iff : AtPhase s s.seq.ph ↔ SeqInv s ∧ SeqReachable s := by
  cases h : s.seq.ph <;> simp [AtPhase, SeqInv, SeqReachable, h] <;> tauto

/-- A step inside a bit: the position is right again if the clock is the one of the new sub-step. -/
theorem atPhase_of_subStep (hph : s.seq.ph.MovesBits) (hs : AtPhase s s.seq.ph)
    (hph' : t.seq.ph = s.seq.ph) (hidx : t.seq.idx = s.seq.idx) (hf : SeqFrame s t)
    (hcs : t.pins.cs = s.pins.cs) (hdir : t.pins.dir = s.pins.dir)
    (hclk : s.pins.clk = clkAt s.seq.sub → t.pins.clk = clkAt t.seq.sub) : AtPhase t t.seq.ph := by
  rcases hph with h | h
  · rw [h] at hs
    obtain ⟨h1, h2, h3, h4, h5⟩ := hs
    rw [hph', h]
    exact ⟨hcs.trans h1, hclk h2, hdir.trans h3, hidx.trans h4, by rwa [hidx, hf.cnt]⟩
  · rw [h] at hs
    obtain ⟨h1, h2, h3, h4⟩ := hs
    rw [hph', h]
    exact ⟨hcs.trans h1, hclk h2, by rw [hdir, h3, hf.rw], by rwa [hidx, hf.cnt]⟩

theorem seqAfterCmd_atPhase (s : State) (hcs : s.pins.cs = true) (hclk : s.pins.clk = false)
    (hdir : s.pins.dir = .out) (hcnt : 0 < s.regs.cnt.toNat) :
    AtPhase (seqAfterCmd s) (seqAfterCmd s).seq.ph := by
  unfold seqAfterCmd
  split
  · rename_i hrw
    exact ⟨hcs, hclk, hdir, hrw, rfl, rfl, hcnt⟩
  · rename_i hrw
    exact ⟨hcs, hclk, by simp [hdir, dataDir, hrw], hcnt⟩

theorem seqAfterByte_atPhase (s : State) (hcs : s.pins.cs = true) (hclk : s.pins.clk = false)
    (hdir : s.pins.dir = dataDir s.regs.rw) (hidx : s.seq.idx.toNat < s.regs.cnt.toNat) :
    AtPhase (seqAfterByte s) (seqAfterByte s).seq.ph := by
  unfold seqAfterByte
  dsimp only
  split
  · exact ⟨hcs, hclk, hdir, rfl⟩
  · rename_i hlast
    have hnext : (s.seq.idx + 1).toNat < s.regs.cnt.toNat := by bv_omega
    exact ⟨hcs, hclk, hdir, hnext⟩

theorem seqFall_atPhase (hph : s.seq.ph.MovesBits) (hsub : s.seq.sub.toNat = 3) (hs : AtPhase s s.seq.ph) :
    AtPhase (seqFall s) (seqFall s).seq.ph := by
  have hclk : s.pins.clk = clkAt s.seq.sub → (s.emit [.toggleClk]).pins.clk = false := by
    intro h
    simp [h, clkAt, hsub]
  by_cases hbit : s.seq.bit.toNat < 7
  · have he : seqFall s =
        { s.emit [.toggleClk] with seq := { s.seq with sub := 0, bit := s.seq.bit + 1 } } := if_pos hbit
    have hf := seqFall_frame s
    rw [he] at hf ⊢
    exact atPhase_of_subStep hph hs rfl rfl hf rfl rfl hclk
  · rcases hph with h | h
    · have he : seqFall s = seqAfterCmd (s.emit [.toggleClk]) := by simp [seqFall, hbit, h]
      rw [h] at hs
      obtain ⟨h1, h2, h3, h4, h5⟩ := hs
      rw [he]
      exact seqAfterCmd_atPhase _ h1 (hclk h2) h3 (Nat.zero_lt_of_lt h5)
    · have he : seqFall s = seqAfterByte (s.emit [.toggleClk]) := by simp [seqFall, hbit, h]
      rw [h] at hs
      obtain ⟨h1, h2, h3, h4⟩ := hs
      rw [he]
      exact seqAfterByte_atPhase _ h1 (hclk h2) h3 h4

/-- Every row leads from a position the pins agree with to another one. -/
theorem SeqRow.atPhase (h : SeqRow s t) (hs : AtPhase s s.seq.ph) : AtPhase t t.seq.ph := by
  have hf := h.frame
  cases h with
  | idle => exact hs
  | drive hph hsub =>
    exact atPhase_of_subStep hph hs rfl rfl hf rfl rfl fun hc => hc.trans (by simp [clkAt, hsub, seqDrive])
  | sample hph hsub =>
    exact atPhase_of_subStep (.inr hph) hs rfl rfl hf rfl rfl fun hc =>
      hc.trans (by simp [clkAt, hsub, seqSample, State.sample])
  | rise hph hsub =>
    exact atPhase_of_subStep hph hs rfl rfl hf rfl rfl fun hc => by simp [seqRise, hc, clkAt, hsub]
  | settle hph hsub =>
    exact atPhase_of_subStep hph hs rfl rfl hf rfl rfl fun hc => hc.trans (by simp [clkAt, hsub, seqSettle])
  | fall hph hsub => exact seqFall_atPhase hph hsub hs
  | turn hph =>
    rw [hph] at hs
    obtain ⟨hcs, hclk, _, hrw, _, hidx, hcnt⟩ := hs
    exact ⟨hcs, hclk, by simp [seqTurn, dataDir, hrw], Nat.zero_lt_of_lt hcnt⟩
  | down hph =>
    rw [hph] at hs
    obtain ⟨hcs, hclk, hdir, _⟩ := hs
    unfold seqDown
    split
    · rename_i hrw
      exact ⟨rfl, hclk, by simp [hdir, dataDir, hrw], hrw, rfl⟩
    · rename_i hrw
      exact ⟨rfl, hclk, by simp [hdir, dataDir, hrw]⟩
  | release hph =>
    rw [hph] at hs
    obtain ⟨hcs, hclk, _⟩ := hs
    exact ⟨hcs, hclk, rfl⟩

/-! ## The changes an instruction is made of -/

/-- A command byte formed by 30_encoding.md R92 has bit 7 set. -/
theorem cmdByte_bit7 (a : Byte) (dir : Direction) : (cmdByte a dir).getLsbD 7 = true := by
  cases dir <;> simp [cmdByte, Direction.bits]

theorem ramCmd_bit7 (a : Byte) (dir : Direction) : (ramCmd a dir).getLsbD 7 = true := cmdByte_bit7 _ dir

theorem clkBurstCmd_bit7 (dir : Direction) : (clkBurstCmd dir).getLsbD 7 = true := by cases dir <;> rfl

theorem ramBurstCmd_bit7 (dir : Direction) : (ramBurstCmd dir).getLsbD 7 = true := by cases dir <;> rfl

/-- `t` comes from `s` by the changes instructions are made of: a response, a write of a register within its width,
and whole transactions, each from the idle invariant and under a command byte with bit 7 set. -/
inductive Effect (s : State) : State → Prop
  | refl : Effect s s
  | respond {t : State} (r : Response) (h : Effect s t) : Effect s (t.respond r)
  | setZone {t : State} (z : Int) (hz : inSigned t.params.zoneBits z = true) (h : Effect s t) :
      Effect s { t with zone := z }
  | setDstEn {t : State} (d : Bool) (h : Effect s t) : Effect s { t with dstEn := d }
  | setSeconds {t : State} (n : Nat) (hn : n < 2 ^ t.params.epochBits) (h : Effect s t) :
      Effect s { t with seconds := n }
  | setLastMs {t : State} (n : Nat) (hn : n < 2 ^ t.params.msBits) (h : Effect s t) :
      Effect s { t with lastMs := n }
  | write {t : State} (c : Byte) (d : List Byte) (hc : c.getLsbD 7 = true) (hi : t.idle) (h : Effect s t) :
      Effect s (wrTxn c d t)
  | read {t : State} (c : Byte) (k : Nat) (hc : c.getLsbD 7 = true) (hi : t.idle) (h : Effect s t) :
      Effect s (rdTxn c k t).2

/-- A write transaction ends in the idle invariant it began in (41_protocol.md R159). -/
theorem wrTxn_idle (c : Byte) (d : List Byte) (h : s.idle) : (wrTxn c d s).idle := by
  obtain ⟨_, _, hclk, hdir⟩ := h
  have hp : (wrTxn c d s).pins.idle := by
    simp [wrTxn, run_append, run_byteWr, run_bytesWr, hclk, hdir]
  exact ⟨rfl, hp⟩

theorem rdTxn_idle (c : Byte) (k : Nat) (h : s.idle) : (rdTxn c k s).2.idle := by
  have hp : (rdTxn c k s).2.pins.idle := by
    rw [rdTxn_pins c k s h.2]
    exact ⟨rfl, rfl, rfl⟩
  exact ⟨rfl, hp⟩

theorem ramBurst_effect (d : List Byte) (h : s.idle) : Effect s (ramBurst d s) := by
  have hwp := cmdByte_bit7 wpAddr .write
  have hram := ramBurstCmd_bit7 .write
  unfold ramBurst
  split
  · exact .write _ _ hwp (wrTxn_idle _ _ (wrTxn_idle _ _ h))
      (.write _ _ hram (wrTxn_idle _ _ h) (.write _ _ hwp h .refl))
  · exact .write _ _ hram h .refl

/-- What answers the next state `u`, an effect of `s`, answers no other. -/
theorem Effect.of_next (h : Host.Outcome.next (φ := Fault) (ρ := Refusal) u = .next t) (hu : Effect s u) :
    Effect s t := by
  cases h
  exact hu

theorem Effect.of_onWire {f : State → State} (h : onWire s f = .next t) (hf : s.idle → Effect s (f s)) :
    Effect s t := by
  obtain ⟨hi, rfl⟩ := onWire_next h
  exact hf hi

theorem Effect.of_txnWrite {c : Byte} {d : List Byte} (h : txnWrite c d s = .next t) (hc : c.getLsbD 7 = true) :
    Effect s t :=
  .of_onWire h (.write c d hc · .refl)

theorem Effect.of_txnRead {c : Byte} {k : Nat} (h : txnRead c k s = .next t) (hc : c.getLsbD 7 = true) :
    Effect s t :=
  .of_onWire h (.read c k hc · .refl)

theorem Effect.of_withTickUnit {f : State → State} (h : withTickUnit s f = .next t) (hf : Effect s (f s)) :
    Effect s t := by
  unfold withTickUnit at h
  split at h
  · exact .of_next h hf
  · exact .of_next h (.respond _ .refl)

theorem tickState_effect (ms : Nat) (s : State) : Effect s (tickState ms s) := by
  unfold tickState
  dsimp only
  split
  · exact .respond _ .refl
  · exact .respond _ (.setLastMs _ (Nat.mod_lt _ (by positivity))
      (.setSeconds _ (Nat.mod_lt _ (by positivity)) .refl))

theorem mkLocal_lt (hook : Nat → Bool × Int) (p : Params) (zone : Int) (dstEn : Bool) (tm : Tm) :
    (mkLocal hook p zone dstEn tm).1 < 2 ^ p.epochBits := fit_lt p _

theorem wireWrite_effect (c : Byte) (d : List Byte) (r : Response) (hc : c.getLsbD 7 = true) (h : s.idle) :
    Effect s (wireWrite c d r s) := .respond _ (.write c d hc h .refl)

theorem wireRead_effect (c : Byte) (k : Nat) (r : List Byte → Response) (hc : c.getLsbD 7 = true) (h : s.idle) :
    Effect s (wireRead c k r s) := .respond _ (.read c k hc h .refl)

/-- Whatever an instruction does is such an effect. -/
theorem exec_effect (i : Instr) (h : exec i s = .next t) : Effect s t := by
  cases i with
  | toBcd | fromBcd | blkPack | blkUnpack => exact .of_next h (.respond _ .refl)
  | isLeap | daysToEpoch | mkGmtime | mktimeUtc | mktimeLocal | gmtime | localtime | getZone =>
    exact .of_next h (.respond _ .refl)
  | setZone zone => exact .of_next h (.respond _ (.setZone _ (wrapSigned_inSigned _ _) .refl))
  | setDst flag => exact .of_next h (.respond _ (.setDstEn _ .refl))
  | isotime tm =>
    simp only [exec, execIsotime] at h
    split at h
    · split at h <;> exact .of_next h (.respond _ .refl)
    · exact .of_next h (.respond _ .refl)
  | tick ms => exact .of_withTickUnit h (tickState_effect ms s)
  | getTime | getTimeTm =>
    simp only [exec, execGetTime, execGetTimeTm] at h
    exact .of_withTickUnit h (.respond _ .refl)
  | setTime n =>
    simp only [exec, execSetTime] at h
    exact .of_withTickUnit h (.respond _ (.setSeconds _ (Nat.mod_lt _ (by positivity)) .refl))
  | setTimeTm tm =>
    simp only [exec, execSetTimeTm] at h
    exact .of_withTickUnit h (.respond _ (.setSeconds _ (mkLocal_lt _ _ _ _ _) .refl))
  | regRd => exact .of_onWire h (wireRead_effect _ _ _ (cmdByte_bit7 _ _))
  | regWr => exact .of_onWire h (wireWrite_effect _ _ _ (cmdByte_bit7 _ _))
  | clkBurstRd | chipGetTime => exact .of_onWire h (wireRead_effect _ _ _ (clkBurstCmd_bit7 _))
  | clkBurstWr | chipSetTime => exact .of_onWire h (wireWrite_effect _ _ _ (clkBurstCmd_bit7 _))
  | wpSet => exact .of_onWire h (wireWrite_effect _ _ _ (cmdByte_bit7 _ _))
  | ramRd addr =>
    simp only [exec, execRamRd] at h
    split at h
    · exact .of_next h (.respond _ .refl)
    · exact .of_onWire h (wireRead_effect _ _ _ (ramCmd_bit7 _ _))
  | ramWr addr b =>
    simp only [exec, execRamWr] at h
    split at h
    · exact .of_next h (.respond _ .refl)
    · exact .of_onWire h (wireWrite_effect _ _ _ (ramCmd_bit7 _ _))
  | ramBurstRd size =>
    simp only [exec, execRamBurstRd] at h
    split at h
    · exact .of_next h (.respond _ .refl)
    · exact .of_onWire h (wireRead_effect _ _ _ (ramBurstCmd_bit7 _))
  | ramBurstWr size data =>
    simp only [exec, execRamBurstWr] at h
    split at h
    · exact .of_next h (.respond _ .refl)
    · split at h
      · cases h
      · exact .of_onWire h fun hi => .respond _ (ramBurst_effect _ hi)
  | wireClkBurstWr => exact .of_txnWrite h (clkBurstCmd_bit7 _)
  | wireClkBurstRd => exact .of_txnRead h (clkBurstCmd_bit7 _)
  | wireRamBurstWr data =>
    simp only [exec, execWireRamBurstWr] at h
    split at h
    · exact .of_txnWrite h (ramBurstCmd_bit7 _)
    · cases h
  | wireRamBurstRd cnt =>
    simp only [exec, execWireRamBurstRd] at h
    split at h
    · exact .of_txnRead h (ramBurstCmd_bit7 _)
    · cases h
  | wireClkWr => exact .of_txnWrite h (cmdByte_bit7 _ _)
  | wireClkRd => exact .of_txnRead h (cmdByte_bit7 _ _)
  | wireRamWr => exact .of_txnWrite h (ramCmd_bit7 _ _)
  | wireRamRd => exact .of_txnRead h (ramCmd_bit7 _ _)
  | wireNeverSent => cases h

end Sys2Proof.Machine
end

section
/-! SUPPORT. The invariant under every kind of change a step is made of. -/

namespace Sys2Proof.Machine

variable {s s' t : State}

/-- A change of the wires and the sequencer alone keeps the invariant where the new position agrees with the pins. -/
theorem inv_of_sameBeside (h : Inv s) (hsame : SameBeside s t) (hpos : AtPhase t t.seq.ph)
    (hrw : t.regs.rw = t.regs.cmdb.getLsbD 0) (hpeer : t.peer.wf = true) : Inv t := by
  obtain ⟨_, _, _, hzone, hsec, hms, _⟩ := h
  obtain ⟨hpins, hreach⟩ := atPhase_iff.1 hpos
  rw [hsame]
  exact ⟨hpins, hreach, hrw, hzone, hsec, hms, hpeer⟩

theorem inv_of_taken (h : Inv s) (ht : Taken s s') : Inv s' := by
  rw [ht]
  exact h

theorem inv_seqStep (h : Inv s) (hst : seqStep s = some t) : Inv t := by
  have hrow := seqStep_row hst
  obtain ⟨hsame, ⟨es, _, hpeer, _⟩, hcmdb, hrw, _⟩ := hrow.frame
  have ⟨hpins, hreach, hcmd, _, _, _, hwf⟩ := h
  refine inv_of_sameBeside h hsame (hrow.atPhase (atPhase_iff.2 ⟨hpins, hreach⟩)) ?_ ?_
  · rw [hrw, hcmdb, hcmd]
  · rw [hpeer]
    exact watch_wf _ _ _ hwf

theorem wrTxn_sameBeside (c : Byte) (d : List Byte) (s : State) : SameBeside s (wrTxn c d s) := rfl

theorem rdTxn_sameBeside (c : Byte) (k : Nat) (s : State) : SameBeside s (rdTxn c k s).2 := by
  rw [(rdTxn_spec c k s).2]
  rfl

theorem inv_wrTxn (c : Byte) (d : List Byte) (hi : s.idle) (h : Inv s) : Inv (wrTxn c d s) := by
  have ⟨_, _, _, _, _, _, hwf⟩ := h
  exact inv_of_sameBeside h (wrTxn_sameBeside c d s) (wrTxn_idle c d hi).2 rfl (watch_wf _ _ _ hwf)

theorem inv_rdTxn (c : Byte) (k : Nat) (hi : s.idle) (h : Inv s) : Inv (rdTxn c k s).2 := by
  have ⟨_, _, _, _, _, _, hwf⟩ := h
  refine inv_of_sameBeside h (rdTxn_sameBeside c k s) (rdTxn_idle c k hi).2 rfl ?_
  rw [(rdTxn_spec c k s).2]
  exact watch_wf _ _ _ hwf

theorem Effect.inv (he : Effect s t) (h : Inv s) : Inv t := by
  induction he with
  | refl => exact h
  | respond _ _ ih => exact ih
  | setDstEn _ _ ih => exact ih
  | setZone z hz _ ih =>
    obtain ⟨hpins, hreach, hrw, _, hsec, hms, hpeer⟩ := ih
    exact ⟨hpins, hreach, hrw, hz, hsec, hms, hpeer⟩
  | setSeconds n hn _ ih =>
    obtain ⟨hpins, hreach, hrw, hzone, _, hms, hpeer⟩ := ih
    exact ⟨hpins, hreach, hrw, hzone, hn, hms, hpeer⟩
  | setLastMs n hn _ ih =>
    obtain ⟨hpins, hreach, hrw, hzone, hsec, _, hpeer⟩ := ih
    exact ⟨hpins, hreach, hrw, hzone, hsec, hn, hpeer⟩
  | write c d _ hi _ ih => exact inv_wrTxn c d hi ih
  | read c k _ hi _ ih => exact inv_rdTxn c k hi ih

theorem inv_exec {i : Instr} (h : Inv s) (he : exec i s = .next t) : Inv t := (exec_effect i he).inv h

theorem inv_serveTick {ms : Nat} (h : Inv s) (he : serveTick ms s = .next t) : Inv t := by
  obtain ⟨u, hu, rfl⟩ := serveTick_next he
  have hinv : Inv u := inv_exec h hu
  exact hinv

/-- A reset brings the invariant about; of the state before it needs only the peer's bytes. -/
theorem inv_applyReset (hpeer : s.peer.wf = true) : Inv s.applyReset := by
  have hpos : AtPhase s.applyReset s.applyReset.seq.ph := ⟨rfl, rfl, rfl⟩
  obtain ⟨hpins, hreach⟩ := atPhase_iff.1 hpos
  have hzone : inSigned s.params.zoneBits 0 = true := by simp [inSigned]
  have hrw : s.applyReset.regs.rw = s.applyReset.regs.cmdb.getLsbD 0 := by
    simp [State.applyReset, TxnRegs.reset]
  have hsec : 0 < 2 ^ s.params.epochBits := by positivity
  have hms : 0 < 2 ^ s.params.msBits := by positivity
  exact ⟨hpins, hreach, hrw, hzone, hsec, hms, watch_wf _ _ _ hpeer⟩

end Sys2Proof.Machine
end

section
/-! SUPPORT. What is refused outside the idle invariant, and the operand checks that come before it. -/

namespace Sys2Proof.Machine

variable {s : State}

theorem onWire_of_not_idle (f : State → State) (h : ¬ s.idle) : onWire s f = .refused .pinsNotIdle := if_neg h

theorem txnWrite_of_not_idle (c : Byte) (d : List Byte) (h : ¬ s.idle) :
    txnWrite c d s = .refused .pinsNotIdle := onWire_of_not_idle _ h

theorem txnRead_of_not_idle (c : Byte) (k : Nat) (h : ¬ s.idle) :
    txnRead c k s = .refused .pinsNotIdle := onWire_of_not_idle _ h

theorem badAddr_eq_false {addr : Byte} (h : addr.toNat ≤ 30) : badAddr addr = false := by
  simp [badAddr, h]

theorem clampSize_ne_zero {size : Nat} (h : 0 < size) : clampSize size ≠ 0 := by
  unfold clampSize
  omega

end Sys2Proof.Machine
end

section
/-! CLAIMS. The statements about the state and the step. -/

namespace Sys2Proof.Machine

/-- Settles O10: whatever work the step takes, it starts from a state with the invariant, and each kind of work keeps
it. -/
theorem stepKeepsTheInvariant : Obligations.StepKeepsTheInvariant := by
  intro s t hs hst
  have hfrom := fetch_startsFrom s
  unfold step at hst
  cases hw : fetch s with
  | reset =>
    obtain ⟨_, _, _, _, _, _, hwf⟩ := hs
    rw [hw] at hst
    cases hst
    exact inv_applyReset hwf
  | advance s' =>
    rw [hw] at hfrom hst
    exact inv_seqStep (inv_of_taken hs hfrom) (advance_next.1 hst)
  | tick ms s' =>
    rw [hw] at hfrom hst
    exact inv_serveTick (inv_of_taken hs hfrom) hst
  | run i s' =>
    rw [hw] at hfrom hst
    exact inv_exec (inv_of_taken hs hfrom) hst
  | reject s' =>
    rw [hw] at hfrom hst
    cases hst
    have hinv : Inv s' := inv_of_taken hs hfrom
    exact hinv
  | stop r =>
    rw [hw] at hst
    cases hst
  | wait =>
    rw [hw] at hst
    cases hst
    exact hs

/-- Settles O6: with no reset and no TICK, `fetchMain` chooses the work, clause by clause. -/
theorem stepRunsTheDecodedInstruction : Obligations.StepRunsTheDecodedInstruction := by
  intro s hr ht
  have hf := fetch_eq_fetchMain hr ht
  refine ⟨?_, ?_, ?_, ?_⟩
  · intro q i hidle hq hi
    rw [step, hf, fetchMain_of_txn hidle hq hi]
  · intro r rest i hidle hq hreqs hi
    rw [step, hf, fetchMain_of_req hidle hq hreqs hi]
  · intro t hbusy hst
    rw [step, hf, fetchMain_of_busy hbusy]
    exact advance_next.2 hst
  · intro hidle hq hreqs
    rw [step, hf, fetchMain_of_nothing hidle hq hreqs]

/-- Settles O11: right after reset the machine is idle with every register 0, which its closed definition decides. -/
theorem resetHasTheInvariant : Obligations.ResetHasTheInvariant := by
  unfold Obligations.ResetHasTheInvariant
  decide

/-- Settles O36: each of these instructions is `onWire` of something once its own checks have passed. -/
theorem wireOperationsNeedTheIdleInvariant : Obligations.WireOperationsNeedTheIdleInvariant := by
  intro s hs
  have hwire : ∀ f, onWire s f = .refused .pinsNotIdle := fun f => onWire_of_not_idle f hs
  have hwrite : ∀ c d, txnWrite c d s = .refused .pinsNotIdle := fun c d => txnWrite_of_not_idle c d hs
  have hread : ∀ c k, txnRead c k s = .refused .pinsNotIdle := fun c k => txnRead_of_not_idle c k hs
  refine ⟨fun _ => hwire _, fun _ _ => hwire _, hwire _, fun _ => hwire _, ?ramRd, ?ramWr, ?ramBurstRd,
    fun _ => hwire _, hwire _, fun _ _ => hwire _, ?ramBurstWr, fun _ => hwrite _ _, hread _ _, ?wireRamBurstWr,
    ?wireRamBurstRd, fun _ _ => hwrite _ _, fun _ => hread _ _, fun _ _ => hwrite _ _, fun _ => hread _ _⟩
  case ramRd =>
    intro addr ha
    simp [exec, execRamRd, badAddr_eq_false ha, hwire]
  case ramWr =>
    intro addr b ha
    simp [exec, execRamWr, badAddr_eq_false ha, hwire]
  case ramBurstRd =>
    intro size hsize
    simp [exec, execRamBurstRd, clampSize_ne_zero hsize, hwire]
  case ramBurstWr =>
    intro size data hsize hdata
    have hlen : ¬ data.length < clampSize size := Nat.not_lt.2 hdata
    simp [exec, execRamBurstWr, clampSize_ne_zero hsize, hlen, hwire]
  case wireRamBurstWr =>
    intro d h1 h31
    exact (if_pos ⟨h1, h31⟩).trans (hwrite _ _)
  case wireRamBurstRd =>
    intro cnt hcnt
    exact (if_pos hcnt).trans (hread _ _)

end Sys2Proof.Machine
end

section
/-! SUPPORT. A byte on its way into the reference peer (20_memory.md R82): the eight bits gather in the shift register,
and the eighth completes the command byte or a data byte. -/

namespace Sys2Proof.Machine

/-- `sh` after the first `n` bits of `v` have been set in it, bit 0 first. -/
def setBits (sh v : Byte) : Nat → Byte
  | 0 => sh
  | n + 1 => setBit (setBits sh v n) n (v.getLsbD n)

/-- The reference peer after the first `n` bits of `v` have been shifted in. -/
def RefPeer.shiftBits (r : RefPeer) (v : Byte) : Nat → RefPeer
  | 0 => r
  | n + 1 => (r.shiftBits v n).shiftIn (v.getLsbD n)

theorem setBit_getLsbD (v : Byte) (l : Level) {i j : Nat} (hi : i < 8) (hj : j < 8) :
    (setBit v i l).getLsbD j = if j = i then l else v.getLsbD j := by
  by_cases e : j = i <;> cases l <;> simp [setBit, hi, hj, e]

theorem setBits_getLsbD (sh v : Byte) {n j : Nat} (hn : n ≤ 8) (hj : j < 8) :
    (setBits sh v n).getLsbD j = if j < n then v.getLsbD j else sh.getLsbD j := by
  induction n with
  | zero => simp [setBits]
  | succ n ih =>
    rw [setBits, setBit_getLsbD _ _ (by omega) hj, ih (by omega)]
    rcases lt_trichotomy j n with h | rfl | h
    · simp [h, h.ne, Nat.lt_succ_of_lt h]
    · simp
    · simp [h.ne', Nat.not_lt_of_gt h, Nat.not_lt.2 (Nat.succ_le_of_lt h)]

/-- Eight bits replace whatever the shift register held. -/
theorem setBits_eight (sh v : Byte) : setBits sh v 8 = v :=
  BitVec.eq_of_getLsbD_eq fun j hj => by rw [setBits_getLsbD sh v (le_refl 8) hj, if_pos hj]

@[simp] theorem shiftIn_inFrame (r : RefPeer) (l : Level) : (r.shiftIn l).inFrame = r.inFrame := by
  unfold RefPeer.shiftIn
  dsimp only
  split_ifs <;> rfl

/-- A bit that is not the eighth of its byte only goes into the shift register. -/
theorem shiftIn_of_incomplete {r : RefPeer} (l : Level) (h : (r.nbits + 1) % 8 ≠ 0) :
    r.shiftIn l = { r with sh := setBit r.sh (r.nbits % 8) l, nbits := r.nbits + 1 } := if_pos h

/-- Fewer than eight bits after a byte boundary only go into the shift register. -/
theorem shiftBits_of_lt_eight {r : RefPeer} (v : Byte) {n : Nat} (hr : r.nbits % 8 = 0) (hn : n < 8) :
    r.shiftBits v n = { r with sh := setBits r.sh v n, nbits := r.nbits + n } := by
  induction n with
  | zero => rfl
  | succ n ih =>
    have hpos : (r.nbits + n) % 8 = n := by omega
    have hinc : (r.nbits + n + 1) % 8 ≠ 0 := by omega
    rw [RefPeer.shiftBits, ih (by omega), shiftIn_of_incomplete _ hinc]
    simp [setBits, hpos, Nat.add_assoc]

/-- The first byte of a transaction becomes the command byte, and the protection state is sampled (R83). -/
theorem shiftBits_command {r : RefPeer} (v : Byte) (hr : r.nbits = 0) :
    r.shiftBits v 8 = { r with sh := 0, nbits := 8, cmd := v, prot := r.protectedNow } := by
  have hv : setBit (setBits r.sh v 7) 7 (v.getLsbD 7) = v := setBits_eight r.sh v
  rw [RefPeer.shiftBits, shiftBits_of_lt_eight v (by omega) (by decide)]
  simp only [RefPeer.shiftIn, hr, Nat.zero_add, Nat.reduceMod, Nat.reduceAdd, hv]
  rfl

/-- A later byte of a write transaction is stored as data byte `k` (R83). -/
theorem shiftBits_data {r : RefPeer} (v : Byte) {k : Nat} (hr : r.nbits = 8 * (k + 1))
    (h7 : r.cmd.getLsbD 7 = true) (h0 : r.cmd.getLsbD 0 = false) :
    r.shiftBits v 8 = { r with sh := 0, nbits := 8 * (k + 2), mem := r.store k v } := by
  have hv : setBit (setBits r.sh v 7) 7 (v.getLsbD 7) = v := setBits_eight r.sh v
  have hpos : (8 * (k + 1) + 7) % 8 = 7 := by omega
  have hn : 8 * (k + 1) + 7 + 1 = 8 * (k + 2) := by omega
  have hk : 8 * (k + 2) / 8 - 2 = k := by omega
  have hne : ¬ 8 * (k + 2) = 8 := by omega
  rw [RefPeer.shiftBits, shiftBits_of_lt_eight v (by omega) (by decide)]
  simp only [RefPeer.shiftIn, hr, hpos, hn, hv, hk, h7, h0, hne, Nat.mul_mod_right]
  rfl

/-! ## The events of a byte written -/

variable {r : RefPeer} {p : Pins}

theorem run_bitWr (p : Pins) (l : Level) : p.run (bitWr l) = { p with latch := l } := by simp [bitWr]

/-- The rising edge of `bit_wr(l)` shifts `l` in, as the data pin stands at `l` by then. -/
theorem watch_bitWr (l : Level) (hf : r.inFrame = true) (hclk : p.clk = false) :
    (Peer.reference r).watch p (bitWr l) = .reference (r.shiftIn l) := by
  simp [bitWr, Peer.observe, RefPeer.observe, hf, hclk]

theorem watch_byteWr (v : Byte) (hf : r.inFrame = true) (hclk : p.clk = false) :
    (Peer.reference r).watch p (byteWr v) = .reference (r.shiftBits v 8) := by
  simp [byteWr, watch_append, run_bitWr, watch_bitWr, RefPeer.shiftBits, hf, hclk]

/-- Once chip-select has risen and the command byte is out, the reference peer is at the first data byte of a
transaction under that command, its bytes as they were. -/
theorem watch_command (c : Byte) (hclk : p.clk = false) :
    (Peer.reference r).watch p (.writeCs true :: byteWr c) =
      .reference ⟨r.mem, true, 8, 0, c, r.protectedNow, 0⟩ := by
  have hraised : r.observe p (.writeCs true) = ⟨r.mem, true, 0, 0, 0, false, 0⟩ := rfl
  have hclk' : (p.after (.writeCs true)).clk = false := hclk
  rw [watch_cons, Peer.observe, hraised, watch_byteWr c rfl hclk', shiftBits_command c rfl]
  rfl

end Sys2Proof.Machine
end

section
/-! SUPPORT. The bytes of the reference peer after a write transaction (20_memory.md R83). -/

namespace Sys2Proof.Machine

variable {r : RefPeer} {p : Pins}

/-- The bytes of `r'` are those of `r` after the data bytes `d`, the first of them data byte `k` of a transaction. -/
structure WrittenFrom (r : RefPeer) (k : Nat) (d : List Byte) (r' : RefPeer) : Prop where
  wf : Mem.wf r'.mem = true
  kept : ∀ a, (∀ i, i < d.length → r.target (k + i) ≠ some a) → Mem.read r'.mem a = Mem.read r.mem a
  stored : ∀ i a, (h : i < d.length) → r.target (k + i) = some a → a = 7 ∨ r.prot = false → Mem.read r'.mem a = d[i]

/-- Each data byte of a transaction has a place of its own. -/
theorem target_injective {a i j : Nat} (hi : r.target i = some a) (hj : r.target j = some a) : i = j := by
  by_cases h31 : r.addr = 31
  · simp [RefPeer.target, h31] at hi hj
    omega
  by_cases h63 : r.addr = 63
  · simp [RefPeer.target, h63] at hi hj
    omega
  simp [RefPeer.target, h31, h63] at hi hj
  omega

theorem store_wf (k : Nat) (v : Byte) (hwf : Mem.wf r.mem = true) : Mem.wf (r.store k v) = true := by
  unfold RefPeer.store
  split
  · split_ifs
    · exact mem_write_wf _ v hwf
    · exact hwf
  · exact hwf

theorem read_store_of_target {k a : Nat} (v : Byte) (hwf : Mem.wf r.mem = true) (ha : r.target k = some a)
    (hp : a = 7 ∨ r.prot = false) : Mem.read (r.store k v) a = v := by
  simp [RefPeer.store, ha, hp, mem_read_write a v a hwf]

theorem read_store_of_target_ne {k a : Nat} (v : Byte) (hwf : Mem.wf r.mem = true) (ha : r.target k ≠ some a) :
    Mem.read (r.store k v) a = Mem.read r.mem a := by
  unfold RefPeer.store
  split
  · rename_i b hb
    have hne : a ≠ b := fun e => ha (e ▸ hb)
    split_ifs
    · rw [mem_read_write b v a hwf, if_neg hne]
    · rfl
  · rfl

/-- The data bytes of a write transaction go to their places, one after the other. -/
theorem watch_bytesWr (d : List Byte) {k : Nat} (hf : r.inFrame = true) (hclk : p.clk = false)
    (hn : r.nbits = 8 * (k + 1)) (h7 : r.cmd.getLsbD 7 = true) (h0 : r.cmd.getLsbD 0 = false)
    (hwf : Mem.wf r.mem = true) :
    ∃ r', (Peer.reference r).watch p (bytesWr d) = .reference r' ∧ WrittenFrom r k d r' := by
  induction d generalizing r p k with
  | nil => exact ⟨r, rfl, hwf, fun _ _ => rfl, fun _ _ h => absurd h (Nat.not_lt_zero _)⟩
  | cons v d ih =>
    have hshift := shiftBits_data v hn h7 h0
    have hwf1 := store_wf (r := r) k v hwf
    obtain ⟨r', hwatch, hw⟩ := ih (r := { r with sh := 0, nbits := 8 * (k + 2), mem := r.store k v })
      (p := { p with latch := v.getLsbD 7 }) hf hclk rfl h7 h0 hwf1
    have hlast : ∀ a, (∀ i, i < d.length → r.target (k + 1 + i) ≠ some a) →
        Mem.read r'.mem a = Mem.read (r.store k v) a := hw.kept
    refine ⟨r', ?_, hw.wf, ?_, ?_⟩
    · have hcons : bytesWr (v :: d) = byteWr v ++ bytesWr d := rfl
      rw [hcons, watch_append, watch_byteWr v hf hclk, run_byteWr, hshift, hwatch]
    · intro a ha
      rw [hlast a fun i hi => by simpa [Nat.add_assoc, Nat.add_comm 1] using ha (i + 1) (by simpa using hi)]
      exact read_store_of_target_ne v hwf (ha 0 (by simp))
    · intro i a hi ha hp
      cases i with
      | zero =>
        rw [hlast a fun i _ hi => by have := target_injective ha hi; omega]
        exact read_store_of_target v hwf ha hp
      | succ i =>
        have ha' : r.target (k + 1 + i) = some a := by simpa [Nat.add_assoc, Nat.add_comm 1] using ha
        exact hw.stored i a (by simpa using hi) ha' hp

/-- A write transaction to an unprotected reference peer leaves every data byte at its place. -/
theorem wrTxn_stores {s : State} {c : Byte} (d : List Byte) (hclk : s.pins.clk = false)
    (hpeer : s.peer = .reference r) (hwf : Mem.wf r.mem = true) (hprot : (Mem.read r.mem 7).getLsbD 7 = false)
    (h7 : c.getLsbD 7 = true) (h0 : c.getLsbD 0 = false) :
    ∃ r', (wrTxn c d s).peer = .reference r' ∧
      ∀ i a, (h : i < d.length) → placeOf c i = some a → Mem.read r'.mem a = d[i] := by
  have hrun : s.pins.run (.writeCs true :: byteWr c) = { s.pins with cs := true, latch := c.getLsbD 7 } := by
    simp [run_byteWr]
  obtain ⟨r', hwatch, hw⟩ := watch_bytesWr (r := ⟨r.mem, true, 8, 0, c, r.protectedNow, 0⟩)
    (p := s.pins.run (.writeCs true :: byteWr c)) (k := 0) d rfl (by rw [hrun]; exact hclk) rfl h7 h0 hwf
  have hsplit : PinEvent.writeCs true :: (byteWr c ++ bytesWr d ++ [.writeCs false]) =
      (.writeCs true :: byteWr c) ++ bytesWr d ++ [.writeCs false] := by simp
  refine ⟨{ r' with inFrame := false }, ?_, fun i a hi ha => hw.stored i a hi (by rwa [Nat.zero_add]) (.inr hprot)⟩
  rw [wrTxn, finish_peer, emit_peer, hsplit, watch_append, watch_append, hpeer, watch_command c hclk, hwatch]
  rfl

end Sys2Proof.Machine
end

section
/-! SUPPORT. The bytes the reference peer presents in a read transaction (20_memory.md R84). -/

namespace Sys2Proof.Machine

variable {s : State} {c : Byte} {m : Mem} {n : Nat}

/-- Data byte `k` of a read transaction under `c`, presented by a reference peer with the bytes `m`. -/
def presented (c : Byte) (m : Mem) (k : Nat) : Byte :=
  match placeOf c k with
  | some a => Mem.read m a
  | none => 0

/-- The reference peer is past the command byte `c` of a transaction, its bytes are `m`, and it has been sampled `n`
times. -/
structure RefPeer.Presents (r : RefPeer) (c : Byte) (m : Mem) (n : Nat) : Prop where
  inFrame : r.inFrame = true
  cmd : r.cmd = c
  mem : r.mem = m
  nread : r.nread = n
  nbits : 8 ≤ r.nbits

/-- The block is between two bits, and a reference peer presents on the data wire. -/
def Presenting (c : Byte) (m : Mem) (n : Nat) (s : State) : Prop :=
  s.pins.clk = false ∧ ∃ r, s.peer = .reference r ∧ r.Presents c m n

/-- A clock edge in a read transaction counts and changes nothing of what is presented. -/
theorem RefPeer.Presents.shiftIn {r : RefPeer} (h : r.Presents c m n) (l : Level) (h0 : c.getLsbD 0 = true) :
    (r.shiftIn l).Presents c m n := by
  obtain ⟨hf, rfl, rfl, rfl, hn⟩ := h
  have hn1 : r.nbits + 1 ≠ 8 := by omega
  have hle : 8 ≤ r.nbits + 1 := by omega
  simp only [RefPeer.shiftIn, h0, hn1, if_false, Bool.not_true, Bool.and_false, Bool.false_eq_true]
  split_ifs
  · exact ⟨hf, rfl, rfl, rfl, hle⟩
  · exact ⟨hf, rfl, rfl, rfl, hle⟩

theorem RefPeer.Presents.answer {r : RefPeer} (h : r.Presents c m n) (h7 : c.getLsbD 7 = true)
    (h0 : c.getLsbD 0 = true) : r.answer = some ((presented c m (n / 8)).getLsbD (n % 8)) := by
  obtain ⟨hf, rfl, rfl, rfl, hn⟩ := h
  have hplace : placeOf r.cmd (r.nread / 8) = r.target (r.nread / 8) := rfl
  simp only [RefPeer.answer, hf, h7, h0, presented, hplace]
  cases r.target (r.nread / 8) <;> simp

theorem Presenting.level (h : Presenting c m n s) (h7 : c.getLsbD 7 = true) (h0 : c.getLsbD 0 = true) :
    s.level = (presented c m (n / 8)).getLsbD (n % 8) := by
  obtain ⟨_, r, hpeer, hr⟩ := h
  simp [State.level, hpeer, Peer.answer, hr.answer h7 h0]

/-- A bit read takes the level presented and moves on to the next (R84; 41_protocol.md R144). -/
theorem Presenting.bitRd (h : Presenting c m n s) (h7 : c.getLsbD 7 = true) (h0 : c.getLsbD 0 = true) :
    s.bitRd.1 = (presented c m (n / 8)).getLsbD (n % 8) ∧ Presenting c m (n + 1) s.bitRd.2 := by
  rw [bitRd_spec]
  refine ⟨h.level h7 h0, ?_⟩
  obtain ⟨hclk, r, hpeer, hf, hcmd, hmem, hread, hbits⟩ := h
  have hsampled : { r with nread := r.nread + 1 }.Presents c m (n + 1) := ⟨hf, hcmd, hmem, by rw [hread], hbits⟩
  refine ⟨by simpa using hclk, _, ?_, hsampled.shiftIn s.pins.latch h0⟩
  simp [hpeer, Peer.observe, RefPeer.observe, hf, hclk]

theorem Presenting.bitsRd (j : Nat) (h : Presenting c m n s) (h7 : c.getLsbD 7 = true) (h0 : c.getLsbD 0 = true) :
    (State.bitsRd j s).1 = (List.range' n j).map (fun i => (presented c m (i / 8)).getLsbD (i % 8)) ∧
      Presenting c m (n + j) (State.bitsRd j s).2 := by
  induction j generalizing s n with
  | zero => exact ⟨rfl, h⟩
  | succ j ih =>
    obtain ⟨hbit, hnext⟩ := h.bitRd h7 h0
    obtain ⟨hbits, hlast⟩ := ih hnext
    have hcount : n + 1 + j = n + (j + 1) := by omega
    refine ⟨?_, hcount ▸ hlast⟩
    rw [List.range'_succ, List.map_cons, ← hbit, ← hbits]
    rfl

/-- A byte read from a byte boundary is the byte presented. -/
theorem Presenting.byteRd {k : Nat} (h : Presenting c m (8 * k) s) (h7 : c.getLsbD 7 = true)
    (h0 : c.getLsbD 0 = true) :
    s.byteRd.1 = presented c m k ∧ Presenting c m (8 * (k + 1)) s.byteRd.2 := by
  obtain ⟨hbits, hnext⟩ := h.bitsRd 8 h7 h0
  refine ⟨BitVec.eq_of_getLsbD_eq fun i hi => ?_, hnext⟩
  have hbyte : s.byteRd.1 = byteOfLevels (State.bitsRd 8 s).1 := rfl
  have hdiv : (8 * k + i) / 8 = k := by omega
  have hmod : (8 * k + i) % 8 = i := by omega
  rw [hbyte, byteOfLevels_bits _ (bitsRd_spec 8 s).1 i hi]
  simp [hbits, hdiv, hmod]

theorem Presenting.bytesRd (j : Nat) {k : Nat} (h : Presenting c m (8 * k) s) (h7 : c.getLsbD 7 = true)
    (h0 : c.getLsbD 0 = true) : (State.bytesRd j s).1 = (List.range' k j).map (presented c m) := by
  induction j generalizing s k with
  | zero => rfl
  | succ j ih =>
    obtain ⟨hbyte, hnext⟩ := h.byteRd h7 h0
    rw [List.range'_succ, List.map_cons, ← hbyte, ← ih hnext]
    rfl

/-- A read transaction samples the bytes the reference peer presents, in order. -/
theorem rdTxn_presented {r : RefPeer} (k : Nat) (hclk : s.pins.clk = false) (hpeer : s.peer = .reference r)
    (h7 : c.getLsbD 7 = true) (h0 : c.getLsbD 0 = true) :
    (rdTxn c k s).1 = (List.range k).map (presented c r.mem) := by
  have hsplit : PinEvent.writeCs true :: (byteWr c ++ [.setInDat]) = (.writeCs true :: byteWr c) ++ [.setInDat] := rfl
  have hstart : Presenting c r.mem (8 * 0) (s.emit (.writeCs true :: (byteWr c ++ [.setInDat]))) := by
    refine ⟨by simpa [run_append, run_byteWr] using hclk, ⟨r.mem, true, 8, 0, c, r.protectedNow, 0⟩, ?_,
      rfl, rfl, rfl, rfl, le_refl 8⟩
    rw [emit_peer, hsplit, watch_append, hpeer, watch_command c hclk]
    rfl
  rw [List.range_eq_range']
  exact hstart.bytesRd k h7 h0

end Sys2Proof.Machine
end

section
/-! CLAIMS. The statement about the reference peer's bytes. -/

namespace Sys2Proof.Machine

theorem placeOf_clkBurst (dir : Direction) {i : Nat} (hi : i < 8) : placeOf (clkBurstCmd dir) i = some i := by
  have haddr : cmdAddr (clkBurstCmd dir) = 31 := by cases dir <;> rfl
  simp [placeOf, RefPeer.target, RefPeer.addr, haddr, Nat.le_of_lt_succ hi]

theorem blk_ofList_toList (k : Blk) : Blk.ofList k.toList = k := rfl

theorem wireWrite_idle {s : State} (c : Byte) (d : List Byte) (r : Response) (h : s.idle) :
    (wireWrite c d r s).idle := by
  obtain ⟨hph, hpins⟩ := wrTxn_idle c d h
  exact ⟨hph, hpins⟩

/-- Settles O39: byte `i` of the block goes to register `i`, as the protection is sampled before byte 7 arrives, and the
read presents register `i` as byte `i`. -/
theorem blockLoopBack : Obligations.BlockLoopBack := by
  intro s t r k hs hpeer hwf hprot hwr
  obtain ⟨_, _, hclk, _⟩ := hs
  obtain ⟨hidle, ht⟩ := onWire_next hwr
  have htidle : t.idle := by
    rw [ht]
    exact wireWrite_idle _ _ _ hidle
  have ⟨_, _, htclk, _⟩ := htidle
  obtain ⟨r', hwritten, hstored⟩ := wrTxn_stores (c := clkBurstCmd .write) k.toList hclk hpeer hwf hprot rfl rfl
  have htpeer : t.peer = .reference r' := by rw [ht, wireWrite, respond_peer, hwritten]
  have hread := rdTxn_presented (c := clkBurstCmd .read) 8 htclk htpeer rfl rfl
  have hblk : (List.range 8).map (presented (clkBurstCmd .read) r'.mem) = k.toList := by
    refine List.ext_getElem rfl fun i hi hi' => ?_
    have hi8 : i < 8 := hi'
    rw [List.getElem_map, List.getElem_range, presented, placeOf_clkBurst .read hi8]
    exact hstored i i hi' (placeOf_clkBurst .write hi8)
  refine ⟨_, onWire_of_idle _ htidle, ?_⟩
  rw [wireRead, respond_resp, hread, hblk, blk_ofList_toList]

end Sys2Proof.Machine
end

section
/-! SUPPORT. The encodings read back: the host operation codes (30_encoding.md R101), the fields of the command bytes
(R90 to R94), and which start requests have a row (R96). -/

namespace Sys2Proof.Machine

/-! ## The host operation codes -/

/-- A code of the table of 30_encoding.md R101 decodes to an instruction of that code. The operand `local` chooses
between the two rows of `MKTIME`, which share theirs. -/
theorem decodeHost_of_mem {p : Params} {r : HostReq} (h : r.op.toNat ∈ hostCodes) :
    ∃ i, decodeHost p r = .ok i ∧ opCodeOf i = some r.op.toNat := by
  simp only [hostCodes, List.mem_cons, List.not_mem_nil, or_false] at h
  unfold decodeHost
  rcases h with h | h | h | h | h | h | h | h | h | h | h | h | h | h | h | h | h | h | h | h | h | h | h | h | h | h |
    h | h | h | h
  all_goals
    rw [h]
    refine ⟨_, rfl, ?_⟩
    cases r.isLocal <;> rfl

/-- Any other code is rejected by its number. -/
theorem decodeHost_of_not_mem {p : Params} {r : HostReq} (h : r.op.toNat ∉ hostCodes) :
    decodeHost p r = .error (.badOp r.op) := by
  unfold decodeHost
  split
  case h_31 => rfl
  all_goals
    rename_i hop
    exact absurd (hop ▸ by decide) h

/-! ## The fields of a command byte -/

/-- Bit 0 of a command byte is its direction (30_encoding.md R90). -/
theorem cmdByte_bit0 (a : Byte) (dir : Direction) : (cmdByte a dir).getLsbD 0 = decide (dir = .read) := by
  cases dir <;> simp [cmdByte, Direction.bits]

theorem ramCmd_bit0 (a : Byte) (dir : Direction) : (ramCmd a dir).getLsbD 0 = decide (dir = .read) :=
  cmdByte_bit0 _ dir

theorem clkBurstCmd_bit0 (dir : Direction) : (clkBurstCmd dir).getLsbD 0 = decide (dir = .read) := by
  cases dir <;> rfl

theorem ramBurstCmd_bit0 (dir : Direction) : (ramBurstCmd dir).getLsbD 0 = decide (dir = .read) := by
  cases dir <;> rfl

/-- Bits 6 to 1 of a command byte are the low six bits of the address (30_encoding.md R90, R92). -/
theorem cmdAddr_cmdByte (a : Byte) (dir : Direction) : cmdAddr (cmdByte a dir) = a.toNat % 64 := by
  cases dir <;> revert a <;> decide

theorem cmdAddr_cmdByte_clk (a : BitVec 5) (dir : Direction) :
    cmdAddr (cmdByte (a.setWidth 8) dir) = a.toNat := by
  rw [cmdAddr_cmdByte]
  bv_omega

theorem cmdAddr_ramCmd (a : BitVec 5) (dir : Direction) : cmdAddr (ramCmd (a.setWidth 8) dir) = 32 + a.toNat := by
  rw [ramCmd, cmdAddr_cmdByte, ramBase]
  bv_omega

theorem cmdAddr_ramBurstCmd (dir : Direction) : cmdAddr (ramBurstCmd dir) = 63 := by cases dir <;> rfl

/-- A command byte of another address than 63 does not open a memory burst (30_encoding.md R93). -/
theorem ne_ramBurstCmd {c : Byte} (dir : Direction) (h : cmdAddr c ≠ 63) : c ≠ ramBurstCmd dir :=
  fun e => h (e ▸ cmdAddr_ramBurstCmd dir)

/-- The command byte of a device address of five bits is `0x80 + 2a`, with bit 0 for a read (30_encoding.md R92). -/
theorem cmdByte_clk_eq (a : BitVec 5) : cmdByte (a.setWidth 8) .write = BitVec.ofNat 8 (0x80 + 2 * a.toNat) ∧
    cmdByte (a.setWidth 8) .read = BitVec.ofNat 8 (0x81 + 2 * a.toNat) := by
  revert a
  decide

/-- The command byte of a memory address of five bits is `0xC0 + 2a`, with bit 0 for a read (30_encoding.md R94). -/
theorem ramCmd_eq (a : BitVec 5) : ramCmd (a.setWidth 8) .write = BitVec.ofNat 8 (0xC0 + 2 * a.toNat) ∧
    ramCmd (a.setWidth 8) .read = BitVec.ofNat 8 (0xC1 + 2 * a.toNat) := by
  revert a
  decide

/-! ## Which start requests have a row -/

theorem oneByte_eq_some {q : TxnReq} {b : Byte} (h : oneByte q = some b) : q.data = [b] ∧ q.cnt = 1 := by
  unfold oneByte at h
  split at h
  · rename_i hd
    split at h
    · rename_i hc
      cases h
      exact ⟨hd, hc⟩
    · cases h
  · cases h

theorem eightBytes_eq_some {q : TxnReq} {k : Blk} (h : eightBytes q = some k) : q.data = k.toList ∧ q.cnt = 8 := by
  unfold eightBytes at h
  split at h
  · rename_i hd
    split at h
    · rename_i hc
      cases h
      exact ⟨hd, hc⟩
    · cases h
  · cases h

/-- A write command with a row has the data and the count some operation gives it (30_encoding.md R96). -/
theorem fitsCommand_of_decodeWrite {q : TxnReq} {i : Instr} (h0 : q.cmd.getLsbD 0 = false)
    (h : decodeWrite q = some i) : FitsCommand q := by
  rw [FitsCommand, if_neg (Bool.eq_false_iff.1 h0)]
  unfold decodeWrite at h
  split at h
  · rename_i hcmd
    split at h
    · rename_i hlen
      obtain ⟨h1, _, hcnt⟩ := hlen
      exact ⟨hcnt, .inr (.inr ⟨hcmd, h1⟩)⟩
    · cases h
  · split at h
    · rename_i h8
      obtain ⟨hd, hc⟩ := eightBytes_eq_some h8
      split at h
      · rename_i hcmd
        exact ⟨by rw [hd, hc]; rfl, .inr (.inl ⟨hcmd, by rw [hd]; rfl⟩)⟩
      · cases h
    · rename_i h1
      obtain ⟨hd, hc⟩ := oneByte_eq_some h1
      exact ⟨by rw [hd, hc]; rfl, .inl (by rw [hd]; rfl)⟩
    · cases h

/-- A read command with a row carries no data and has the count some operation gives it (30_encoding.md R96). -/
theorem fitsCommand_of_decodeRead {q : TxnReq} {i : Instr} (h0 : q.cmd.getLsbD 0 = true)
    (h : decodeRead q = some i) : FitsCommand q := by
  rw [FitsCommand, if_pos h0]
  unfold decodeRead at h
  split at h
  · cases h
  · rename_i hdc
    obtain ⟨hd, hc⟩ : q.data = [] ∧ q.cnt ≠ 0 := by simpa using hdc
    refine ⟨hd, ?_⟩
    split at h
    · rename_i hcmd
      exact .inr (.inr ⟨hcmd, hc⟩)
    · split at h
      · rename_i h8
        split at h
        · rename_i hcmd
          exact .inr (.inl ⟨hcmd, h8⟩)
        · cases h
      · split at h
        · rename_i h1
          exact .inl h1
        · cases h

theorem decodeTxn_of_decodeWrite {q : TxnReq} {i : Instr} (h7 : q.cmd.getLsbD 7 = true)
    (h0 : q.cmd.getLsbD 0 = false) (h : decodeWrite q = some i) : decodeTxn q = .ok i := by
  rw [decodeTxn, if_pos h7, if_neg (Bool.eq_false_iff.1 h0), h]

theorem decodeTxn_of_decodeRead {q : TxnReq} {i : Instr} (h7 : q.cmd.getLsbD 7 = true)
    (h0 : q.cmd.getLsbD 0 = true) (h : decodeRead q = some i) : decodeTxn q = .ok i := by
  rw [decodeTxn, if_pos h7, if_pos h0, h]

/-- A start request whose command byte can be sent, and that does not fit it, names no row. -/
theorem decodeTxn_of_not_fits {q : TxnReq} (h7 : q.cmd.getLsbD 7 = true) (hq : ¬ FitsCommand q) :
    decodeTxn q = .error (.badTxn q.cmd) := by
  have hnone : (if q.cmd.getLsbD 0 then decodeRead q else decodeWrite q) = none := by
    refine Option.eq_none_iff_forall_ne_some.2 fun i hi => hq ?_
    split at hi
    · rename_i h0
      exact fitsCommand_of_decodeRead h0 hi
    · rename_i h0
      exact fitsCommand_of_decodeWrite (by simpa using h0) hi
  rw [decodeTxn, if_pos h7, hnone]

/-! ## Requests that name nothing, at the step -/

variable {s : State}

theorem fetchMain_of_badTxn {q : TxnReq} {e : DecodeError} (h : s.seq.ph = .idle) (hq : s.txn = some q)
    (he : decodeTxn q = .error e) : fetchMain s = .stop .badTransaction := by
  simp [fetchMain, h, hq, he]

theorem fetchMain_of_badReq {r : HostReq} {rest : List HostReq} {e : DecodeError} (h : s.seq.ph = .idle)
    (hq : s.txn = none) (hr : s.reqs = r :: rest) (he : decodeHost s.params r = .error e) :
    fetchMain s = .reject { s with reqs := rest } := by
  simp [fetchMain, h, hq, hr, he]

/-- A start request that does not fit its command byte stops the step. -/
theorem step_of_not_fits {q : TxnReq} (hs : AtStart s q) (h7 : q.cmd.getLsbD 7 = true) (hq : ¬ FitsCommand q) :
    step s = .refused .badTransaction := by
  obtain ⟨hr, ht, hidle, htxn⟩ := hs
  rw [step, fetch_eq_fetchMain hr ht, fetchMain_of_badTxn hidle htxn (decodeTxn_of_not_fits h7 hq)]

end Sys2Proof.Machine
end

section
/-! SUPPORT. Decoding what `encode` writes: the operands at their widths (30_encoding.md R102), and the start requests
of the wire command rows. -/

namespace Sys2Proof.Machine

/-- An unsigned operand of the width reads as itself. -/
theorem readUnsigned_of_lt {bits v : Nat} (h : v < 2 ^ bits) : readUnsigned bits v = v := Nat.mod_eq_of_lt h

/-- A signed operand of the width reads as itself from its raw field. -/
theorem wrapSigned_rawSigned {bits : Nat} {z : Int} (hb : 0 < bits) (h : inSigned bits z = true) :
    wrapSigned bits (rawSigned bits z) = z := by
  have hpos : (0 : Int) < 2 ^ bits := by positivity
  have hraw : (rawSigned bits z : Int) = z % 2 ^ bits := Int.toNat_of_nonneg (Int.emod_nonneg z hpos.ne')
  have hwrap : wrapSigned bits (rawSigned bits z) = wrapSigned bits z := by
    simp only [wrapSigned, hraw, Int.emod_emod_of_dvd, dvd_refl]
  rw [hwrap, wrapSigned_of_inSigned bits z hb h]

/-- The count register holds the number of data bytes of a transaction of at most 31. -/
theorem cnt_toNat {d : List Byte} (h : d.length ≤ 31) : (BitVec.ofNat 5 d.length).toNat = d.length :=
  Nat.mod_eq_of_lt (by omega)

/-- A single write decodes by its address alone: below 32 a register, from 32 on memory (30_encoding.md R90, R92). -/
theorem decodeTxn_singleWrite {c b : Byte} (h7 : c.getLsbD 7 = true) (h0 : c.getLsbD 0 = false)
    (hc : cmdAddr c ≠ 63) :
    decodeTxn ⟨c, 1, [b]⟩ = .ok (if cmdAddr c < 32 then .wireClkWr (BitVec.ofNat 5 (cmdAddr c)) b
      else .wireRamWr (BitVec.ofNat 5 (cmdAddr c)) b) :=
  decodeTxn_of_decodeWrite h7 h0 (by simp [decodeWrite, ne_ramBurstCmd .write hc, eightBytes, oneByte])

/-- A single read decodes by its address alone. -/
theorem decodeTxn_singleRead {c : Byte} (h7 : c.getLsbD 7 = true) (h0 : c.getLsbD 0 = true) (hc : cmdAddr c ≠ 63) :
    decodeTxn ⟨c, 1, []⟩ = .ok (if cmdAddr c < 32 then .wireClkRd (BitVec.ofNat 5 (cmdAddr c))
      else .wireRamRd (BitVec.ofNat 5 (cmdAddr c))) :=
  decodeTxn_of_decodeRead h7 h0 (by simp [decodeRead, ne_ramBurstCmd .read hc])

/-- A device address of five bits is below the memory's. -/
theorem clkAddr_lt (a : BitVec 5) (dir : Direction) : cmdAddr (cmdByte (a.setWidth 8) dir) < 32 := by
  rw [cmdAddr_cmdByte_clk]
  exact a.isLt

/-- A memory address stands at 32 or above, and only memory address 31 at the burst address. -/
theorem ramAddr_range {a : BitVec 5} (dir : Direction) (ha : a ≠ 31) :
    ¬ cmdAddr (ramCmd (a.setWidth 8) dir) < 32 ∧ cmdAddr (ramCmd (a.setWidth 8) dir) ≠ 63 := by
  rw [cmdAddr_ramCmd]
  constructor <;> bv_omega

theorem ofNat_cmdAddr_ramCmd (a : BitVec 5) (dir : Direction) :
    BitVec.ofNat 5 (cmdAddr (ramCmd (a.setWidth 8) dir)) = a := by
  rw [cmdAddr_ramCmd]
  bv_omega

theorem ofNat_cmdAddr_cmdByte (a : BitVec 5) (dir : Direction) :
    BitVec.ofNat 5 (cmdAddr (cmdByte (a.setWidth 8) dir)) = a := by
  rw [cmdAddr_cmdByte_clk, BitVec.ofNat_toNat, BitVec.setWidth_eq]

theorem decodeTxn_clkWrite (a : BitVec 5) (b : Byte) :
    decodeTxn ⟨cmdByte (a.setWidth 8) .write, 1, [b]⟩ = .ok (.wireClkWr a b) := by
  have hlt := clkAddr_lt a .write
  rw [decodeTxn_singleWrite (cmdByte_bit7 _ _) (cmdByte_bit0 _ _) (by omega), if_pos hlt, ofNat_cmdAddr_cmdByte]

theorem decodeTxn_clkRead (a : BitVec 5) :
    decodeTxn ⟨cmdByte (a.setWidth 8) .read, 1, []⟩ = .ok (.wireClkRd a) := by
  have hlt := clkAddr_lt a .read
  rw [decodeTxn_singleRead (cmdByte_bit7 _ _) (cmdByte_bit0 _ _) (by omega), if_pos hlt, ofNat_cmdAddr_cmdByte]

theorem decodeTxn_ramWrite {a : BitVec 5} (b : Byte) (ha : a ≠ 31) :
    decodeTxn ⟨ramCmd (a.setWidth 8) .write, 1, [b]⟩ = .ok (.wireRamWr a b) := by
  obtain ⟨hge, hne⟩ := ramAddr_range .write ha
  rw [decodeTxn_singleWrite (ramCmd_bit7 _ _) (ramCmd_bit0 _ _) hne, if_neg hge, ofNat_cmdAddr_ramCmd]

theorem decodeTxn_ramRead {a : BitVec 5} (ha : a ≠ 31) :
    decodeTxn ⟨ramCmd (a.setWidth 8) .read, 1, []⟩ = .ok (.wireRamRd a) := by
  obtain ⟨hge, hne⟩ := ramAddr_range .read ha
  rw [decodeTxn_singleRead (ramCmd_bit7 _ _) (ramCmd_bit0 _ _) hne, if_neg hge, ofNat_cmdAddr_ramCmd]

theorem decodeTxn_clkBurstWrite (k : Blk) : decodeTxn ⟨clkBurstCmd .write, 8, k.toList⟩ = .ok (.wireClkBurstWr k) :=
  decodeTxn_of_decodeWrite (clkBurstCmd_bit7 _) (clkBurstCmd_bit0 _) rfl

theorem decodeTxn_clkBurstRead : decodeTxn ⟨clkBurstCmd .read, 8, []⟩ = .ok .wireClkBurstRd :=
  decodeTxn_of_decodeRead (clkBurstCmd_bit7 _) (clkBurstCmd_bit0 _) rfl

theorem decodeTxn_ramBurstWrite {d : List Byte} (h1 : 1 ≤ d.length) (h31 : d.length ≤ 31) :
    decodeTxn ⟨ramBurstCmd .write, BitVec.ofNat 5 d.length, d⟩ = .ok (.wireRamBurstWr d) := by
  refine decodeTxn_of_decodeWrite (ramBurstCmd_bit7 _) (ramBurstCmd_bit0 _) ?_
  rw [decodeWrite, if_pos rfl, if_pos ⟨h1, h31, cnt_toNat h31⟩]

theorem decodeTxn_ramBurstRead {n : BitVec 5} (hn : n ≠ 0) :
    decodeTxn ⟨ramBurstCmd .read, n, []⟩ = .ok (.wireRamBurstRd n) := by
  refine decodeTxn_of_decodeRead (ramBurstCmd_bit7 _) (ramBurstCmd_bit0 _) ?_
  rw [decodeRead, if_neg (not_or.2 ⟨not_not.2 rfl, hn⟩), if_pos rfl]

/-- Whatever comes with it, a command byte below 0x80 is the row of one never sent. -/
theorem decodeTxn_neverSent (c : BitVec 7) (n : BitVec 5) (d : List Byte) :
    decodeTxn ⟨c.setWidth 8, n, d⟩ = .ok (.wireNeverSent c) := by
  simp [decodeTxn]

/-- A response and a register write leave the transaction registers alone; a transaction ends with its own command
byte in them (log 20). -/
theorem Effect.commandByte {s t : State} (h : Effect s t) :
    t.regs = s.regs ∨ (t.regs.cmdb.getLsbD 7 = true ∧ t.regs.rw = t.regs.cmdb.getLsbD 0) := by
  induction h with
  | refl => exact .inl rfl
  | respond _ _ ih => exact ih
  | setZone _ _ _ ih => exact ih
  | setDstEn _ _ ih => exact ih
  | setSeconds _ _ _ ih => exact ih
  | setLastMs _ _ _ ih => exact ih
  | write c d hc => exact .inr ⟨hc, rfl⟩
  | read c k hc => exact .inr ⟨hc, rfl⟩

end Sys2Proof.Machine
end

section
/-! CLAIMS. The statements about the encodings. -/

namespace Sys2Proof.Machine

/-- Settles O1: a host operation by its code, its operands read back at their widths; a wire command by the address and
the direction in its command byte. -/
theorem decodeEncodeAgree : Obligations.DecodeEncodeAgree := by
  intro p i hp hi
  obtain ⟨_, _, hzone, _⟩ := hp
  cases i with
  | toBcd | fromBcd | blkPack | blkUnpack | regRd | regWr | clkBurstRd | clkBurstWr | ramRd | ramWr => rfl
  | wpSet | chipGetTime | chipSetTime | isLeap | daysToEpoch | mkGmtime | mktimeUtc | mktimeLocal => rfl
  | getZone | setDst | isotime | getTime | getTimeTm | setTimeTm => rfl
  | ramBurstRd | gmtime | localtime | setTime | tick =>
    have hlt := of_decide_eq_true hi
    simp only [encode, decode, decodeHost, HostReq.blank, BitVec.reduceToNat, readUnsigned_of_lt hlt]
  | ramBurstWr size data =>
    obtain ⟨hsize, _⟩ : size < 2 ^ p.sizeBits ∧ min size 31 ≤ data.length := by simpa [Instr.wf] using hi
    simp only [encode, decode, decodeHost, HostReq.blank, BitVec.reduceToNat, readUnsigned_of_lt hsize]
  | setZone z =>
    simp only [encode, decode, decodeHost, HostReq.blank, BitVec.reduceToNat, wrapSigned_rawSigned hzone hi]
  | wireClkBurstWr k => exact decodeTxn_clkBurstWrite k
  | wireClkBurstRd => exact decodeTxn_clkBurstRead
  | wireRamBurstWr d =>
    obtain ⟨h1, h31⟩ : 1 ≤ d.length ∧ d.length ≤ 31 := by simpa [Instr.wf] using hi
    exact decodeTxn_ramBurstWrite h1 h31
  | wireRamBurstRd n => exact decodeTxn_ramBurstRead (of_decide_eq_true hi)
  | wireClkWr a b => exact decodeTxn_clkWrite a b
  | wireClkRd a => exact decodeTxn_clkRead a
  | wireRamWr a b => exact decodeTxn_ramWrite b (of_decide_eq_true hi)
  | wireRamRd a => exact decodeTxn_ramRead (of_decide_eq_true hi)
  | wireNeverSent c => exact decodeTxn_neverSent c 1 []

/-- Settles O5: an instruction is made of responses, register writes and transactions under such command bytes. -/
theorem commandBytesHaveBitSeven : Obligations.CommandBytesHaveBitSeven :=
  fun i _ _ h => (exec_effect i h).commandByte

/-- Settles O2: each word decodes by evaluation of the decoders. -/
theorem wordsDecodeToTheirInstructions : Obligations.WordsDecodeToTheirInstructions := by
  refine ⟨rfl, rfl, rfl, ?_, rfl, rfl, rfl, rfl, rfl, rfl⟩
  decide

/-- Settles O3: the thirty codes on one side, every other on the other. -/
theorem hostDecoderTakesTheTableCodes : Obligations.HostDecoderTakesTheTableCodes := by
  intro p r
  have hmem : ∀ i, decodeHost p r = .ok i → r.op.toNat ∈ hostCodes := by
    intro i hi
    by_contra hop
    rw [decodeHost_of_not_mem hop] at hi
    cases hi
  refine ⟨⟨fun ⟨i, hi⟩ => hmem i hi, fun hop => ?_⟩, fun i hi => ?_, decodeHost_of_not_mem⟩
  · obtain ⟨i, hi, _⟩ := decodeHost_of_mem hop
    exact ⟨i, hi⟩
  · obtain ⟨j, hj, hcode⟩ := decodeHost_of_mem (p := p) (hmem i hi)
    obtain rfl : j = i := by rw [hj] at hi; cases hi; rfl
    exact hcode

/-- Settles O4: R92's expression in numbers, and the closed forms over the addresses of a byte. -/
theorem commandByteFormation : Obligations.CommandByteFormation := by
  have hform : ∀ addr : Byte, ∀ dir,
      (cmdByte addr dir).toNat = (((addr.toNat &&& 0x3F) <<< 1) ||| dir.bits.toNat) % 256 := by
    intro addr dir
    have hdir : dir.bits.toNat % 2 ^ 8 = dir.bits.toNat := Nat.mod_eq_of_lt dir.bits.isLt
    have hor := Nat.or_mod_two_pow (a := (addr.toNat &&& 0x3F) <<< 1) (b := dir.bits.toNat) (n := 8)
    rw [hdir] at hor
    simpa [cmdByte, addrMask] using hor.symm
  have hram : ∀ a : Byte, a.toNat ≤ 30 →
      (ramCmd a .write).toNat = 0xC0 + 2 * a.toNat ∧ (ramCmd a .read).toNat = 0xC1 + 2 * a.toNat := by decide
  refine ⟨fun addr => ⟨hform addr .write, hform addr .read⟩, ⟨rfl, rfl, rfl, rfl⟩, ⟨rfl, rfl, rfl, rfl⟩, fun a ha => ?_⟩
  obtain ⟨hwrite, hread⟩ := hram a ha
  exact ⟨rfl, hwrite, rfl, hread⟩

/-- Settles O7: the code names nothing, so the step takes the request and refuses it; and an absent unit refuses its
operations the same way. -/
theorem unassignedCodesAnswerBadOp : Obligations.UnassignedCodesAnswerBadOp := by
  refine ⟨?_, fun s hunit => ?_, fun s hiso tm => ?_⟩
  · intro s r rest hr ht hidle hq hreqs hop
    rw [step, fetch_eq_fetchMain hr ht, fetchMain_of_badReq hidle hq hreqs (decodeHost_of_not_mem hop)]
    rfl
  · have habsent : ∀ f, withTickUnit s f = .next s.refuseOp := fun f => by simp [withTickUnit, hunit]
    refine ⟨fun _ => ?_, ?_, fun _ => ?_, ?_, fun _ => ?_⟩
    all_goals
      simp only [exec, execTick, execGetTime, execSetTime, execGetTimeTm, execSetTimeTm, habsent]
      rfl
  · simp only [exec, execIsotime, hiso]
    rfl

/-- Settles O35: the row has no other path. -/
theorem commandsBelowEightyStop : Obligations.CommandsBelowEightyStop := fun _ _ => rfl

end Sys2Proof.Machine
end

section
/-! SUPPORT. What a write transaction leaves behind, whatever the peer (41_protocol.md R159, R161; 20_memory.md R83). -/

namespace Sys2Proof.Machine

variable {s : State} {r : RefPeer} {p : Pins}

/-! ## Levels taken from an oracle -/

theorem samples_nil : samples [] = 0 := rfl

theorem samples_cons (e : PinEvent) (es : List PinEvent) : samples (e :: es) = samples [e] + samples es := by
  simp only [samples, List.countP_cons, List.countP_nil]
  omega

theorem samples_append (es fs : List PinEvent) : samples (es ++ fs) = samples es + samples fs :=
  List.countP_append

/-- An oracle gives up one level for each sample, in order (20_memory.md R70). -/
theorem watch_oracle (ls : List Level) (p : Pins) (es : List PinEvent) :
    (Peer.oracle ls).watch p es = .oracle (ls.drop (samples es)) := by
  induction es generalizing ls p with
  | nil => rfl
  | cons e es ih =>
    have hstep : (Peer.oracle ls).observe p e = .oracle (ls.drop (samples [e])) := by
      cases e <;> simp [Peer.observe, samples, PinEvent.unread, List.drop_one]
    rw [watch_cons, hstep, ih, List.drop_drop, ← samples_cons]

theorem samples_traceByteWr (v : Byte) : samples (traceByteWr v) = 0 := by
  simp [samples, traceByteWr, PinEvent.unread, List.range, List.range.loop]

theorem samples_wrTrace (c : Byte) (d : List Byte) : samples (wrTrace c d) = 0 := by
  have hdata : samples (d.flatMap traceByteWr) = 0 := by
    induction d with
    | nil => rfl
    | cons v d ih => rw [List.flatMap_cons, samples_append, samples_traceByteWr, ih]
  simp only [wrTrace, samples_append, samples_traceByteWr, hdata]
  rfl

/-- A write transaction takes nothing from the peer (41_protocol.md R161). -/
theorem wrTxn_takesNothing (c : Byte) (d : List Byte) (s : State) : TakesNothing s (wrTxn c d s) := by
  rw [wrTxn_spec]
  constructor
  · intro ls hpeer
    rw [finish_peer, emit_peer, hpeer, watch_oracle, samples_wrTrace, List.drop_zero]
  · intro hpeer
    rw [finish_peer, emit_peer, hpeer, watch_loopWire]

/-! ## The bytes of the reference peer -/

/-- A write to one address leaves the byte at every other as it was, whatever the form of the list. -/
theorem mem_read_write_of_ne {m : Mem} {a b : Nat} (v : Byte) (h : b ≠ a) :
    Mem.read (Mem.write m a v) b = Mem.read m b := by
  have hremove : Mem.read (Mem.remove m a) b = Mem.read m b := by
    induction m with
    | nil => rfl
    | cons c m ih =>
      by_cases e : a = c.1
      · simp [Mem.remove, Mem.read, ← e, h]
      · simp [Mem.remove, Mem.read, e, ih]
  unfold Mem.write
  split
  · exact hremove
  · rw [mem_read_insert, if_neg h]

/-- The bytes of `r'` against those of `r`, the data bytes `d` having arrived from data byte `k` of a write transaction
on, the peer protected or not (20_memory.md R83). -/
structure ReceivedFrom (r : RefPeer) (k : Nat) (d : List Byte) (r' : RefPeer) : Prop where
  wf : Mem.wf r.mem = true → Mem.wf r'.mem = true
  kept : ∀ a, (∀ i, i < d.length → r.target (k + i) ≠ some a) → Mem.read r'.mem a = Mem.read r.mem a
  stored : Mem.wf r.mem = true → ∀ i a, (h : i < d.length) → r.target (k + i) = some a →
    Mem.read r'.mem a = if a = 7 ∨ r.prot = false then d[i] else Mem.read r.mem a

/-- Where data byte `k` has no place at `a`, or the peer is protected there, the byte at `a` stays. -/
theorem read_store_of_dropped {k a : Nat} (v : Byte) (h : r.target k = some a → ¬ (a = 7 ∨ r.prot = false)) :
    Mem.read (r.store k v) a = Mem.read r.mem a := by
  unfold RefPeer.store
  split
  · rename_i b hb
    split
    · rename_i hp
      exact mem_read_write_of_ne v fun e => h (e ▸ hb) (e ▸ hp)
    · rfl
  · rfl

/-- The byte at the place of data byte `k` after its arrival. -/
theorem read_store_at {k a : Nat} (v : Byte) (hwf : Mem.wf r.mem = true) (ha : r.target k = some a) :
    Mem.read (r.store k v) a = if a = 7 ∨ r.prot = false then v else Mem.read r.mem a := by
  split
  · rename_i hp
    exact read_store_of_target v hwf ha hp
  · rename_i hp
    exact read_store_of_dropped v fun _ => hp

/-- One data byte more in front, stored before the others arrive. -/
theorem ReceivedFrom.cons {k n : Nat} {r' : RefPeer} {v : Byte} {d : List Byte}
    (h : ReceivedFrom { r with sh := 0, nbits := n, mem := r.store k v } (k + 1) d r') :
    ReceivedFrom r k (v :: d) r' := by
  have hshift : ∀ i, k + 1 + i = k + (i + 1) := fun i => by omega
  have hkept : ∀ a, (∀ i, i < d.length → r.target (k + 1 + i) ≠ some a) →
      Mem.read r'.mem a = Mem.read (r.store k v) a := h.kept
  refine ⟨fun hwf => h.wf (store_wf k v hwf), fun a ha => ?_, fun hwf i a hi ha => ?_⟩
  · rw [hkept a fun i hi => hshift i ▸ ha (i + 1) (Nat.succ_lt_succ hi)]
    exact read_store_of_dropped v fun e => absurd e (ha 0 (Nat.succ_pos _))
  · cases i with
    | zero =>
      rw [hkept a fun i _ hi => by have := target_injective ha hi; omega]
      exact read_store_at v hwf ha
    | succ i =>
      have hother : r.target k ≠ some a := fun e => by have := target_injective ha e; omega
      have hlater := h.stored (store_wf k v hwf) i a (Nat.lt_of_succ_lt_succ hi) (hshift i ▸ ha)
      rw [read_store_of_dropped v fun e => absurd e hother] at hlater
      exact hlater

/-- The data bytes of a write transaction arrive one after the other. -/
theorem watch_bytesWr_received (d : List Byte) {k : Nat} (hf : r.inFrame = true) (hclk : p.clk = false)
    (hn : r.nbits = 8 * (k + 1)) (h7 : r.cmd.getLsbD 7 = true) (h0 : r.cmd.getLsbD 0 = false) :
    ∃ r', (Peer.reference r).watch p (bytesWr d) = .reference r' ∧ ReceivedFrom r k d r' := by
  induction d generalizing r p k with
  | nil => exact ⟨r, rfl, id, fun _ _ => rfl, fun _ _ _ h => absurd h (Nat.not_lt_zero _)⟩
  | cons v d ih =>
    have hcons : bytesWr (v :: d) = byteWr v ++ bytesWr d := rfl
    obtain ⟨r', hwatch, hr'⟩ := ih (r := { r with sh := 0, nbits := 8 * (k + 2), mem := r.store k v })
      (p := { p with latch := v.getLsbD 7 }) hf hclk rfl h7 h0
    refine ⟨r', ?_, hr'.cons⟩
    rw [hcons, watch_append, watch_byteWr v hf hclk, run_byteWr, shiftBits_data v hn h7 h0, hwatch]

/-- The reference peer after a write transaction, its protection sampled at the command byte. -/
theorem wrTxn_received {c : Byte} (d : List Byte) (hclk : s.pins.clk = false) (hpeer : s.peer = .reference r)
    (h7 : c.getLsbD 7 = true) (h0 : c.getLsbD 0 = false) :
    ∃ r', (wrTxn c d s).peer = .reference r' ∧ ReceivedFrom ⟨r.mem, true, 8, 0, c, r.protectedNow, 0⟩ 0 d r' := by
  have hrun : (s.pins.run (.writeCs true :: byteWr c)).clk = false := by simpa [run_byteWr] using hclk
  obtain ⟨r', hwatch, hr'⟩ := watch_bytesWr_received (r := ⟨r.mem, true, 8, 0, c, r.protectedNow, 0⟩) (k := 0) d rfl
    hrun rfl h7 h0
  have hsplit : PinEvent.writeCs true :: (byteWr c ++ bytesWr d ++ [.writeCs false]) =
      (.writeCs true :: byteWr c) ++ bytesWr d ++ [.writeCs false] := by simp
  refine ⟨{ r' with inFrame := false }, ?_, hr'.wf, hr'.kept, hr'.stored⟩
  rw [wrTxn, finish_peer, emit_peer, hsplit, watch_append, watch_append, hpeer, watch_command c hclk, hwatch]
  rfl

/-- Only a reference peer's bytes are known, and they are those it received. -/
theorem wrTxn_storedBy {c : Byte} (d : List Byte) (hclk : s.pins.clk = false) (h7 : c.getLsbD 7 = true)
    (h0 : c.getLsbD 0 = false) : StoredBy c d s (wrTxn c d s) := by
  refine ⟨fun a ha => ?_, fun r hpeer hwf k hk a ha => ?_, fun r hpeer => ?_⟩
  · obtain ⟨horacle, hloop⟩ := wrTxn_takesNothing c d s
    cases hpeer : s.peer with
    | oracle ls => rw [horacle ls hpeer]
    | loopWire => rw [hloop hpeer]
    | reference r =>
      obtain ⟨r', hwritten, hr'⟩ := wrTxn_received d hclk hpeer h7 h0
      rw [hwritten]
      exact congrArg some (hr'.kept a fun i hi => (Nat.zero_add i).symm ▸ ha i hi)
  · obtain ⟨r', hwritten, hr'⟩ := wrTxn_received d hclk hpeer h7 h0
    have hbyte := hr'.stored hwf k a hk ((Nat.zero_add k).symm ▸ ha)
    rw [hwritten, hpeer]
    exact (congrArg some hbyte).trans (apply_ite some _ _ _)
  · obtain ⟨r', hwritten, hr'⟩ := wrTxn_received d hclk hpeer h7 h0
    exact ⟨r', hwritten, hr'.wf⟩

/-! ## The whole of it -/

/-- An element of the data buffer after `d` has been loaded into it. -/
theorem loadDb_getElem (db : Vector Byte 31) (d : List Byte) {i : Nat} (h : i < 31) :
    (loadDb db d)[i] = d.getD i db[i] := by
  simp [loadDb, List.getD_eq_getElem?_getD]

/-- A write transaction from the idle invariant does what 41_protocol.md R161 says. -/
theorem wrTxn_writeDone {c : Byte} {d : List Byte} (hs : s.idle) (h1 : 1 ≤ d.length) (h31 : d.length ≤ 31)
    (h7 : c.getLsbD 7 = true) (h0 : c.getLsbD 0 = false) : WriteDone c d s (wrTxn c d s) := by
  obtain ⟨_, hpins⟩ := hs
  have ⟨_, hclk, _⟩ := hpins
  have hne : d ≠ [] := List.ne_nil_of_length_pos h1
  refine ⟨?trace, wrTxn_pins c d s hpins hne, rfl, rfl, h0, cnt_toNat h31, rfl, ?db, rfl,
    wrTxn_sameBeside c d s, wrTxn_storedBy d hclk h7 h0, wrTxn_takesNothing c d s⟩
  case trace => rw [wrTxn_spec, finish_trace, emit_trace]
  case db => exact fun i hi => loadDb_getElem s.regs.db d hi

end Sys2Proof.Machine
end

section
/-! SUPPORT. What a read transaction leaves behind and the levels it found, whatever the peer (41_protocol.md R159, R160;
20_memory.md R70, R84, R86). -/

namespace Sys2Proof.Machine

variable {s : State} {c : Byte} {m : Mem} {n : Nat}

/-! ## The bits of the bytes read -/

/-- The events of a run of bits sampled. -/
def bitsTrace (ls : List Level) : List PinEvent := ls.flatMap fun l => [.readDat l, .toggleClk, .settle, .toggleClk]

theorem run_bitsTrace (p : Pins) (ls : List Level) : p.run (bitsTrace ls) = p := by
  induction ls with
  | nil => rfl
  | cons l ls ih =>
    rw [bitsTrace, List.flatMap_cons, run_append, ← bitsTrace]
    simpa using ih

theorem samples_bitsTrace (ls : List Level) : samples (bitsTrace ls) = ls.length := by
  induction ls with
  | nil => rfl
  | cons l ls ih =>
    have hbit : samples [.readDat l, .toggleClk, .settle, .toggleClk] = 1 := rfl
    rw [bitsTrace, List.flatMap_cons, samples_append, ← bitsTrace, ih, hbit, List.length_cons, Nat.add_comm]

theorem samples_traceByteRd (v : Byte) : samples (traceByteRd v) = 8 := by
  simp [samples, traceByteRd, PinEvent.unread, List.range, List.range.loop]

theorem samples_tracesByteRd (d : List Byte) : samples (d.flatMap traceByteRd) = 8 * d.length := by
  induction d with
  | nil => rfl
  | cons v d ih => rw [List.flatMap_cons, samples_append, samples_traceByteRd, ih, List.length_cons]; omega

/-- Sampling moves the pins nowhere, counts the samples and is told to the peer. -/
structure Sampled (j : Nat) (s t : State) : Prop where
  pins : t.pins = s.pins
  asked : t.asked = s.asked + j
  peer : ∃ es, samples es = j ∧ s.pins.run es = s.pins ∧ t.peer = s.peer.watch s.pins es

theorem bitsRd_sampled (j : Nat) (s : State) : Sampled j s (State.bitsRd j s).2 := by
  obtain ⟨hlen, hspec⟩ := bitsRd_spec j s
  rw [← bitsTrace] at hspec
  rw [hspec]
  exact ⟨run_bitsTrace _ _, rfl, _, (samples_bitsTrace _).trans hlen, run_bitsTrace _ _, rfl⟩

theorem bytesRd_sampled (k : Nat) (s : State) : Sampled (8 * k) s (State.bytesRd k s).2 := by
  obtain ⟨hlen, hspec⟩ := bytesRd_spec k s
  rw [hspec]
  exact ⟨run_tracesByteRd _ _, rfl, _, by rw [samples_tracesByteRd, hlen], run_tracesByteRd _ _, rfl⟩

theorem Sampled.trans {i j : Nat} {s t u : State} (h : Sampled i s t) (h' : Sampled j t u) : Sampled (i + j) s u := by
  obtain ⟨hpins, hasked, es, hes, hrun, hpeer⟩ := h
  obtain ⟨hpins', hasked', fs, hfs, hrun', hpeer'⟩ := h'
  rw [hpins] at hpins' hrun' hpeer'
  refine ⟨hpins', by rw [hasked', hasked, Nat.add_assoc], es ++ fs, ?_, ?_, ?_⟩
  · rw [samples_append, hes, hfs]
  · rw [run_append, hrun, hrun']
  · rw [hpeer', hpeer, watch_append, hrun]

/-- After `j` samples an oracle answers its level `j`, and a free value where it lists none (20_memory.md R70). -/
theorem Sampled.level_oracle {j : Nat} {s t : State} {ls : List Level} (h : Sampled j s t) (hpeer : s.peer = .oracle ls) :
    t.level = (ls[j]?).getD (Config.peerLevel (s.asked + j)) := by
  obtain ⟨_, hasked, es, rfl, _, htpeer⟩ := h
  rw [State.level, htpeer, hpeer, watch_oracle, hasked, Peer.answer, List.head?_drop]

/-- A loop-back wire answers the latch (20_memory.md R86), which no sample moves. -/
theorem Sampled.level_loopWire {j : Nat} {s t : State} (h : Sampled j s t) (hpeer : s.peer = .loopWire) :
    t.level = s.pins.latch := by
  obtain ⟨hpins, _, es, _, _, htpeer⟩ := h
  rw [State.level, htpeer, hpeer, watch_loopWire, Peer.answer, hpins, Option.getD_some]

/-- Bit `i` of the bits read is the level found after `i` of them. -/
theorem bitsRd_getElem (j : Nat) (s : State) {i : Nat} (h : i < (State.bitsRd j s).1.length) :
    (State.bitsRd j s).1[i] = (State.bitsRd i s).2.level := by
  induction j generalizing s i with
  | zero => exact absurd h (Nat.not_lt_zero _)
  | succ j ih =>
    cases i with
    | zero => rfl
    | succ i => exact ih s.bitRd.2 (Nat.lt_of_succ_lt_succ h)

/-- Byte `i` of the bytes read is the one read after `i` of them. -/
theorem bytesRd_getElem (j : Nat) (s : State) {i : Nat} (h : i < (State.bytesRd j s).1.length) :
    (State.bytesRd j s).1[i] = (State.bytesRd i s).2.byteRd.1 := by
  induction j generalizing s i with
  | zero => exact absurd h (Nat.not_lt_zero _)
  | succ j ih =>
    cases i with
    | zero => rfl
    | succ i => exact ih s.byteRd.2 (Nat.lt_of_succ_lt_succ h)

theorem byteRd_getLsbD (s : State) {i : Nat} (hi : i < 8) :
    s.byteRd.1.getLsbD i = (State.bitsRd i s).2.level := by
  have hlen := (bitsRd_spec 8 s).1
  have hbyte : s.byteRd.1 = byteOfLevels (State.bitsRd 8 s).1 := rfl
  rw [hbyte, byteOfLevels_bits _ hlen i hi, bitsRd_getElem]

/-- Bit `i` of data byte `k` is the level found after `8k + i` samples. -/
theorem bytesRd_bit (j : Nat) (s : State) {k i : Nat} (hk : k < (State.bytesRd j s).1.length) (hi : i < 8) :
    ∃ t, Sampled (8 * k + i) s t ∧ (State.bytesRd j s).1[k].getLsbD i = t.level := by
  refine ⟨_, (bytesRd_sampled k s).trans (bitsRd_sampled i _), ?_⟩
  rw [bytesRd_getElem, byteRd_getLsbD _ hi]

/-! ## The bytes of a read transaction -/

/-- The state in which a read transaction samples its first bit: the command byte is out and the data pin is an
input (41_protocol.md R160). -/
def readStart (c : Byte) (s : State) : State := s.emit (.writeCs true :: (byteWr c ++ [.setInDat]))

theorem rdTxn_bytes (c : Byte) (k : Nat) (s : State) : (rdTxn c k s).1 = (State.bytesRd k (readStart c s)).1 := rfl

theorem rdTxn_peer (c : Byte) (k : Nat) (s : State) : (rdTxn c k s).2.peer =
    (State.bytesRd k (readStart c s)).2.peer.watch (State.bytesRd k (readStart c s)).2.pins [.writeCs false, .setOutDat] :=
  rfl

theorem readStart_latch (c : Byte) (s : State) : (readStart c s).pins.latch = c.getLsbD 7 := by
  simp [readStart, run_append, run_byteWr]

theorem readStart_oracle {ls : List Level} (c : Byte) (hpeer : s.peer = .oracle ls) :
    (readStart c s).peer = .oracle ls := by
  have hnone : samples (.writeCs true :: (byteWr c ++ [.setInDat])) = 0 := by
    rw [samples_cons, samples_append, byteWr_eq_trace, samples_traceByteWr]
    rfl
  rw [readStart, emit_peer, hpeer, watch_oracle, hnone, List.drop_zero]

theorem readStart_loopWire (c : Byte) (hpeer : s.peer = .loopWire) : (readStart c s).peer = .loopWire := by
  rw [readStart, emit_peer, hpeer, watch_loopWire]

theorem readStart_presenting {r : RefPeer} (c : Byte) (hclk : s.pins.clk = false) (hpeer : s.peer = .reference r) :
    Presenting c r.mem (8 * 0) (readStart c s) := by
  have hsplit : PinEvent.writeCs true :: (byteWr c ++ [.setInDat]) = (.writeCs true :: byteWr c) ++ [.setInDat] := rfl
  refine ⟨by simpa [readStart, run_append, run_byteWr] using hclk, ⟨r.mem, true, 8, 0, c, r.protectedNow, 0⟩, ?_,
    rfl, rfl, rfl, rfl, le_refl 8⟩
  rw [readStart, emit_peer, hsplit, watch_append, hpeer, watch_command c hclk]
  rfl

/-- The reference peer still presents after `j` bytes. -/
theorem Presenting.after_bytesRd (j : Nat) {k : Nat} (h : Presenting c m (8 * k) s) (h7 : c.getLsbD 7 = true)
    (h0 : c.getLsbD 0 = true) : Presenting c m (8 * (k + j)) (State.bytesRd j s).2 := by
  induction j generalizing s k with
  | zero => exact h
  | succ j ih =>
    have hcount : k + 1 + j = k + (j + 1) := by omega
    exact hcount ▸ ih (h.byteRd h7 h0).2

/-- A read changes no byte of the reference peer, which takes no data byte in it (20_memory.md R84; log 17). -/
theorem rdTxn_keeps_mem {r : RefPeer} (k : Nat) (hclk : s.pins.clk = false) (hpeer : s.peer = .reference r)
    (h7 : c.getLsbD 7 = true) (h0 : c.getLsbD 0 = true) :
    ∃ r', (rdTxn c k s).2.peer = .reference r' ∧ r'.mem = r.mem := by
  obtain ⟨_, r', hr', hpresents⟩ := (readStart_presenting c hclk hpeer).after_bytesRd k h7 h0
  refine ⟨{ r' with inFrame := false }, ?_, hpresents.mem⟩
  rw [rdTxn_peer, hr']
  rfl

/-- The bytes of a read transaction are what the peer answered, bit by bit. -/
theorem rdTxn_answered (k : Nat) (hclk : s.pins.clk = false) (h7 : c.getLsbD 7 = true) (h0 : c.getLsbD 0 = true) :
    Answered c (rdTxn c k s).1 s (rdTxn c k s).2 := by
  have hlen := (rdTxn_spec c k s).1
  refine ⟨fun ls hpeer => ⟨?levels, fun j hj i hi => ?oracle⟩, fun r hpeer j hj => ?reference, fun hpeer v hv => ?loopWire⟩
  case levels =>
    obtain ⟨_, _, es, hes, _, hlast⟩ := bytesRd_sampled k (readStart c s)
    rw [readStart_oracle c hpeer, watch_oracle, hes] at hlast
    rw [rdTxn_peer, hlast, watch_oracle, hlen]
    rfl
  case oracle =>
    obtain ⟨t, ht, hbit⟩ := bytesRd_bit k (readStart c s) hj hi
    exact hbit.trans (ht.level_oracle (readStart_oracle c hpeer))
  case reference =>
    have hbytes := rdTxn_presented k hclk hpeer h7 h0
    have hbyte : (rdTxn c k s).1[j] = presented c r.mem j := by simp [hbytes]
    exact hbyte
  case loopWire =>
    obtain ⟨j, hj, rfl⟩ := List.getElem_of_mem hv
    refine BitVec.eq_of_getLsbD_eq fun i hi => ?_
    obtain ⟨t, ht, hbit⟩ := bytesRd_bit k (readStart c s) hj hi
    have hone : ∀ i, i < 8 → (0xFF#8).getLsbD i = true := by decide
    rw [hone i hi, ← h7, ← readStart_latch c s, ← ht.level_loopWire (readStart_loopWire c hpeer)]
    exact hbit

/-- A read transaction from the idle invariant does what 41_protocol.md R160 says. -/
theorem rdTxn_readDone {k : Nat} (hs : s.idle) (hk : k ≤ 31) (h7 : c.getLsbD 7 = true) (h0 : c.getLsbD 0 = true) :
    ReadDone c (rdTxn c k s).1 s (rdTxn c k s).2 := by
  obtain ⟨_, hpins⟩ := hs
  have ⟨_, hclk, _⟩ := hpins
  obtain ⟨hlen, hspec⟩ := rdTxn_spec c k s
  refine ⟨?trace, ?pins, rfl, rfl, h0, cnt_toNat (hlen.le.trans hk), rfl, ?db, ?asked, rdTxn_sameBeside c k s,
    fun r hpeer => rdTxn_keeps_mem k hclk hpeer h7 h0, fun hpeer => ?loopWire⟩
  case trace =>
    rw [hspec]
    rfl
  case pins => rw [rdTxn_pins c k s hpins, h7]
  case db =>
    intro i hi
    rw [hspec]
    exact loadDb_getElem s.regs.db _ hi
  case asked =>
    rw [hspec, hlen]
    rfl
  case loopWire =>
    rw [hspec]
    simp [hpeer]

end Sys2Proof.Machine
end

section
/-! SUPPORT. The wire command rows from the idle invariant. -/

namespace Sys2Proof.Machine

variable {s : State} {c : Byte}

/-- A row that writes, from the idle invariant: its transaction, and no response (log 12). -/
theorem txnWrite_done {d : List Byte} (hs : s.idle) (h1 : 1 ≤ d.length) (h31 : d.length ≤ 31)
    (h7 : c.getLsbD 7 = true) (h0 : c.getLsbD 0 = false) :
    ∃ t, txnWrite c d s = .next t ∧ t.resp = s.resp ∧ WriteDone c d s t :=
  ⟨_, onWire_of_idle _ hs, rfl, wrTxn_writeDone hs h1 h31 h7 h0⟩

/-- A row that reads, from the idle invariant: its transaction, and no response (log 12). -/
theorem txnRead_done {k : Nat} (hs : s.idle) (hk : k ≤ 31) (h7 : c.getLsbD 7 = true) (h0 : c.getLsbD 0 = true) :
    ∃ t d, d.length = k ∧ txnRead c k s = .next t ∧ t.resp = s.resp ∧ ReadDone c d s t ∧ Answered c d s t := by
  have ⟨_, _, hclk, _⟩ := hs
  obtain ⟨hlen, hspec⟩ := rdTxn_spec c k s
  refine ⟨_, _, hlen, onWire_of_idle _ hs, ?_, rdTxn_readDone hs hk h7 h0, rdTxn_answered k hclk h7 h0⟩
  rw [hspec]
  rfl

/-- The same for a row that reads a single byte. -/
theorem txnRead_one_done (hs : s.idle) (h7 : c.getLsbD 7 = true) (h0 : c.getLsbD 0 = true) :
    ∃ t v, txnRead c 1 s = .next t ∧ t.resp = s.resp ∧ ReadDone c [v] s t ∧ Answered c [v] s t := by
  obtain ⟨t, d, hlen, hdone⟩ := txnRead_done hs (by decide : 1 ≤ 31) h7 h0
  obtain ⟨v, rfl⟩ := List.length_eq_one_iff.1 hlen
  exact ⟨t, v, hdone⟩

end Sys2Proof.Machine
end

section
/-! CLAIMS. The statements about the wire command rows. -/

namespace Sys2Proof.Machine

/-- Settles O33: an unfit start request has no row; the others are one write transaction each. -/
theorem wireCommandsWrite : Obligations.WireCommandsWrite := by
  refine ⟨fun s q hs h7 _ hq => step_of_not_fits hs h7 hq, fun s d hd => if_neg (by omega), fun s hs =>
    ⟨?clkBurst, ?ramBurst, ?clk, ?ram⟩⟩
  case clkBurst =>
    intro k
    exact txnWrite_done hs (by simp [Blk.toList]) (by simp [Blk.toList]) (clkBurstCmd_bit7 _) (clkBurstCmd_bit0 _)
  case ramBurst =>
    intro d h1 h31
    obtain ⟨t, ht, hdone⟩ := txnWrite_done hs h1 h31 (ramBurstCmd_bit7 .write) (ramBurstCmd_bit0 .write)
    exact ⟨t, (if_pos ⟨h1, h31⟩).trans ht, hdone⟩
  case clk =>
    intro a b
    rw [← (cmdByte_clk_eq a).1]
    exact txnWrite_done hs (le_refl 1) (by decide : 1 ≤ 31) (cmdByte_bit7 _ _) (cmdByte_bit0 _ _)
  case ram =>
    intro a b
    rw [← (ramCmd_eq a).1]
    exact txnWrite_done hs (le_refl 1) (by decide : 1 ≤ 31) (ramCmd_bit7 _ _) (ramCmd_bit0 _ _)

/-- Settles O34: an unfit start request has no row; the others are one read transaction each. -/
theorem wireCommandsRead : Obligations.WireCommandsRead := by
  refine ⟨fun s q hs h7 _ hq => step_of_not_fits hs h7 hq, fun s => rfl, fun s hs => ⟨?clkBurst, ?ramBurst, ?clk, ?ram⟩⟩
  case clkBurst => exact txnRead_done hs (by decide : 8 ≤ 31) (clkBurstCmd_bit7 .read) (clkBurstCmd_bit0 .read)
  case ramBurst =>
    intro cnt hcnt
    obtain ⟨t, d, hlen, ht, hdone⟩ := txnRead_done hs (Nat.le_of_lt_succ cnt.isLt) (ramBurstCmd_bit7 .read)
      (ramBurstCmd_bit0 .read)
    exact ⟨t, d, hlen, (if_pos hcnt).trans ht, hdone⟩
  case clk =>
    intro a
    rw [← (cmdByte_clk_eq a).2]
    exact txnRead_one_done hs (cmdByte_bit7 _ _) (cmdByte_bit0 _ _)
  case ram =>
    intro a
    rw [← (ramCmd_eq a).2]
    exact txnRead_one_done hs (ramCmd_bit7 _ _) (ramCmd_bit0 _ _)

end Sys2Proof.Machine
end

section
/-! SUPPORT. The BCD codec in numbers (40_bcd.md R120 to R130): the packed byte and its value as sums, the fields of a
record stored at their widths, and what the four operations answer. -/

namespace Sys2Proof.Machine

variable {n b : Byte} {v : Int}

/-! ## The packed byte and its value -/

/-- A units digit joined below shifted tens is a sum: the two share no bit. -/
theorem tens_or_units {q r : Nat} (hr : r < 16) : (q <<< 4) ||| r = 16 * q + r := by
  rw [← Nat.shiftLeft_add_eq_or_of_lt (i := 4) hr, Nat.shiftLeft_eq]
  omega

theorem toBcd_toNat (hn : n.toNat ≤ 99) : (toBcd n).toNat = 16 * (n.toNat / 10) + n.toNat % 10 := by
  rw [toBcd, tens_or_units (by omega), BitVec.toNat_ofNat, Nat.mod_eq_of_lt (by omega)]

/-- R124's expression in numbers: the shift divides by 16 and the mask keeps the remainder. -/
theorem tens_add_units (m : Nat) : (m >>> 4) * 10 + (m &&& 0x0F) = 10 * (m / 16) + m % 16 := by
  have hhigh : m >>> 4 = m / 16 := Nat.shiftRight_eq_div_pow m 4
  have hlow : m &&& 0x0F = m % 16 := Nat.and_two_pow_sub_one_eq_mod m 4
  rw [hhigh, hlow, Nat.mul_comm]

/-- The value of a byte is at most 165 (R125), so no bit of it is lost. -/
theorem fromBcd_toNat (b : Byte) : (fromBcd b).toNat = 10 * (b.toNat / 16) + b.toNat % 16 := by
  rw [fromBcd, tens_add_units, BitVec.toNat_ofNat]
  omega

theorem fromBcd_toBcd (hn : n.toNat ≤ 99) : fromBcd (toBcd n) = n := by
  apply BitVec.eq_of_toNat_eq
  rw [fromBcd_toNat, toBcd_toNat hn]
  omega

theorem toBcd_fromBcd (hhigh : b.toNat / 16 ≤ 9) (hlow : b.toNat % 16 ≤ 9) : toBcd (fromBcd b) = b := by
  have hval := fromBcd_toNat b
  apply BitVec.eq_of_toNat_eq
  rw [toBcd_toNat (by omega), hval]
  omega

/-! ## The values of a block -/

theorem trunc8_toNat (h0 : 0 ≤ v) (h99 : v ≤ 99) : ((trunc8 v).toNat : Int) = v := by
  rw [trunc8, BitVec.toNat_ofInt]
  omega

theorem bcd8_packsTo (v : Int) : PacksTo v (bcd8 v) := by
  intro h0 h99
  have hv := trunc8_toNat h0 h99
  rw [bcd8, toBcd_toNat (by omega)]
  omega

theorem bcdInt_eq_bcdValue (b : Byte) : bcdInt b = bcdValue b := by
  rw [bcdInt, bcdValue, fromBcd_toNat]
  push_cast
  rfl

theorem bcdValue_nonneg (b : Byte) : 0 ≤ bcdValue b := by
  unfold bcdValue
  omega

theorem bcdValue_le (b : Byte) : bcdValue b ≤ 165 := by
  unfold bcdValue
  omega

theorem bcdInt_bcd8 (h0 : 0 ≤ v) (h99 : v ≤ 99) : bcdInt (bcd8 v) = v := by
  have hv := trunc8_toNat h0 h99
  rw [bcdInt, bcd8, fromBcd_toBcd (by omega), hv]

/-- The 8-bit field reads back as R128 says of every number a block byte gives, the 0 less one included. -/
theorem ofInt8_toInt (hlo : -1 ≤ v) (hhi : v ≤ 165) : (BitVec.ofInt 8 v).toInt = stored8 v := by
  rw [BitVec.toInt_ofInt, stored8, Int.bmod_def]
  omega

/-! ## The record of an unpacked block -/

theorem ofInt8_bcdInt_toInt (b : Byte) : (BitVec.ofInt 8 (bcdInt b)).toInt = stored8 (bcdValue b) := by
  have h0 := bcdValue_nonneg b
  rw [bcdInt_eq_bcdValue, ofInt8_toInt (by omega) (bcdValue_le b)]

theorem ofInt8_bcdInt_pred_toInt (b : Byte) :
    (BitVec.ofInt 8 (bcdInt b - 1)).toInt = stored8 (bcdValue b - 1) := by
  have h0 := bcdValue_nonneg b
  have h165 := bcdValue_le b
  rw [bcdInt_eq_bcdValue, ofInt8_toInt (by omega) (by omega)]

theorem unpackFlag_eq_decide (p : Params) (k : Blk) : unpackFlag p k = decide (k.wp &&& p.wpOn ≠ 0) := by
  rw [unpackFlag, Bool.eq_iff_iff, bne_iff_ne, decide_eq_true_iff]

/-- Every field comes back: the packed values lie in 0 to 99, and what BLK_PACK added is taken off again. -/
theorem unpackTm_packBlk {p : Params} {tm : Tm} (h : Packable p tm) (flag : Bool) :
    unpackTm p (packBlk p tm flag) = { tm with yday := 0, isdst := 0xFF#8 } := by
  obtain ⟨⟨hsec0, hsec⟩, ⟨hmin0, hmin⟩, ⟨hhour0, hhour⟩, ⟨hmday0, hmday⟩, ⟨hmon0, hmon⟩, ⟨hwday0, hwday⟩, hyear0,
    hyear⟩ := h
  have hbase : p.yearBase + tm.year.toInt - 2000 + 2000 - p.yearBase = tm.year.toInt := by omega
  simp only [unpackTm, packBlk, bcdInt_bcd8 hsec0 hsec, bcdInt_bcd8 hmin0 hmin, bcdInt_bcd8 hhour0 hhour,
    bcdInt_bcd8 hmday0 hmday, bcdInt_bcd8 hmon0 hmon, bcdInt_bcd8 hwday0 hwday, bcdInt_bcd8 hyear0 hyear,
    Int.add_sub_cancel, hbase, BitVec.ofInt_toInt]
  rfl

theorem unpackFlag_packBlk {p : Params} (hon : p.wpOn ≠ 0) (hoff : p.wpOff &&& p.wpOn = 0) (tm : Tm) (flag : Bool) :
    unpackFlag p (packBlk p tm flag) = flag := by
  rw [unpackFlag_eq_decide]
  cases flag with
  | false => exact decide_eq_false (not_not_intro hoff)
  | true => exact decide_eq_true (BitVec.and_self.trans_ne hon)

/-! ## The four operations -/

section
variable (p : Params) {r : HostReq}

theorem decodeHost_toBcd (h : r.op = 0x01) : decodeHost p r = .ok (.toBcd r.n) := by rw [decodeHost, h]; rfl
theorem decodeHost_fromBcd (h : r.op = 0x02) : decodeHost p r = .ok (.fromBcd r.b) := by rw [decodeHost, h]; rfl
theorem decodeHost_blkPack (h : r.op = 0x03) : decodeHost p r = .ok (.blkPack r.tm r.flag) := by rw [decodeHost, h]; rfl
theorem decodeHost_blkUnpack (h : r.op = 0x04) : decodeHost p r = .ok (.blkUnpack r.blk) := by rw [decodeHost, h]; rfl

end

section
variable (s : State)

theorem exec_toBcd (n : Byte) :
    exec (.toBcd n) s = .next { s with resp := some { b := some (toBcd n) } } := rfl

theorem exec_fromBcd (b : Byte) :
    exec (.fromBcd b) s = .next { s with resp := some { n := some (fromBcd b) } } := rfl

theorem exec_blkPack (tm : Tm) (flag : Bool) :
    exec (.blkPack tm flag) s = .next { s with resp := some { blk := some (packBlk s.params tm flag) } } := rfl

theorem exec_blkUnpack (k : Blk) : exec (.blkUnpack k) s = .next { s with
    resp := some { tm := some (unpackTm s.params k), flag := some (unpackFlag s.params k) } } := rfl

end

end Sys2Proof.Machine
end

section
/-! CLAIMS. The statements about the BCD codec. -/

namespace Sys2Proof.Machine

/-- Settles O17: the byte answered is `toBcd n`, the number answered `fromBcd b`, and each undoes the other on its
domain. -/
theorem bcdRoundTrip : Obligations.BcdRoundTrip := by
  refine ⟨fun n b s t hn ht hresp => ?number, fun n b s t hhigh hlow ht hresp => ?byte⟩
  case number =>
    rw [exec_toBcd] at ht
    cases ht
    cases hresp
    rw [exec_fromBcd, fromBcd_toBcd hn]
  case byte =>
    rw [exec_fromBcd] at ht
    cases ht
    cases hresp
    rw [exec_toBcd, toBcd_fromBcd hhigh hlow]

/-- Settles O18: each byte is `bcd8` of its value, and byte 7 is `wpByte` of the flag. -/
theorem blkPackPacksEachField : Obligations.BlkPackPacksEachField :=
  ⟨fun p _ => decodeHost_blkPack p, fun tm flag s => ⟨_, exec_blkPack s tm flag, bcd8_packsTo _, bcd8_packsTo _,
    bcd8_packsTo _, bcd8_packsTo _, bcd8_packsTo _, bcd8_packsTo _, bcd8_packsTo _, rfl⟩⟩

/-- Settles O19: each 8-bit field stores the decoded value, month and weekday less one. -/
theorem blkUnpackReadsEachByte : Obligations.BlkUnpackReadsEachByte := by
  refine ⟨fun p _ => decodeHost_blkUnpack p, fun k s => ⟨unpackTm s.params k, ?answer, ofInt8_bcdInt_toInt _,
    ofInt8_bcdInt_toInt _, ofInt8_bcdInt_toInt _, ofInt8_bcdInt_toInt _, ofInt8_bcdInt_pred_toInt _,
    ofInt8_bcdInt_pred_toInt _, ?year, rfl, rfl⟩⟩
  case answer => rw [exec_blkUnpack, unpackFlag_eq_decide]
  case year => simp only [unpackTm, bcdInt_eq_bcdValue]

/-- Settles O20: the record and the flag of the packed block are those that went in. -/
theorem blockRoundTrip : Obligations.BlockRoundTrip := fun tm flag s htm hon hoff =>
  ⟨_, exec_blkPack s tm flag, by rw [exec_blkUnpack, unpackTm_packBlk htm, unpackFlag_packBlk hon hoff]⟩

/-- Settles O15: up to 99 the joined digits are the sum of sixteen times the tens and the units. -/
theorem toBcdPacksTwoDigits : Obligations.ToBcdPacksTwoDigits := by
  refine ⟨fun p _ => decodeHost_toBcd p, fun n s => ⟨_, exec_toBcd s n, fun hn => ?_⟩⟩
  rw [tens_or_units (by omega), toBcd_toNat hn]
  omega

/-- Settles O16: the expression of R124 as a sum of the nibbles, each at most 15. -/
theorem fromBcdReadsEveryByte : Obligations.FromBcdReadsEveryByte := by
  refine ⟨fun p _ => decodeHost_fromBcd p, fun b s => ⟨_, exec_fromBcd s b, ?_⟩⟩
  rw [tens_add_units, fromBcd_toNat]
  omega

end Sys2Proof.Machine
end

section
/-! SUPPORT. The sequencer, a bit and a byte at a time: what its table does to the wires, with the position and the
transaction registers beside them (41_protocol.md R150 to R158). -/

namespace Sys2Proof.Machine

variable {s t : State}

/-! ## One event a step -/

/-- Exactly one event is emitted, and the pins follow it. -/
def EmitsOne (s t : State) : Prop := ∃ e, t.trace = s.trace ++ [e] ∧ t.pins = s.pins.after e

theorem seqFall_emitsOne (s : State) : EmitsOne s (seqFall s) ∧ (seqFall s).resp = s.resp := by
  unfold seqFall seqAfterCmd seqAfterByte
  dsimp only
  split
  · exact ⟨⟨.toggleClk, rfl, rfl⟩, rfl⟩
  · split
    all_goals split
    all_goals exact ⟨⟨.toggleClk, rfl, rfl⟩, rfl⟩

/-- Every row but the one of `IDLE` emits one event, and none hands out a response. -/
theorem SeqRow.emitsOne (h : SeqRow s t) (hbusy : s.seq.ph ≠ .idle) : EmitsOne s t ∧ t.resp = s.resp := by
  cases h with
  | idle hph => exact absurd hph hbusy
  | fall => exact seqFall_emitsOne s
  | drive | sample | rise | settle | turn | down | release => exact ⟨⟨_, rfl, rfl⟩, rfl⟩

/-! ## Runs of steps -/

theorem seqSteps_add (m n : Nat) (s : State) : seqSteps (m + n) s = (seqSteps m s).bind (seqSteps n) := by
  induction m generalizing s with
  | zero => rw [Nat.zero_add]; rfl
  | succ m ih =>
    rw [Nat.succ_add, seqSteps, seqSteps]
    cases seqStep s with
    | none => rfl
    | some u => exact ih u

/-- `m` steps that lead to `t`, then `n` more from there. -/
theorem seqSteps_trans {m : Nat} (n : Nat) (h : seqSteps m s = some t) : seqSteps (m + n) s = seqSteps n t := by
  rw [seqSteps_add, h, Option.bind_some]

/-! ## Positions and registers beside the wires -/

/-- `s` with the sequencer at `q` and the transaction registers `r`. -/
def State.atSeq (s : State) (q : Seq) (r : TxnRegs) : State := { s with seq := q, regs := r }

theorem finish_eq_atSeq (s : State) (c : Byte) (d : List Byte) : s.finish c d =
    s.atSeq Seq.atIdle ⟨c, c.getLsbD 0, BitVec.ofNat 5 d.length, d.getLastD 0, loadDb s.regs.db d⟩ := rfl

theorem seqStart_write (s : State) {c : Byte} (k : BitVec 5) (d : List Byte) (h0 : c.getLsbD 0 = false) :
    seqStart c k d s =
      (s.emit [.writeCs true]).atSeq ⟨.cmd, 0, 0, 0⟩ ⟨c, c.getLsbD 0, k, c, loadDb s.regs.db d⟩ := by
  rw [seqStart, if_neg (ne_true_of_eq_false h0)]
  rfl

theorem seqStart_read (s : State) {c : Byte} (k : BitVec 5) (d : List Byte) (h0 : c.getLsbD 0 = true) :
    seqStart c k d s = (s.emit [.writeCs true]).atSeq ⟨.cmd, 0, 0, 0⟩ ⟨c, c.getLsbD 0, k, c, s.regs.db⟩ := by
  rw [seqStart, if_pos h0]
  rfl

/-- Where the sequencer goes after the second clock edge of a bit: to the next bit, or to what follows bit 7. -/
def seqAfterBit (s : State) : State :=
  if s.seq.bit.toNat < 7 then { s with seq := { s.seq with sub := 0, bit := s.seq.bit + 1 } }
  else match s.seq.ph with
    | .cmd => seqAfterCmd s
    | _ => seqAfterByte s

/-- The two halves of the row that ends a bit: the edge, then the move. -/
theorem seqFall_eq (s : State) : seqFall s = seqAfterBit (s.emit [.toggleClk]) := rfl

variable {ph : Phase} {i : BitVec 5} {r : TxnRegs}

theorem seqAfterBit_of_lt {b : BitVec 3} (h : b.toNat < 7) :
    seqAfterBit (s.atSeq ⟨ph, 0, b, i⟩ r) = s.atSeq ⟨ph, 0, b + 1, i⟩ r := if_pos h

theorem seqAfterBit_command :
    seqAfterBit (s.atSeq ⟨.cmd, 0, 7, i⟩ r) =
      if r.rw then s.atSeq ⟨.turn, 0, 0, 0⟩ r else s.atSeq ⟨.data, 0, 0, 0⟩ { r with sh := dbAt r.db 0 } := rfl

/-- After a data byte, which a read has put into the data buffer, the sequencer goes to `DOWN` or to the next byte. -/
theorem seqAfterBit_data :
    seqAfterBit (s.atSeq ⟨.data, 0, 7, i⟩ r) =
      if i.toNat + 1 = r.cnt.toNat then
        s.atSeq ⟨.down, 0, 0, i⟩ { r with db := if r.rw then r.db.setIfInBounds i.toNat r.sh else r.db }
      else s.atSeq ⟨.data, 0, 0, i + 1⟩
        { r with
          db := if r.rw then r.db.setIfInBounds i.toNat r.sh else r.db
          sh := if r.rw then 0 else dbAt r.db (i.toNat + 1) } := rfl

theorem seqAfterBit_lastWritten (hrw : r.rw = false) (hlast : i.toNat + 1 = r.cnt.toNat) :
    seqAfterBit (s.atSeq ⟨.data, 0, 7, i⟩ r) = s.atSeq ⟨.down, 0, 0, i⟩ r := by
  rw [seqAfterBit_data, if_pos hlast, if_neg (ne_true_of_eq_false hrw)]

theorem seqAfterBit_written (hrw : r.rw = false) (hmore : i.toNat + 1 ≠ r.cnt.toNat) :
    seqAfterBit (s.atSeq ⟨.data, 0, 7, i⟩ r) =
      s.atSeq ⟨.data, 0, 0, i + 1⟩ { r with sh := dbAt r.db (i.toNat + 1) } := by
  rw [seqAfterBit_data, if_neg hmore, if_neg (ne_true_of_eq_false hrw), if_neg (ne_true_of_eq_false hrw)]

theorem seqAfterBit_lastRead (hrw : r.rw = true) (hlast : i.toNat + 1 = r.cnt.toNat) :
    seqAfterBit (s.atSeq ⟨.data, 0, 7, i⟩ r) =
      s.atSeq ⟨.down, 0, 0, i⟩ { r with db := r.db.setIfInBounds i.toNat r.sh } := by
  rw [seqAfterBit_data, if_pos hlast, if_pos hrw]

theorem seqAfterBit_read (hrw : r.rw = true) (hmore : i.toNat + 1 ≠ r.cnt.toNat) :
    seqAfterBit (s.atSeq ⟨.data, 0, 7, i⟩ r) =
      s.atSeq ⟨.data, 0, 0, i + 1⟩ { r with db := r.db.setIfInBounds i.toNat r.sh, sh := 0 } := by
  rw [seqAfterBit_data, if_neg hmore, if_pos hrw, if_pos hrw]

/-! ## A bit -/

/-- The sequencer drives the data pin: in `CMD`, and in `DATA` of a write. -/
def Driving (ph : Phase) (r : TxnRegs) : Prop := ph = .cmd ∨ ph = .data ∧ r.rw = false

/-- The four events of a bit written (41_protocol.md R143). -/
theorem seqSteps_bitWr (s : State) (b : BitVec 3) (i : BitVec 5) (h : Driving ph r) :
    seqSteps 4 (s.atSeq ⟨ph, 0, b, i⟩ r) =
      some (seqAfterBit ((s.emit (bitWr (r.sh.getLsbD b.toNat))).atSeq ⟨ph, 0, b, i⟩ r)) := by
  have hrun : s.emit (bitWr (r.sh.getLsbD b.toNat)) =
      (((s.emit [.writeDat (r.sh.getLsbD b.toNat)]).emit [.toggleClk]).emit [.settle]).emit [.toggleClk] := by
    simp only [emit_append]
    rfl
  rw [hrun]
  rcases h with rfl | ⟨rfl, hrw⟩
  · rfl
  · have hdrive : seqStep (s.atSeq ⟨.data, 0, b, i⟩ r) = some (seqDrive (s.atSeq ⟨.data, 0, b, i⟩ r)) :=
      congrArg some (if_neg (by simp [State.atSeq, hrw]))
    rw [seqSteps, hdrive]
    rfl

/-- The four events of a bit read (41_protocol.md R144). -/
theorem seqSteps_bitRd (s : State) (b : BitVec 3) (i : BitVec 5) (hrw : r.rw = true) :
    seqSteps 4 (s.atSeq ⟨.data, 0, b, i⟩ r) =
      some (seqAfterBit (s.bitRd.2.atSeq ⟨.data, 0, b, i⟩ { r with sh := setBit r.sh b.toNat s.bitRd.1 })) := by
  have hsample : seqStep (s.atSeq ⟨.data, 0, b, i⟩ r) = some (seqSample (s.atSeq ⟨.data, 0, b, i⟩ r)) :=
    congrArg some (if_pos hrw)
  have hrun : s.bitRd.2 = ((s.sample.2.emit [.toggleClk]).emit [.settle]).emit [.toggleClk] := by
    simp only [emit_append]
    rfl
  rw [seqSteps, hsample, hrun]
  rfl

/-! ## A byte -/

/-- The bits of a byte written before bit `n`. -/
theorem seqSteps_bitsWr (s : State) (i : BitVec 5) (h : Driving ph r) {n : Nat} (hn : n ≤ 7) :
    seqSteps (4 * n) (s.atSeq ⟨ph, 0, 0, i⟩ r) =
      some ((s.emit ((List.range n).flatMap fun j => bitWr (r.sh.getLsbD j))).atSeq
        ⟨ph, 0, BitVec.ofNat 3 n, i⟩ r) := by
  induction n with
  | zero => simp [seqSteps, State.emit]
  | succ n ih =>
    have hbit : (BitVec.ofNat 3 n).toNat = n := by rw [BitVec.toNat_ofNat]; omega
    have hnext : BitVec.ofNat 3 n + 1 = BitVec.ofNat 3 (n + 1) := by bv_omega
    have hlt : (BitVec.ofNat 3 n).toNat < 7 := by omega
    rw [Nat.mul_succ, seqSteps_trans 4 (ih (by omega)), seqSteps_bitWr _ _ _ h, seqAfterBit_of_lt hlt, hbit, hnext,
      emit_append, List.range_succ, List.flatMap_append, List.flatMap_singleton]

/-- The 32 events of a byte written (41_protocol.md R142, R153). -/
theorem seqSteps_byteWr (s : State) (i : BitVec 5) (h : Driving ph r) :
    seqSteps 32 (s.atSeq ⟨ph, 0, 0, i⟩ r) =
      some (seqAfterBit ((s.emit (traceByteWr r.sh)).atSeq ⟨ph, 0, 7, i⟩ r)) := by
  have hbyte : traceByteWr r.sh =
      ((List.range 7).flatMap fun j => bitWr (r.sh.getLsbD j)) ++ bitWr (r.sh.getLsbD 7) := rfl
  rw [seqSteps_trans (m := 4 * 7) 4 (seqSteps_bitsWr s i h (le_refl 7)), hbyte, ← emit_append]
  exact seqSteps_bitWr _ 7 i h

/-- The levels `ls` set in `sh` from bit `b` on. -/
def setLevels (sh : Byte) (b : Nat) (ls : List Level) : Byte :=
  (ls.zipIdx b).foldl (fun v li => setBit v li.2 li.1) sh

theorem setLevels_zero (ls : List Level) : setLevels 0 0 ls = byteOfLevels ls := rfl

/-- The bits of a byte read, from bit `b` to bit 7. -/
theorem seqSteps_bitsRd (s : State) (i : BitVec 5) {n b : Nat} (hb : b + n = 7) (hrw : r.rw = true) :
    seqSteps (4 * (n + 1)) (s.atSeq ⟨.data, 0, BitVec.ofNat 3 b, i⟩ r) =
      some (seqAfterBit ((State.bitsRd (n + 1) s).2.atSeq ⟨.data, 0, 7, i⟩
        { r with sh := setLevels r.sh b (State.bitsRd (n + 1) s).1 })) := by
  have hbit : (BitVec.ofNat 3 b).toNat = b := by rw [BitVec.toNat_ofNat]; omega
  induction n generalizing s b r with
  | zero =>
    obtain rfl : b = 7 := hb
    exact seqSteps_bitRd s 7 i hrw
  | succ n ih =>
    have hlt : (BitVec.ofNat 3 b).toNat < 7 := by omega
    have hnext : BitVec.ofNat 3 b + 1 = BitVec.ofNat 3 (b + 1) := by bv_omega
    have hbit' : (BitVec.ofNat 3 (b + 1)).toNat = b + 1 := by rw [BitVec.toNat_ofNat]; omega
    have hfirst := seqSteps_bitRd s (BitVec.ofNat 3 b) i hrw
    rw [seqAfterBit_of_lt hlt, hnext, hbit] at hfirst
    have hsteps : 4 * (n + 1 + 1) = 4 + 4 * (n + 1) := by omega
    have hrest := ih s.bitRd.2 (by omega) (r := { r with sh := setBit r.sh b s.bitRd.1 }) hrw hbit'
    rw [hsteps, seqSteps_trans _ hfirst, hrest]
    rfl

/-- The 32 events of a byte read (41_protocol.md R145): the byte gathers in the shift register. -/
theorem seqSteps_byteRd (s : State) (i : BitVec 5) (hrw : r.rw = true) (hsh : r.sh = 0) :
    seqSteps 32 (s.atSeq ⟨.data, 0, 0, i⟩ r) =
      some (seqAfterBit (s.byteRd.2.atSeq ⟨.data, 0, 7, i⟩ { r with sh := s.byteRd.1 })) := by
  have h := seqSteps_bitsRd s i (n := 7) (b := 0) rfl hrw
  rw [hsh, setLevels_zero] at h
  exact h

/-! ## The bytes of a transaction -/

/-- The data bytes of a write, from byte `i` on (41_protocol.md R155): `v` in the shift register, `d` after it in the
data buffer. -/
theorem seqSteps_bytesWr (s : State) (d : List Byte) (v : Byte) (hrw : r.rw = false)
    (hcnt : i.toNat + 1 + d.length = r.cnt.toNat)
    (hdb : ∀ j, (h : j < d.length) → dbAt r.db (i.toNat + 1 + j) = d[j]) :
    ∃ i', seqSteps (32 * (d.length + 1)) (s.atSeq ⟨.data, 0, 0, i⟩ { r with sh := v }) =
      some ((s.emit ((v :: d).flatMap traceByteWr)).atSeq ⟨.down, 0, 0, i'⟩
        { r with sh := (v :: d).getLastD 0 }) := by
  have hbyte := seqSteps_byteWr s i (ph := .data) (r := { r with sh := v }) (.inr ⟨rfl, hrw⟩)
  induction d generalizing s i v with
  | nil =>
    have hlast : i.toNat + 1 = r.cnt.toNat := hcnt
    refine ⟨i, ?_⟩
    rw [seqAfterBit_lastWritten (r := { r with sh := v }) hrw hlast] at hbyte
    rw [List.flatMap_singleton]
    exact hbyte
  | cons w d ih =>
    rw [List.length_cons] at hcnt
    have hmore : i.toNat + 1 ≠ r.cnt.toNat := by omega
    have hi : (i + 1).toNat = i.toNat + 1 := by bv_omega
    have hw : dbAt r.db (i.toNat + 1) = w := hdb 0 (Nat.succ_pos _)
    rw [seqAfterBit_written (r := { r with sh := v }) hrw hmore, hw] at hbyte
    obtain ⟨i', hrest⟩ := ih (s.emit (traceByteWr v)) (i := i + 1) w (by omega)
      (fun j hj => by
        have hplace : i.toNat + 1 + 1 + j = i.toNat + 1 + (j + 1) := by omega
        rw [hi, hplace]
        exact hdb (j + 1) (Nat.succ_lt_succ hj))
      (seqSteps_byteWr _ _ (.inr ⟨rfl, hrw⟩))
    have hsteps : 32 * ((w :: d).length + 1) = 32 + 32 * (d.length + 1) := by rw [List.length_cons]; omega
    refine ⟨i', ?_⟩
    rw [hsteps, seqSteps_trans _ hbyte]
    refine hrest.trans ?_
    rw [emit_append, ← List.flatMap_cons]
    rfl

/-- The data buffer after the bytes `d` have been sampled into it from element `i` on (41_protocol.md R156). -/
def sampledInto (db : Vector Byte 31) : Nat → List Byte → Vector Byte 31
  | _, [] => db
  | i, v :: d => sampledInto (db.setIfInBounds i v) (i + 1) d

theorem sampledInto_getElem (db : Vector Byte 31) (i : Nat) (d : List Byte) {j : Nat} (hj : j < 31) :
    (sampledInto db i d)[j] = if i ≤ j then d.getD (j - i) db[j] else db[j] := by
  induction d generalizing db i with
  | nil => simp [sampledInto]
  | cons v d ih =>
    rw [sampledInto, ih, Vector.getElem_setIfInBounds]
    rcases lt_trichotomy i j with h | rfl | h
    · have hpos : j - i = j - (i + 1) + 1 := by omega
      simp [h.le, h.ne, Nat.succ_le_of_lt h, hpos]
    · simp
    · simp [Nat.not_le.2 h, h.ne', Nat.not_le.2 (Nat.lt_succ_of_lt h)]

/-- Sampled one by one or loaded at once, the buffer is the same. -/
theorem sampledInto_zero (db : Vector Byte 31) (d : List Byte) : sampledInto db 0 d = loadDb db d :=
  Vector.ext fun j hj => by
    rw [sampledInto_getElem db 0 d hj, loadDb_getElem db d hj, if_pos (Nat.zero_le j), Nat.sub_zero]

theorem bytesRd_succ (k : Nat) (s : State) :
    State.bytesRd (k + 1) s = (s.byteRd.1 :: (State.bytesRd k s.byteRd.2).1, (State.bytesRd k s.byteRd.2).2) := by
  rw [State.bytesRd]

/-- The data bytes of a read, from byte `i` on (41_protocol.md R156). -/
theorem seqSteps_bytesRd (s : State) (n : Nat) (hrw : r.rw = true) (hsh : r.sh = 0)
    (hcnt : i.toNat + 1 + n = r.cnt.toNat) :
    ∃ i', seqSteps (32 * (n + 1)) (s.atSeq ⟨.data, 0, 0, i⟩ r) =
      some ((State.bytesRd (n + 1) s).2.atSeq ⟨.down, 0, 0, i'⟩
        { r with
          sh := (State.bytesRd (n + 1) s).1.getLastD 0
          db := sampledInto r.db i.toNat (State.bytesRd (n + 1) s).1 }) := by
  have hbyte := seqSteps_byteRd s i hrw hsh
  induction n generalizing s i r with
  | zero =>
    have hlast : i.toNat + 1 = r.cnt.toNat := hcnt
    refine ⟨i, ?_⟩
    rw [seqAfterBit_lastRead (r := { r with sh := s.byteRd.1 }) hrw hlast] at hbyte
    simp only [bytesRd_succ, List.getLastD_cons, sampledInto]
    exact hbyte
  | succ n ih =>
    have hmore : i.toNat + 1 ≠ r.cnt.toNat := by omega
    have hi : (i + 1).toNat = i.toNat + 1 := by bv_omega
    have hcnt' : (i + 1).toNat + 1 + n = r.cnt.toNat := by omega
    rw [seqAfterBit_read (r := { r with sh := s.byteRd.1 }) hrw hmore] at hbyte
    obtain ⟨i', hrest⟩ := ih s.byteRd.2 (i := i + 1)
      (r := { r with sh := 0, db := r.db.setIfInBounds i.toNat s.byteRd.1 }) hrw rfl hcnt'
      (seqSteps_byteRd _ _ hrw rfl)
    have hsteps : 32 * (n + 1 + 1) = 32 + 32 * (n + 1) := by omega
    refine ⟨i', ?_⟩
    rw [hsteps, seqSteps_trans _ hbyte]
    simp only [bytesRd_succ, List.getLastD_cons, sampledInto, hi] at hrest ⊢
    exact hrest

/-! ## The transactions -/

theorem wrTxn_trace (c : Byte) (d : List Byte) (s : State) : (wrTxn c d s).trace = s.trace ++ wrTrace c d := by
  rw [wrTxn_spec, finish_trace, emit_trace]

theorem rdTxn_trace (c : Byte) (k : Nat) (s : State) :
    (rdTxn c k s).2.trace = s.trace ++ rdTrace c (rdTxn c k s).1 := by
  rw [(rdTxn_spec c k s).2]
  rfl

theorem seqStep_turn : seqStep (s.atSeq ⟨.turn, 0, 0, i⟩ r) =
    some ((s.emit [.setInDat]).atSeq ⟨.data, 0, 0, 0⟩ { r with sh := 0 }) := rfl

theorem seqStep_down : seqStep (s.atSeq ⟨.down, 0, 0, i⟩ r) =
    some ((s.emit [.writeCs false]).atSeq (if r.rw then ⟨.release, 0, 0, 0⟩ else Seq.atIdle) r) := rfl

theorem seqStep_release : seqStep (s.atSeq ⟨.release, 0, 0, i⟩ r) =
    some ((s.emit [.setOutDat]).atSeq Seq.atIdle r) := rfl

/-- The data buffer gives out the bytes loaded into it. -/
theorem dbAt_loadDb (db : Vector Byte 31) {d : List Byte} (h31 : d.length ≤ 31) {j : Nat} (h : j < d.length) :
    dbAt (loadDb db d) j = d[j] := by
  have hj : j < 31 := by omega
  rw [dbAt, Vector.getElem?_eq_getElem hj, Option.getD_some, loadDb_getElem db d hj, List.getD_eq_getElem _ _ h]

/-- A write from its start on: the command byte, the data bytes, then `DOWN` (41_protocol.md R152, R161). -/
theorem seqSteps_write (s : State) {d : List Byte} (h1 : 1 ≤ d.length) (hrw : r.rw = false)
    (hcnt : r.cnt.toNat = d.length) (hdb : ∀ j, (h : j < d.length) → dbAt r.db j = d[j]) :
    seqSteps (33 + 32 * d.length) (s.atSeq ⟨.cmd, 0, 0, 0⟩ r) =
      some ((s.emit (traceByteWr r.sh ++ d.flatMap traceByteWr ++ [.writeCs false])).atSeq Seq.atIdle
        { r with sh := d.getLastD 0 }) := by
  obtain ⟨v, d, rfl⟩ := List.exists_cons_of_length_pos h1
  have hcmd := seqSteps_byteWr s 0 (r := r) (.inl rfl)
  rw [seqAfterBit_command, if_neg (ne_true_of_eq_false hrw), hdb 0 h1] at hcmd
  rw [List.length_cons] at hcnt
  have hzero : (0 : BitVec 5).toNat = 0 := rfl
  have hrest : ∀ j, (h : j < d.length) → dbAt r.db ((0 : BitVec 5).toNat + 1 + j) = d[j] := fun j h => by
    rw [hzero, Nat.zero_add, Nat.add_comm]
    exact hdb (j + 1) (Nat.succ_lt_succ h)
  obtain ⟨i, hdata⟩ := seqSteps_bytesWr (i := 0) (r := r) (s.emit (traceByteWr r.sh)) d v hrw
    (by rw [hcnt, hzero, Nat.zero_add, Nat.add_comm]) hrest
  have hsteps : 33 + 32 * (v :: d).length = 32 + (32 * (d.length + 1) + 1) := by rw [List.length_cons]; omega
  rw [hsteps, seqSteps_trans _ hcmd]
  refine (seqSteps_trans 1 hdata).trans ?_
  rw [seqSteps, seqStep_down, if_neg (ne_true_of_eq_false hrw), emit_append, emit_append]
  rfl

/-- A read from its start on: the command byte, the turn of the data pin, the data bytes, then `DOWN` and `RELEASE`
(41_protocol.md R152, R160). -/
theorem seqSteps_read (s : State) {k : Nat} (h1 : 1 ≤ k) (hrw : r.rw = true) (hcnt : r.cnt.toNat = k)
    {u : List Byte × State} (hu : State.bytesRd k (s.emit (traceByteWr r.sh ++ [.setInDat])) = u) :
    seqSteps (35 + 32 * k) (s.atSeq ⟨.cmd, 0, 0, 0⟩ r) =
      some ((u.2.emit [.writeCs false, .setOutDat]).atSeq Seq.atIdle
        { r with sh := u.1.getLastD 0, db := loadDb r.db u.1 }) := by
  obtain ⟨n, rfl⟩ : ∃ n, k = n + 1 := ⟨k - 1, by omega⟩
  have hcmd := seqSteps_byteWr s 0 (r := r) (.inl rfl)
  rw [seqAfterBit_command, if_pos hrw] at hcmd
  have hzero : (0 : BitVec 5).toNat = 0 := rfl
  obtain ⟨i, hdata⟩ := seqSteps_bytesRd (i := 0) (r := { r with sh := 0 })
    ((s.emit (traceByteWr r.sh)).emit [.setInDat]) n hrw rfl
    (by rw [hcnt, hzero, Nat.zero_add, Nat.add_comm])
  rw [emit_append, hu] at hdata
  have hsteps : 35 + 32 * (n + 1) = 32 + (1 + (32 * (n + 1) + 2)) := by omega
  rw [hsteps, seqSteps_trans _ hcmd, Nat.add_comm 1, seqSteps, seqStep_turn, emit_append]
  refine (seqSteps_trans 2 hdata).trans ?_
  rw [seqSteps, seqStep_down, if_pos hrw, hzero, sampledInto_zero]
  simp only [seqSteps, seqStep_release, emit_append]
  rfl

end Sys2Proof.Machine
end

section
/-! CLAIMS. The statements about the sequencer. -/

namespace Sys2Proof.Machine

/-- Settles O24: every row the sequencer can take in a transaction emits one event and stays within its frame. -/
theorem sequencerStepEmitsOneEvent : Obligations.SequencerStepEmitsOneEvent := by
  intro s t hbusy hst
  have hrow := seqStep_row hst
  obtain ⟨hsame, _, hcmdb, hrw, hcnt⟩ := hrow.frame
  obtain ⟨⟨e, htrace, hpins⟩, hresp⟩ := hrow.emitsOne hbusy
  exact ⟨e, htrace, hpins, hsame, hresp, hcmdb, hrw, hcnt⟩

/-- Settles O21: the start loads the data buffer, from which the table sends the bytes. -/
theorem sequencerRunsWriteTransactions : Obligations.SequencerRunsWriteTransactions := by
  intro s c d h0 h1 h31
  have hevents : [.writeCs true] ++ (traceByteWr c ++ d.flatMap traceByteWr ++ [.writeCs false]) = wrTrace c d := by
    simp only [wrTrace, List.append_assoc]
  have hrun := seqSteps_write (r := ⟨c, c.getLsbD 0, BitVec.ofNat 5 d.length, c, loadDb s.regs.db d⟩)
    (s.emit [.writeCs true]) h1 h0 (cnt_toNat h31) fun j h => dbAt_loadDb _ h31 h
  dsimp only at hrun
  refine ⟨?_, wrTxn_trace c d s, rfl⟩
  rw [seqStart_write s _ d h0, hrun, emit_append, hevents, wrTxn_spec, finish_eq_atSeq, emit_regs]

/-- Settles O22: the table reads into the data buffer what the transaction reads. -/
theorem sequencerRunsReadTransactions : Obligations.SequencerRunsReadTransactions := by
  intro s c k h0 h1 h31
  have hlen := (rdTxn_spec c k s).1
  have hcnt : (BitVec.ofNat 5 k).toNat = k := Nat.mod_eq_of_lt (Nat.lt_succ_of_le h31)
  have hstart : (s.emit [.writeCs true]).emit (traceByteWr c ++ [.setInDat]) = readStart c s := by
    rw [emit_append, readStart, byteWr_eq_trace]
    rfl
  have hregs : (State.bytesRd k (readStart c s)).2.regs = s.regs := by
    rw [(bytesRd_spec k (readStart c s)).2]
    rfl
  have hend : (rdTxn c k s).2 =
      ((State.bytesRd k (readStart c s)).2.emit [.writeCs false, .setOutDat]).finish c (rdTxn c k s).1 := rfl
  have hrun := seqSteps_read (r := ⟨c, c.getLsbD 0, BitVec.ofNat 5 k, c, s.regs.db⟩) (s.emit [.writeCs true]) h1 h0
    hcnt (congrArg (State.bytesRd k) hstart)
  dsimp only at hrun
  refine ⟨?_, hlen, rdTxn_trace c k s, rfl⟩
  rw [seqStart_read s _ [] h0, hrun, hend, finish_eq_atSeq, emit_regs, hregs, hlen, rdTxn_bytes]

end Sys2Proof.Machine
end

section
/-! SUPPORT. The wire operations: the codes they are requested by (30_encoding.md R101), the command bytes they send
(R92 to R94), and the transaction each is from the idle invariant, with its response (41_protocol.md R162 to R179). -/

namespace Sys2Proof.Machine

variable {s t : State} {c : Byte}

/-! ## The clock edges of a transaction -/

theorem toggles_append (es fs : List PinEvent) : toggles (es ++ fs) = toggles es + toggles fs :=
  List.countP_append

theorem toggles_traceByteWr (v : Byte) : toggles (traceByteWr v) = 16 := by
  simp [toggles, traceByteWr, List.range, List.range.loop]

theorem toggles_traceByteRd (v : Byte) : toggles (traceByteRd v) = 16 := by
  simp [toggles, traceByteRd, List.range, List.range.loop]

/-- Bytes of 16 clock edges each. -/
theorem toggles_flatMap {f : Byte → List PinEvent} (hf : ∀ v, toggles (f v) = 16) (d : List Byte) :
    toggles (d.flatMap f) = 16 * d.length := by
  induction d with
  | nil => rfl
  | cons v d ih => rw [List.flatMap_cons, toggles_append, hf, ih, List.length_cons]; omega

theorem toggles_wrTrace (c : Byte) (d : List Byte) : toggles (wrTrace c d) = 16 + 16 * d.length := by
  have hcs : ∀ l, toggles [.writeCs l] = 0 := fun _ => rfl
  simp only [wrTrace, toggles_append, toggles_traceByteWr, toggles_flatMap toggles_traceByteWr, hcs]
  omega

theorem toggles_rdTrace (c : Byte) (d : List Byte) : toggles (rdTrace c d) = 16 + 16 * d.length := by
  have hstart : toggles [.writeCs true] = 0 := rfl
  have hturn : toggles [.setInDat] = 0 := rfl
  have hend : toggles [.writeCs false, .setOutDat] = 0 := rfl
  simp only [rdTrace, toggles_append, toggles_traceByteWr, toggles_flatMap toggles_traceByteRd, hstart, hturn, hend]
  omega

/-! ## The operation codes -/

section
variable (p : Params) {r : HostReq}

theorem decodeHost_regRd (h : r.op = 0x10) : decodeHost p r = .ok (.regRd r.addr) := by rw [decodeHost, h]; rfl
theorem decodeHost_regWr (h : r.op = 0x11) : decodeHost p r = .ok (.regWr r.addr r.b) := by rw [decodeHost, h]; rfl
theorem decodeHost_clkBurstRd (h : r.op = 0x12) : decodeHost p r = .ok .clkBurstRd := by rw [decodeHost, h]; rfl
theorem decodeHost_clkBurstWr (h : r.op = 0x13) : decodeHost p r = .ok (.clkBurstWr r.blk) := by
  rw [decodeHost, h]; rfl
theorem decodeHost_ramRd (h : r.op = 0x14) : decodeHost p r = .ok (.ramRd r.addr) := by rw [decodeHost, h]; rfl
theorem decodeHost_ramWr (h : r.op = 0x15) : decodeHost p r = .ok (.ramWr r.addr r.b) := by rw [decodeHost, h]; rfl
theorem decodeHost_ramBurstRd (h : r.op = 0x16) :
    decodeHost p r = .ok (.ramBurstRd (r.size % 2 ^ p.sizeBits)) := by rw [decodeHost, h]; rfl
theorem decodeHost_ramBurstWr (h : r.op = 0x17) :
    decodeHost p r = .ok (.ramBurstWr (r.size % 2 ^ p.sizeBits) r.data) := by rw [decodeHost, h]; rfl
theorem decodeHost_wpSet (h : r.op = 0x18) : decodeHost p r = .ok (.wpSet r.flag) := by rw [decodeHost, h]; rfl
theorem decodeHost_chipGetTime (h : r.op = 0x19) : decodeHost p r = .ok .chipGetTime := by rw [decodeHost, h]; rfl
theorem decodeHost_chipSetTime (h : r.op = 0x1A) : decodeHost p r = .ok (.chipSetTime r.tm r.flag) := by
  rw [decodeHost, h]; rfl

end

/-! ## The command bytes -/

/-- The command byte of an address, its bits 7 and 6 dropped (30_encoding.md R92; 41_protocol.md R164). -/
theorem cmdByte_eq (a : Byte) : cmdByte a .write = BitVec.ofNat 8 (0x80 + 2 * (a.toNat % 64)) ∧
    cmdByte a .read = BitVec.ofNat 8 (0x81 + 2 * (a.toNat % 64)) := by
  revert a
  decide

/-- The command byte of a memory address up to 30 (30_encoding.md R94). -/
theorem ramCmd_byte_eq {a : Byte} (ha : a.toNat ≤ 30) : ramCmd a .write = BitVec.ofNat 8 (0xC0 + 2 * a.toNat) ∧
    ramCmd a .read = BitVec.ofNat 8 (0xC1 + 2 * a.toNat) := by
  obtain ⟨_, _, _, hram⟩ := commandByteFormation
  obtain ⟨_, hwrite, _, hread⟩ := hram a ha
  exact ⟨BitVec.eq_of_toNat_eq (by rw [hwrite, BitVec.toNat_ofNat]; omega),
    BitVec.eq_of_toNat_eq (by rw [hread, BitVec.toNat_ofNat]; omega)⟩

/-! ## One transaction and its response -/

/-- A response changes nothing a write transaction has left. -/
theorem WriteDone.respond {d : List Byte} (h : WriteDone c d s t) (r : Response) : WriteDone c d s (t.respond r) := by
  obtain ⟨htrace, hpins, hseq, hcmdb, hrw, hcnt, hsh, hdb, hasked, hsame, hstored, htakes⟩ := h
  have hsame' : SameBeside s (t.respond r) := by
    rw [hsame]
    rfl
  exact ⟨htrace, hpins, hseq, hcmdb, hrw, hcnt, hsh, hdb, hasked, hsame', hstored, htakes⟩

/-- A response changes nothing a read transaction has left. -/
theorem ReadDone.respond {d : List Byte} (h : ReadDone c d s t) (r : Response) : ReadDone c d s (t.respond r) := by
  obtain ⟨htrace, hpins, hseq, hcmdb, hrw, hcnt, hsh, hdb, hasked, hsame, hpeer⟩ := h
  have hsame' : SameBeside s (t.respond r) := by
    rw [hsame]
    rfl
  exact ⟨htrace, hpins, hseq, hcmdb, hrw, hcnt, hsh, hdb, hasked, hsame', hpeer⟩

/-- An operation that writes, from the idle invariant: its transaction and the response `r`. -/
theorem wireWrite_done {d : List Byte} (r : Response) (hs : s.idle) (h1 : 1 ≤ d.length) (h31 : d.length ≤ 31)
    (h7 : c.getLsbD 7 = true) (h0 : c.getLsbD 0 = false) :
    ∃ t, onWire s (wireWrite c d r) = .next t ∧ t.resp = some r ∧ WriteDone c d s t :=
  ⟨_, onWire_of_idle _ hs, rfl, (wrTxn_writeDone hs h1 h31 h7 h0).respond r⟩

/-- An operation that reads `k` bytes, from the idle invariant: its transaction and the response `r` makes of the bytes
the peer answered. -/
theorem wireRead_done {k : Nat} (r : List Byte → Response) (hs : s.idle) (hk : k ≤ 31) (h7 : c.getLsbD 7 = true)
    (h0 : c.getLsbD 0 = true) :
    ∃ t d, d.length = k ∧ onWire s (wireRead c k r) = .next t ∧ t.resp = some (r d) ∧ ReadDone c d s t ∧
      Answered c d s t := by
  have ⟨_, _, hclk, _⟩ := hs
  exact ⟨_, _, (rdTxn_spec c k s).1, onWire_of_idle _ hs, rfl, (rdTxn_readDone hs hk h7 h0).respond _,
    rdTxn_answered k hclk h7 h0⟩

/-- The same for an operation that reads a single byte and answers it. -/
theorem wireRead_one_done (hs : s.idle) (h7 : c.getLsbD 7 = true) (h0 : c.getLsbD 0 = true) :
    ∃ t v, onWire s (wireRead c 1 fun d => { b := some (d.headD 0) }) = .next t ∧ t.resp = some { b := some v } ∧
      ReadDone c [v] s t ∧ Answered c [v] s t := by
  obtain ⟨t, d, hlen, hdone⟩ := wireRead_done (fun d => { b := some (d.headD 0) }) hs (by decide : 1 ≤ 31) h7 h0
  obtain ⟨v, rfl⟩ := List.length_eq_one_iff.1 hlen
  exact ⟨t, v, hdone⟩

/-- Eight bytes are a register block. -/
theorem blk_toList_ofList {d : List Byte} (h : d.length = 8) : (Blk.ofList d).toList = d := by
  match d, h with
  | [_, _, _, _, _, _, _, _], _ => rfl

/-- The same for an operation that reads the register block and answers `r` of it. -/
theorem wireRead_block_done (r : Blk → Response) (hs : s.idle) :
    ∃ t k, onWire s (wireRead (clkBurstCmd .read) 8 fun d => r (Blk.ofList d)) = .next t ∧ t.resp = some (r k) ∧
      ReadDone (clkBurstCmd .read) k.toList s t ∧ Answered (clkBurstCmd .read) k.toList s t := by
  obtain ⟨t, d, hlen, ht, hresp, hdone, hanswered⟩ := wireRead_done (fun d => r (Blk.ofList d)) hs
    (by decide : 8 ≤ 31) (clkBurstCmd_bit7 .read) (clkBurstCmd_bit0 .read)
  rw [← blk_toList_ofList hlen] at hdone hanswered
  exact ⟨t, Blk.ofList d, ht, hresp, hdone, hanswered⟩

/-- A block written, from the idle invariant. -/
theorem wireWrite_block_done (k : Blk) (hs : s.idle) :
    ∃ t, onWire s (wireWrite (clkBurstCmd .write) k.toList {}) = .next t ∧ t.resp = some {} ∧
      WriteDone (clkBurstCmd .write) k.toList s t :=
  wireWrite_done {} hs (by simp [Blk.toList]) (by simp [Blk.toList]) (clkBurstCmd_bit7 _) (clkBurstCmd_bit0 _)

theorem badAddr_eq_true {addr : Byte} (h : 30 < addr.toNat) : badAddr addr = true := decide_eq_true h

end Sys2Proof.Machine
end

section
/-! CLAIMS. The statements about the transactions and the wire operations. -/

namespace Sys2Proof.Machine

/-- Settles O23: the pins of the two transactions, and 16 clock edges a byte in their traces. -/
theorem transactionsEndIdle : Obligations.TransactionsEndIdle := by
  refine fun s c hs => ⟨fun d hd => ⟨wrTxn_idle c d hs, ?writeLatch, ?writeToggles⟩,
    fun k => ⟨rdTxn_idle c k hs, ?readLatch, ?readToggles⟩⟩
  case writeLatch => rw [wrTxn_pins c d s hs.2 hd]
  case writeToggles => rw [wrTxn_trace, List.drop_left, toggles_wrTrace]
  case readLatch => rw [rdTxn_pins c k s hs.2]
  case readToggles => rw [rdTxn_trace, List.drop_left, toggles_rdTrace, (rdTxn_spec c k s).1]

/-- Settles O25: each is a write of one byte under its command byte. -/
theorem registerWritesSendOneByte : Obligations.RegisterWritesSendOneByte := by
  refine ⟨fun p _ => ⟨decodeHost_regWr p, decodeHost_wpSet p⟩, fun s hs =>
    ⟨fun addr b => ?_, fun flag => ?_⟩⟩
  · rw [← (cmdByte_eq addr).1]
    exact wireWrite_done {} hs (le_refl 1) (by decide : 1 ≤ 31) (cmdByte_bit7 _ _) (cmdByte_bit0 _ _)
  · exact wireWrite_done {} hs (le_refl 1) (by decide : 1 ≤ 31) (cmdByte_bit7 wpAddr _) (cmdByte_bit0 wpAddr _)

/-- Settles O26: a read of one byte under the command byte of the address. -/
theorem registerReadReturnsTheByte : Obligations.RegisterReadReturnsTheByte := by
  refine ⟨fun p _ => decodeHost_regRd p, fun s hs addr => ?_⟩
  rw [← (cmdByte_eq addr).2]
  exact wireRead_one_done hs (cmdByte_bit7 _ _) (cmdByte_bit0 _ _)

/-- Settles O27: each is a write of a block, the second of the one `BLK_PACK` answers. -/
theorem blockWritesSendEightBytes : Obligations.BlockWritesSendEightBytes := by
  refine ⟨fun p _ => ⟨decodeHost_clkBurstWr p, decodeHost_chipSetTime p⟩, fun s hs =>
    ⟨fun k => wireWrite_block_done k hs, fun tm flag => ?_⟩⟩
  obtain ⟨t, ht, hresp, hdone⟩ := wireWrite_block_done (packBlk s.params tm flag) hs
  exact ⟨t, _, ht, hresp, exec_blkPack s tm flag, hdone⟩

/-- Settles O28: each is a read of a block, the second answering what `BLK_UNPACK` makes of it. -/
theorem blockReadsReturnEightBytes : Obligations.BlockReadsReturnEightBytes := by
  refine ⟨fun p _ => ⟨decodeHost_clkBurstRd p, decodeHost_chipGetTime p⟩, fun s hs =>
    ⟨wireRead_block_done (fun k => { blk := some k }) hs, ?_⟩⟩
  obtain ⟨t, k, ht, hresp, hdone⟩ := wireRead_block_done
    (fun k => { tm := some (unpackTm s.params k), flag := some (unpackFlag s.params k) }) hs
  exact ⟨t, k, _, ht, exec_blkUnpack s k, hresp, hdone⟩

/-- Settles O29: the address is checked first; then a transaction of one byte under the command byte of the memory
address. -/
theorem memoryByteAccess : Obligations.MemoryByteAccess := by
  refine ⟨fun p _ => ⟨decodeHost_ramRd p, decodeHost_ramWr p⟩, fun s addr =>
    ⟨fun ha => ?refused, fun ha hs => ?access⟩⟩
  case refused => exact ⟨if_pos (badAddr_eq_true ha), fun b => if_pos (badAddr_eq_true ha)⟩
  case access =>
    have hgood : ¬ badAddr addr = true := ne_true_of_eq_false (badAddr_eq_false ha)
    rw [← (ramCmd_byte_eq ha).1, ← (ramCmd_byte_eq ha).2]
    refine ⟨?_, fun b => ?_⟩
    · obtain ⟨t, v, ht, hdone⟩ := wireRead_one_done hs (ramCmd_bit7 addr .read) (ramCmd_bit0 addr .read)
      exact ⟨t, v, (if_neg hgood).trans ht, hdone⟩
    · obtain ⟨t, ht, hdone⟩ := wireWrite_done {} hs (d := [b]) (le_refl 1) (by decide : 1 ≤ 31)
        (ramCmd_bit7 addr .write) (ramCmd_bit0 addr .write)
      exact ⟨t, (if_neg hgood).trans ht, hdone⟩

/-- Settles O30: the count is checked first; then a read of that many bytes. -/
theorem memoryBurstReadClamps : Obligations.MemoryBurstReadClamps := by
  refine ⟨fun p _ => decodeHost_ramBurstRd p, fun s size => ⟨fun h => by subst h; rfl, fun h hs => ?_⟩⟩
  obtain ⟨t, d, hlen, ht, hdone⟩ := wireRead_done
    (fun d => { data := some d, count := some (BitVec.ofNat 5 (min size 31)) }) hs (Nat.min_le_right size 31)
    (ramBurstCmd_bit7 .read) (ramBurstCmd_bit0 .read)
  exact ⟨t, d, hlen, (if_neg (clampSize_ne_zero h)).trans ht, hdone⟩

end Sys2Proof.Machine
end

section
/-! SUPPORT. The bytes of the reference peer after the memory burst write and its write-protect frame (20_memory.md R83;
41_protocol.md R174). -/

namespace Sys2Proof.Machine

variable {s t u v : State} {r : RefPeer}

/-- The write-protect register is the one place of a single write to it. -/
theorem placeOf_wp (k : Nat) : placeOf 0x8E#8 k = if k = 0 then some 7 else none := by
  by_cases h : k = 0 <;> simp [placeOf, RefPeer.target, RefPeer.addr, cmdAddr, Mem.exists, h]

/-- Byte `k` of a memory burst stands at memory address `k`. -/
theorem placeOf_ramBurst {k : Nat} (hk : k < 31) : placeOf 0xFE#8 k = some (32 + k) := by
  simp [placeOf, RefPeer.target, RefPeer.addr, cmdAddr, Nat.le_of_lt_succ hk]

/-- A write to the write-protect register always arrives, and at no other byte. -/
theorem StoredBy.wp {b : Byte} (h : StoredBy 0x8E#8 [b] s t) (hpeer : s.peer = .reference r)
    (hwf : Mem.wf r.mem = true) :
    t.peer.byteAt 7 = some b ∧ ∀ a, a ≠ 7 → t.peer.byteAt a = s.peer.byteAt a := by
  obtain ⟨hkept, hstored, _⟩ := h
  refine ⟨hstored r hpeer hwf 0 Nat.one_pos 7 (placeOf_wp 0), fun a ha => hkept a fun k _ he => ha ?_⟩
  rw [placeOf_wp] at he
  split at he
  · exact (Option.some.inj he).symm
  · cases he

/-- A memory burst write arrives where the peer is not protected, from memory address 0 on. -/
theorem StoredBy.ramBurst {d : List Byte} (h : StoredBy 0xFE#8 d s t) (hd : d.length ≤ 31)
    (hpeer : s.peer = .reference r) (hwf : Mem.wf r.mem = true) :
    (∀ k, (hk : k < d.length) → t.peer.byteAt (32 + k) =
      if (Mem.read r.mem 7).getLsbD 7 = false then some d[k] else s.peer.byteAt (32 + k)) ∧
    ∀ a, (a < 32 ∨ 32 + d.length ≤ a) → t.peer.byteAt a = s.peer.byteAt a := by
  obtain ⟨hkept, hstored, _⟩ := h
  refine ⟨fun k hk => ?_, fun a ha => hkept a fun k hk he => ?_⟩
  · have hne : ¬ 32 + k = 7 := by omega
    have hbyte := hstored r hpeer hwf k hk (32 + k) (placeOf_ramBurst (by omega))
    simpa only [hne, false_or] using hbyte
  · rw [placeOf_ramBurst (by omega)] at he
    cases he
    omega

/-- Between the two writes of the write-protect register the peer is protected as bit 7 of the first byte says; the
second byte stands at address 7 in the end. -/
theorem storedBy_framedBurst {off on : Byte} {d : List Byte} (hu : StoredBy 0x8E#8 [off] s u)
    (hv : StoredBy 0xFE#8 d u v) (ht : StoredBy 0x8E#8 [on] v t) (hd : d.length ≤ 31)
    (hpeer : s.peer = .reference r) (hwf : Mem.wf r.mem = true) :
    t.peer.byteAt 7 = some on ∧
    (∀ k, (hk : k < d.length) → t.peer.byteAt (32 + k) =
      if off.getLsbD 7 = false then some d[k] else s.peer.byteAt (32 + k)) ∧
    ∀ a, a ≠ 7 → (a < 32 ∨ 32 + d.length ≤ a) → t.peer.byteAt a = s.peer.byteAt a := by
  have ⟨_, _, hrefu⟩ := hu
  have ⟨_, _, hrefv⟩ := hv
  obtain ⟨ru, hpeeru, hwfu⟩ := hrefu r hpeer
  obtain ⟨rv, hpeerv, hwfv⟩ := hrefv ru hpeeru
  obtain ⟨hoff, hotheru⟩ := hu.wp hpeer hwf
  obtain ⟨hburst, hotherv⟩ := hv.ramBurst hd hpeeru (hwfu hwf)
  obtain ⟨hon, hothert⟩ := ht.wp hpeerv (hwfv (hwfu hwf))
  have hprot : Mem.read ru.mem 7 = off := by
    rw [hpeeru] at hoff
    exact Option.some.inj hoff
  refine ⟨hon, fun k hk => ?_, fun a ha hout => ?_⟩
  · rw [hothert _ (by omega), hburst k hk, hprot, hotheru _ (by omega)]
  · rw [hothert a ha, hotherv a hout, hotheru a ha]

theorem WriteDone.storedBy {c : Byte} {d : List Byte} (h : WriteDone c d s t) : StoredBy c d s t := by
  obtain ⟨_, _, _, _, _, _, _, _, _, _, hstored, _⟩ := h
  exact hstored

/-- `AUTO_WP` on: three write transactions, the middle one of the data (41_protocol.md R174). -/
theorem ramBurst_framed (d : List Byte) (h : s.params.autoWp = true) :
    ramBurst d s = wrTxn 0x8E#8 [s.params.wpOn] (wrTxn 0xFE#8 d (wrTxn 0x8E#8 [s.params.wpOff] s)) := if_pos h

/-- The three transactions, each from the idle invariant the one before ends in. -/
theorem ramBurst_framed_done {d : List Byte} (h : s.params.autoWp = true) (hs : s.idle) (h1 : 1 ≤ d.length)
    (h31 : d.length ≤ 31) :
    ∃ u v, WriteDone 0x8E#8 [s.params.wpOff] s u ∧ WriteDone 0xFE#8 d u v ∧
      WriteDone 0x8E#8 [s.params.wpOn] v (ramBurst d s) := by
  have hu := wrTxn_idle 0x8E#8 [s.params.wpOff] hs
  have hv := wrTxn_idle 0xFE#8 d hu
  rw [ramBurst_framed d h]
  exact ⟨_, _, wrTxn_writeDone hs (le_refl 1) (by decide : 1 ≤ 31) rfl rfl, wrTxn_writeDone hu h1 h31 rfl rfl,
    wrTxn_writeDone hv (le_refl 1) (by decide : 1 ≤ 31) rfl rfl⟩

theorem ramBurst_plain (d : List Byte) (h : s.params.autoWp = false) : ramBurst d s = wrTxn 0xFE#8 d s :=
  if_neg (ne_true_of_eq_false h)

theorem exec_ramBurstWr {size : Nat} {data : List Byte} (hsize : 0 < size) (hdata : min size 31 ≤ data.length)
    (hs : s.idle) : exec (.ramBurstWr size data) s =
      .next ((ramBurst (data.take (min size 31)) s).respond { count := some (BitVec.ofNat 5 (min size 31)) }) :=
  (if_neg (clampSize_ne_zero hsize)).trans ((if_neg (Nat.not_lt.2 hdata)).trans (onWire_of_idle _ hs))

end Sys2Proof.Machine
end

section
/-! CLAIMS. The statement about the memory burst write. -/

namespace Sys2Proof.Machine

/-- Settles O31: the size is checked first; then the transactions in order, and the bytes of a reference peer through
all three of them. -/
theorem memoryBurstWriteClamps : Obligations.MemoryBurstWriteClamps := by
  refine ⟨fun p _ => decodeHost_ramBurstWr p, fun s size data => ⟨fun h => if_pos (by rw [h]; rfl),
    fun hsize hdata hs => ⟨_, exec_ramBurstWr hsize hdata hs, respond_resp _ _, fun hauto => ?framed,
      fun hauto => ?plain⟩⟩⟩
  all_goals
    have hlen : (data.take (min size 31)).length = min size 31 := List.length_take_of_le hdata
    have h31 : (data.take (min size 31)).length ≤ 31 := hlen.trans_le (Nat.min_le_right _ _)
    have h1 : 1 ≤ (data.take (min size 31)).length := by omega
  case framed =>
    obtain ⟨u, v, hu, hv, ht⟩ := ramBurst_framed_done hauto hs h1 h31
    refine ⟨⟨u, v, hu, hv, ht.respond _⟩, fun r hpeer hwf => ?_⟩
    obtain ⟨hwp, hburst, hother⟩ := storedBy_framedBurst hu.storedBy hv.storedBy ht.storedBy h31 hpeer hwf
    rw [hlen] at hother
    refine ⟨hwp, fun k hk hk' => ?_, hother⟩
    rw [respond_peer, hburst k (hk'.trans_eq hlen.symm), List.getElem_take]
  case plain =>
    rw [ramBurst_plain _ hauto]
    exact (wrTxn_writeDone hs h1 h31 rfl rfl).respond _

end Sys2Proof.Machine
end

section
/-! SUPPORT. The events of an instruction with the sampled levels taken out, as a function of the instruction and the
parameters (41_protocol.md R183). -/

namespace Sys2Proof.Machine

variable {s t u : State} {q q' : List PinEvent}

/-! ## Traces without levels -/

theorem unread_traceByteWr (v : Byte) : (traceByteWr v).map PinEvent.unread = traceByteWr v := by
  simp [traceByteWr, PinEvent.unread, List.range, List.range.loop]

/-- Without the levels every byte read looks the same. -/
theorem unread_traceByteRd (v : Byte) : (traceByteRd v).map PinEvent.unread = traceByteRd 0 := by
  simp [traceByteRd, PinEvent.unread, List.range, List.range.loop]

theorem unread_wrTrace (c : Byte) (d : List Byte) : (wrTrace c d).map PinEvent.unread = wrTrace c d := by
  simp [wrTrace, unread_traceByteWr, List.map_flatMap, PinEvent.unread]

/-- The events of a read transaction of `k` bytes without the levels sampled. -/
def unreadRdTrace (c : Byte) (k : Nat) : List PinEvent := rdTrace c (List.replicate k 0)

theorem unread_rdTrace (c : Byte) (d : List Byte) :
    (rdTrace c d).map PinEvent.unread = unreadRdTrace c d.length := by
  have hbytes : (d.flatMap traceByteRd).map PinEvent.unread = (List.replicate d.length 0).flatMap traceByteRd := by
    induction d with
    | nil => rfl
    | cons v d ih =>
      rw [List.flatMap_cons, List.map_append, unread_traceByteRd, ih, List.length_cons, List.replicate_succ,
        List.flatMap_cons]
  simp only [unreadRdTrace, rdTrace, List.map_append, unread_traceByteWr, hbytes]
  rfl

/-- From `s` to `t` the trace grows by events that are `q` without the levels. -/
def Appends (q : List PinEvent) (s t : State) : Prop :=
  ∃ es, t.trace = s.trace ++ es ∧ es.map PinEvent.unread = q

theorem appends_nil (h : t.trace = s.trace) : Appends [] s t := ⟨[], by rw [h, List.append_nil], rfl⟩

theorem Appends.respond (h : Appends q s t) (r : Response) : Appends q s (t.respond r) := by
  obtain ⟨es, ht, hq⟩ := h
  exact ⟨es, ht, hq⟩

theorem Appends.trans (h : Appends q s t) (h' : Appends q' t u) : Appends (q ++ q') s u := by
  obtain ⟨es, ht, rfl⟩ := h
  obtain ⟨fs, hu, rfl⟩ := h'
  exact ⟨es ++ fs, by rw [hu, ht, List.append_assoc], List.map_append⟩

theorem Appends.of_next (h : Host.Outcome.next (φ := Fault) (ρ := Refusal) u = .next t) (hu : Appends q s u) :
    Appends q s t := by
  cases h
  exact hu

theorem Appends.of_onWire {f : State → State} (h : onWire s f = .next t) (hf : Appends q s (f s)) :
    Appends q s t := by
  obtain ⟨_, rfl⟩ := onWire_next h
  exact hf

/-- An operand check, the same in the instruction and in its events. -/
theorem Appends.of_ite {P : Prop} [Decidable P] {o o' : Host.Outcome State Fault Refusal}
    (h : (if P then o else o') = .next t) (hpos : o = .next t → Appends q s t)
    (hneg : o' = .next t → Appends q' s t) :
    Appends (if P then q else q') s t := by
  split at h
  · rename_i hP
    rw [if_pos hP]
    exact hpos h
  · rename_i hP
    rw [if_neg hP]
    exact hneg h

theorem Appends.of_withTickUnit {f : State → State} (h : withTickUnit s f = .next t) (hf : (f s).trace = s.trace) :
    Appends [] s t := by
  unfold withTickUnit at h
  split at h
  · exact .of_next h (appends_nil hf)
  · exact .of_next h (appends_nil rfl)

theorem wrTxn_appends (c : Byte) (d : List Byte) (s : State) : Appends (wrTrace c d) s (wrTxn c d s) :=
  ⟨wrTrace c d, wrTxn_trace c d s, unread_wrTrace c d⟩

theorem rdTxn_appends (c : Byte) (k : Nat) (s : State) : Appends (unreadRdTrace c k) s (rdTxn c k s).2 :=
  ⟨_, rdTxn_trace c k s, by rw [unread_rdTrace, (rdTxn_spec c k s).1]⟩

theorem wireWrite_appends (c : Byte) (d : List Byte) (r : Response) (s : State) :
    Appends (wrTrace c d) s (wireWrite c d r s) := (wrTxn_appends c d s).respond r

theorem wireRead_appends (c : Byte) (k : Nat) (r : List Byte → Response) (s : State) :
    Appends (unreadRdTrace c k) s (wireRead c k r s) := (rdTxn_appends c k s).respond _

theorem Appends.of_txnWrite {c : Byte} {d : List Byte} (h : txnWrite c d s = .next t) : Appends (wrTrace c d) s t :=
  .of_onWire h (wrTxn_appends c d s)

theorem Appends.of_txnRead {c : Byte} {k : Nat} (h : txnRead c k s = .next t) : Appends (unreadRdTrace c k) s t :=
  .of_onWire h (rdTxn_appends c k s)

/-! ## The events of an instruction -/

/-- The events of the memory burst write (41_protocol.md R174). -/
def burstEvents (p : Params) (d : List Byte) : List PinEvent :=
  if p.autoWp then wrTrace 0x8E#8 [p.wpOff] ++ wrTrace 0xFE#8 d ++ wrTrace 0x8E#8 [p.wpOn] else wrTrace 0xFE#8 d

/-- The events of an instruction that completes, without the levels sampled. -/
def eventsOf (p : Params) : Instr → List PinEvent
  | .regRd addr => unreadRdTrace (cmdByte addr .read) 1
  | .regWr addr b => wrTrace (cmdByte addr .write) [b]
  | .clkBurstRd | .chipGetTime | .wireClkBurstRd => unreadRdTrace (clkBurstCmd .read) 8
  | .clkBurstWr blk | .wireClkBurstWr blk => wrTrace (clkBurstCmd .write) blk.toList
  | .ramRd addr => if badAddr addr then [] else unreadRdTrace (ramCmd addr .read) 1
  | .ramWr addr b => if badAddr addr then [] else wrTrace (ramCmd addr .write) [b]
  | .ramBurstRd size => if clampSize size = 0 then [] else unreadRdTrace (ramBurstCmd .read) (clampSize size)
  | .ramBurstWr size data => if clampSize size = 0 then [] else burstEvents p (data.take (clampSize size))
  | .wpSet flag => wrTrace (cmdByte wpAddr .write) [wpByte p flag]
  | .chipSetTime tm flag => wrTrace (clkBurstCmd .write) (packBlk p tm flag).toList
  | .wireRamBurstWr data => wrTrace (ramBurstCmd .write) data
  | .wireRamBurstRd cnt => unreadRdTrace (ramBurstCmd .read) cnt.toNat
  | .wireClkWr a b => wrTrace (cmdByte (a.setWidth 8) .write) [b]
  | .wireClkRd a => unreadRdTrace (cmdByte (a.setWidth 8) .read) 1
  | .wireRamWr a b => wrTrace (ramCmd (a.setWidth 8) .write) [b]
  | .wireRamRd a => unreadRdTrace (ramCmd (a.setWidth 8) .read) 1
  | .toBcd _ | .fromBcd _ | .blkPack _ _ | .blkUnpack _ => []
  | .isLeap _ | .daysToEpoch _ | .mkGmtime _ | .mktimeUtc _ | .mktimeLocal _ | .gmtime _ | .localtime _ => []
  | .setZone _ | .getZone | .setDst _ | .isotime _ => []
  | .tick _ | .getTime | .setTime _ | .getTimeTm | .setTimeTm _ => []
  | .wireNeverSent _ => []

theorem ramBurst_appends (d : List Byte) (s : State) : Appends (burstEvents s.params d) s (ramBurst d s) := by
  unfold burstEvents
  split
  · rename_i h
    rw [ramBurst_framed d h]
    exact ((wrTxn_appends _ _ _).trans (wrTxn_appends _ _ _)).trans (wrTxn_appends _ _ _)
  · rename_i h
    rw [ramBurst_plain d (eq_false_of_ne_true h)]
    exact wrTxn_appends _ _ _

theorem tickState_trace (ms : Nat) (s : State) : (tickState ms s).trace = s.trace := by
  unfold tickState
  dsimp only
  split <;> rfl

/-- An instruction that completes appends its events. -/
theorem exec_appends (i : Instr) (h : exec i s = .next t) : Appends (eventsOf s.params i) s t := by
  cases i with
  | toBcd | fromBcd | blkPack | blkUnpack => exact .of_next h (appends_nil rfl)
  | isLeap | daysToEpoch | mkGmtime | mktimeUtc | mktimeLocal | gmtime | localtime =>
    exact .of_next h (appends_nil rfl)
  | setZone | getZone | setDst => exact .of_next h (appends_nil rfl)
  | isotime tm =>
    simp only [exec, execIsotime] at h
    split at h
    · split at h <;> exact .of_next h (appends_nil rfl)
    · exact .of_next h (appends_nil rfl)
  | tick ms => exact .of_withTickUnit h (tickState_trace ms s)
  | getTime | getTimeTm | setTime | setTimeTm =>
    simp only [exec, execGetTime, execGetTimeTm, execSetTime, execSetTimeTm] at h
    exact .of_withTickUnit h rfl
  | regRd | clkBurstRd | chipGetTime => exact .of_onWire h (wireRead_appends _ _ _ _)
  | regWr | clkBurstWr | wpSet | chipSetTime => exact .of_onWire h (wireWrite_appends _ _ _ _)
  | ramRd | ramBurstRd =>
    exact .of_ite h (.of_next · (appends_nil rfl)) (.of_onWire · (wireRead_appends _ _ _ _))
  | ramWr => exact .of_ite h (.of_next · (appends_nil rfl)) (.of_onWire · (wireWrite_appends _ _ _ _))
  | ramBurstWr size data =>
    refine .of_ite h (.of_next · (appends_nil rfl)) fun hsome => ?_
    split at hsome
    · cases hsome
    · exact .of_onWire hsome ((ramBurst_appends _ s).respond _)
  | wireClkBurstWr | wireClkWr | wireRamWr => exact .of_txnWrite h
  | wireClkBurstRd | wireClkRd | wireRamRd => exact .of_txnRead h
  | wireRamBurstWr data =>
    simp only [exec, execWireRamBurstWr] at h
    split at h
    · exact .of_txnWrite h
    · cases h
  | wireRamBurstRd cnt =>
    simp only [exec, execWireRamBurstRd] at h
    split at h
    · exact .of_txnRead h
    · cases h
  | wireNeverSent => cases h

end Sys2Proof.Machine
end

section
/-! CLAIMS. The statement about what the trace depends on. -/

namespace Sys2Proof.Machine

/-- Settles O37: without the levels both traces grow by the events of the instruction at the parameters. -/
theorem traceDependsOnTheOperationAlone : Obligations.TraceDependsOnTheOperationAlone := by
  intro i s₁ s₂ t₁ t₂ hparams h₁ h₂
  obtain ⟨e₁, htrace₁, hevents₁⟩ := exec_appends i h₁
  obtain ⟨e₂, htrace₂, hevents₂⟩ := exec_appends i h₂
  exact ⟨e₁, e₂, htrace₁, htrace₂, by rw [hevents₁, hevents₂, hparams]⟩

end Sys2Proof.Machine
end

section
/-! SUPPORT. The calendar in days (42_calendar.md R191 to R197, R205): the closed form of the day count as the sum over
the years, the year that encloses a day, and the month that encloses a day of the year. -/

namespace Sys2Proof.Machine

/-! ## The years -/

theorem isLeapYear_eq (y : Int) : isLeapYear y = decide (Leap y) := by
  rw [isLeapYear, Bool.eq_iff_iff]
  simp only [Bool.or_eq_true, Bool.and_eq_true, beq_iff_eq, bne_iff_ne, decide_eq_true_eq, ne_eq]
  omega

/-- Each of the three quotients of R197 steps where 4, 100 or 400 divides the year. -/
theorem yearDays_succ (y : Int) : yearDays (y + 1) = yearDays y + if Leap y then 366 else 365 := by
  simp only [yearDays]
  split <;> omega

theorem sum_yearLengths (y : Int) (n : Nat) :
    ((List.range n).map fun (k : Nat) => if Leap (y + k) then (366 : Int) else 365).sum =
      yearDays (y + n) - yearDays y := by
  induction n with
  | zero => simp
  | succ n ih =>
    rw [List.sum_range_succ, ih, Nat.cast_succ, ← add_assoc, yearDays_succ]
    omega

/-- The sum from 2000 on, or up to 1999, is a difference of two day counts, one of them that of 2000: 0. -/
theorem yearDays_eq_daysSum (y : Int) : yearDays y = daysSum y := by
  have hstart : yearDays 2000 = 0 := by decide
  unfold daysSum
  split
  case isTrue h =>
    rw [sum_yearLengths, hstart, Int.toNat_of_nonneg (by omega), sub_zero, add_sub_cancel]
  case isFalse h =>
    rw [sum_yearLengths, Int.toNat_of_nonneg (by omega), add_sub_cancel, hstart, zero_sub, neg_neg]

theorem yearDays_strictMono : StrictMono yearDays :=
  strictMono_int_of_lt_succ fun y => by
    rw [yearDays_succ]
    split <;> omega

/-- Only one year's days enclose a day. -/
theorem year_unique {y z d : Int} (hy : yearDays y ≤ d) (hy' : d < yearDays (y + 1)) (hz : yearDays z ≤ d)
    (hz' : d < yearDays (z + 1)) : y = z := by
  have hyz := yearDays_strictMono.lt_iff_lt.mp (hy.trans_lt hz')
  have hzy := yearDays_strictMono.lt_iff_lt.mp (hz.trans_lt hy')
  omega

theorem yearDays_add_cycles (y q : Int) : yearDays (y + 400 * q) = yearDays y + 146097 * q := by
  simp only [yearDays]
  omega

/-- The leap days of the first years of a cycle are fewer than a year's days. -/
theorem yearDays_bounds {c : Int} (h0 : 0 ≤ c) (h401 : c ≤ 401) :
    365 * c ≤ yearDays (2000 + c) ∧ yearDays (2000 + c) < 365 * c + 365 := by
  simp only [yearDays]
  omega

/-- The day `r` of a cycle lies in the year `r / 365` of it, or in the one before where that begins after `r`. -/
theorem yearOf_in_cycle (d : Nat) : ∃ z : Nat, yearOf d = 2000 + 400 * (d / 146097) + z ∧
    yearDays (2000 + z) ≤ (d % 146097 : Nat) ∧ ((d % 146097 : Nat) : Int) < yearDays (2000 + (z + 1)) := by
  set r := d % 146097 with hr
  set c := r / 365 with hc
  by_cases hbegun : yearDays (2000 + c) ≤ r
  · have hnext := yearDays_bounds (c := (c : Int) + 1) (by omega) (by omega)
    exact ⟨c, by simp only [yearOf, ← hr, ← hc, if_pos hbegun], hbegun, by omega⟩
  · have hpos : c ≠ 0 := by
      intro h0
      rw [h0] at hbegun
      exact hbegun (Int.natCast_nonneg r)
    have hbefore := yearDays_bounds (c := (c : Int) - 1) (by omega) (by omega)
    refine ⟨c - 1, by simp only [yearOf, ← hr, ← hc, if_neg hbegun], ?_, ?_⟩ <;> rw [Nat.cast_pred (by omega)]
    · omega
    · rw [sub_add_cancel]
      omega

/-- Whole cycles before the day shift its year, and the day, alike. -/
theorem yearOf_encloses (d : Nat) : yearDays (yearOf d) ≤ d ∧ (d : Int) < yearDays (yearOf d + 1) := by
  obtain ⟨z, hyear, hlo, hhi⟩ := yearOf_in_cycle d
  have hcycles (n : Int) : yearDays (((2000 + 400 * (d / 146097) : Nat) : Int) + n) =
      yearDays (2000 + n) + 146097 * (d / 146097 : Nat) := by
    rw [← yearDays_add_cycles]
    exact congrArg yearDays (by omega)
  rw [hyear, Nat.cast_add, add_assoc, hcycles, hcycles]
  omega

theorem yearOf_ge (d : Nat) : 2000 ≤ yearOf d := by
  simp only [yearOf]
  omega

/-! ## The months -/

theorem monthLen_le (m : Nat) (y : Int) : monthLen m y ≤ 31 := by
  unfold monthLen
  split
  case h_1 => split <;> omega
  all_goals omega

theorem daysBefore_succ (m : Nat) (y : Int) : daysBefore (m + 1) y = daysBefore m y + monthLen m y :=
  List.sum_range_succ ..

theorem daysBefore_mono (y : Int) : Monotone (daysBefore · y) :=
  monotone_nat_of_le_succ fun m => by
    rw [daysBefore_succ]
    omega

/-- Years of one length have the same months: 2000 stands for the leap years, 2001 for the others. -/
theorem daysBefore_sample (m : Nat) (y : Int) : daysBefore m y = daysBefore m (if Leap y then 2000 else 2001) := by
  have hleap : isLeapYear y = isLeapYear (if Leap y then 2000 else 2001) := by
    rw [isLeapYear_eq]
    by_cases h : Leap y
    · rw [if_pos h, decide_eq_true h]; rfl
    · rw [if_neg h, decide_eq_false h]; rfl
  simp only [daysBefore, monthLen, hleap]

theorem daysBefore_eq_cumTable {m : Nat} (hm : m ≤ 11) (y : Int) :
    (daysBefore m y : Int) = cumTable (decide (Leap y)) m := by
  have hleap : ∀ m < 12, (daysBefore m 2000 : Int) = cumTable true m := by decide
  have hcommon : ∀ m < 12, (daysBefore m 2001 : Int) = cumTable false m := by decide
  rw [daysBefore_sample]
  by_cases h : Leap y
  · rw [if_pos h, decide_eq_true h, hleap m (by omega)]
  · rw [if_neg h, decide_eq_false h, hcommon m (by omega)]

theorem daysBefore_twelve (y : Int) : (daysBefore 12 y : Int) = if Leap y then 366 else 365 := by
  rw [daysBefore_sample]
  split <;> rfl

theorem daysBefore_succ_eq_cumTable {m : Nat} (hm : m ≤ 11) (y : Int) : (daysBefore (m + 1) y : Int) =
    if m = 11 then (if Leap y then 366 else 365) else cumTable (decide (Leap y)) (m + 1) := by
  by_cases hlast : m = 11
  · rw [if_pos hlast, hlast, daysBefore_twelve]
  · rw [if_neg hlast, daysBefore_eq_cumTable (by omega)]

/-- Where `q` holds of an initial segment of the numbers, its count below `n` exceeds exactly those it holds of. -/
theorem lt_count_iff {q : Nat → Prop} [DecidablePred q] (hq : Antitone q) {i n : Nat} (hi : i < n) :
    i < Nat.count q n ↔ q i := by
  constructor
  · intro hlt
    by_contra hnot
    obtain ⟨k, rfl⟩ := Nat.exists_eq_add_of_le hi.le
    have hnone : Nat.count (fun j => q (i + j)) k = 0 :=
      Nat.count_iff_forall_not.mpr fun j _ hj => hnot (hq (Nat.le_add_right i j) hj)
    rw [Nat.count_add, hnone, Nat.add_zero] at hlt
    exact hlt.not_ge (Nat.count_le q)
  · intro h
    have hall : Nat.count q (i + 1) = i + 1 := Nat.count_iff_forall.mpr fun j hj => hq (Nat.le_of_lt_succ hj) h
    exact hall.symm.le.trans (Nat.count_monotone q hi)

/-- The months that have begun by a day are an initial segment, and the month is the last of them. -/
theorem monthOf_encloses {yday : Nat} {y : Int} (h : yday < daysBefore 12 y) : monthOf yday y ≤ 11 ∧
    daysBefore (monthOf yday y) y ≤ yday ∧ yday < daysBefore (monthOf yday y + 1) y := by
  set k := Nat.count (fun m => daysBefore m y ≤ yday) 12
  have hmonth : monthOf yday y = k - 1 := rfl
  have hbegun {i : Nat} (hi : i < 12) : i < k ↔ daysBefore i y ≤ yday :=
    lt_count_iff (fun i j hij hj => (daysBefore_mono y hij).trans hj) hi
  have hpos : 0 < k := (hbegun (by decide)).mpr (Nat.zero_le _)
  have hle : k ≤ 12 := Nat.count_le _
  rw [hmonth, Nat.sub_add_cancel hpos]
  refine ⟨by omega, (hbegun (by omega)).mp (by omega), ?_⟩
  by_cases hlast : k = 12
  · rwa [hlast]
  · exact not_le.mp fun hlater => lt_irrefl k ((hbegun (by omega)).mpr hlater)

end Sys2Proof.Machine
end

section
/-! SUPPORT. The record of an instant (42_calendar.md R200, R205): each field of `splitTime`, that they make the
normalised record, and that the sum of a normalised record is its instant. -/

namespace Sys2Proof.Machine

/-! ## The record of an instant -/

/-- A number below half the width of its field is read back as it was stored. -/
theorem ofNat_toInt {w n : Nat} (h : 2 * n < 2 ^ w) : (BitVec.ofNat w n).toInt = n := by
  rw [BitVec.toInt_ofNat', Int.bmod_eq_of_le_mul_two] <;> omega

/-- The day of the year on which the day `d` after 2000-01-01 falls, from 0 (42_calendar.md R205). -/
def yearDay (d : Nat) : Nat := (d - yearDays (yearOf d)).toNat

theorem yearDay_eq (d : Nat) : (yearDay d : Int) = d - yearDays (yearOf d) :=
  Int.toNat_of_nonneg (sub_nonneg.mpr (yearOf_encloses d).1)

theorem yearDay_lt (d : Nat) : yearDay d < daysBefore 12 (yearOf d) := by
  have hday := yearDay_eq d
  have hafter := (yearOf_encloses d).2
  rw [yearDays_succ, ← daysBefore_twelve] at hafter
  omega

theorem yearDay_le (d : Nat) : yearDay d ≤ 365 := by
  have hlt := yearDay_lt d
  have hlength := daysBefore_twelve (yearOf d)
  split at hlength <;> omega

/-- The month of the day `d` after 2000-01-01, from 0 (42_calendar.md R205). -/
def dayMonth (d : Nat) : Nat := monthOf (yearDay d) (yearOf d)

theorem dayMonth_encloses (d : Nat) : dayMonth d ≤ 11 ∧ daysBefore (dayMonth d) (yearOf d) ≤ yearDay d ∧
    yearDay d < daysBefore (dayMonth d + 1) (yearOf d) := monthOf_encloses (yearDay_lt d)

section
variable (p : Params) (isdst : Bool) (t : Nat)

theorem splitTime_sec : (splitTime p isdst t).sec.toInt = (t % 60 : Nat) := by
  simp only [splitTime]
  rw [ofNat_toInt (by omega)]
  omega

theorem splitTime_min : (splitTime p isdst t).min.toInt = (t % 3600 / 60 : Nat) := by
  simp only [splitTime]
  rw [ofNat_toInt (by omega)]
  omega

theorem splitTime_hour : (splitTime p isdst t).hour.toInt = (t % 86400 / 3600 : Nat) := by
  simp only [splitTime]
  rw [ofNat_toInt (by omega)]

theorem splitTime_wday : (splitTime p isdst t).wday.toInt = ((t / 86400 + 6) % 7 : Nat) := by
  simp only [splitTime]
  rw [ofNat_toInt (by omega)]

theorem splitTime_yday : (splitTime p isdst t).yday.toInt = yearDay (t / 86400) := by
  have hle := yearDay_le (t / 86400)
  exact ofNat_toInt (n := yearDay (t / 86400)) (by omega)

theorem splitTime_mon : (splitTime p isdst t).mon.toInt = dayMonth (t / 86400) := by
  have hle := (dayMonth_encloses (t / 86400)).1
  exact ofNat_toInt (n := dayMonth (t / 86400)) (by omega)

/-- The day of the month is at most 31, so its field holds it. -/
theorem splitTime_mday : (splitTime p isdst t).mday.toInt =
    yearDay (t / 86400) - daysBefore (dayMonth (t / 86400)) (yearOf (t / 86400)) + 1 := by
  obtain ⟨-, hbegun, hnext⟩ := dayMonth_encloses (t / 86400)
  have hlength := monthLen_le (dayMonth (t / 86400)) (yearOf (t / 86400))
  rw [daysBefore_succ] at hnext
  have hfield : (splitTime p isdst t).mday =
      BitVec.ofNat 8 (yearDay (t / 86400) - daysBefore (dayMonth (t / 86400)) (yearOf (t / 86400)) + 1) := rfl
  rw [hfield, ofNat_toInt (by omega)]
  omega

theorem splitTime_isdst : (splitTime p isdst t).isdst.toInt = if isdst then 1 else 0 := by
  cases isdst <;> rfl

/-- R205 line by line: the year and the month enclose the day, and each field holds its number. -/
theorem splitTime_isSplit : IsSplit p (if isdst then 1 else 0) t (splitTime p isdst t) := by
  obtain ⟨hfirst, hafter⟩ := yearOf_encloses (t / 86400)
  obtain ⟨hm, hbegun, hnext⟩ := dayMonth_encloses (t / 86400)
  have hyear : (2000 : Int) ≤ yearOf (t / 86400) := Int.ofNat_le.mpr (yearOf_ge (t / 86400))
  simp only [IsSplit, ← yearDays_eq_daysSum, splitTime_yday]
  refine ⟨yearOf (t / 86400), dayMonth (t / 86400), hyear, hm, hfirst, hafter, ?_, ?_,
    splitTime_sec .., splitTime_min .., splitTime_hour .., ?_, splitTime_mon .., splitTime_wday .., yearField_toInt _,
    yearDay_eq _, splitTime_isdst ..⟩
  · rw [← daysBefore_eq_cumTable hm]
    exact Int.ofNat_le.mpr hbegun
  · rw [← daysBefore_succ_eq_cumTable hm]
    exact Int.ofNat_lt.mpr hnext
  · rw [← daysBefore_eq_cumTable hm]
    exact splitTime_mday ..

end

/-! ## The sum of a record -/

theorem wallClock_eq_wallSum (p : Params) (tm : Tm) : wallClock p tm = wallSum p tm := by
  simp only [wallClock, wallSum]
  rw [yearDays_eq_daysSum, daysBefore_eq_cumTable (by omega)]

/-- The sum of R200 undoes R205: where the year fits its field, the fields of a normalised record add up to the
instant. -/
theorem IsSplit.wallSum_eq {p : Params} {isdst : Int} {t : Nat} {tm : Tm} (h : IsSplit p isdst t tm)
    (hfits : YearFits p t) : wallSum p tm = t := by
  obtain ⟨y, m, -, hm, hfirst, hafter, -, -, hsec, hmin, hhour, hmday, hmon, -, hyear, hyday, -⟩ := h
  obtain ⟨z, hfirst', hafter', hlo, hhi⟩ := hfits
  simp only [← yearDays_eq_daysSum] at hfirst hafter hfirst' hafter'
  obtain rfl := year_unique hfirst hafter hfirst' hafter'
  have hy : p.yearBase + tm.year.toInt + tm.mon.toInt / 12 = y := by
    rw [hyear hlo hhi, hmon]
    omega
  have hm : (tm.mon.toInt % 12).toNat = m := by omega
  simp only [wallSum, hy, hm, hsec, hmin, hhour, hmday, hyday]
  omega

end Sys2Proof.Machine
end

section
/-! SUPPORT. The operations of the calendar engine (42_calendar.md R192 to R231): their codes, what each answers, the
fits of R202 in range, the way there and back, and the text. -/

namespace Sys2Proof.Machine

/-! ## The operation codes -/

section
variable (p : Params) {r : HostReq}

theorem decodeHost_isLeap (h : r.op = 0x20) : decodeHost p r = .ok (.isLeap r.year) := by rw [decodeHost, h]; rfl
theorem decodeHost_daysToEpoch (h : r.op = 0x21) : decodeHost p r = .ok (.daysToEpoch r.year) := by
  rw [decodeHost, h]; rfl
theorem decodeHost_setZone (h : r.op = 0x26) : decodeHost p r = .ok (.setZone (wrapSigned p.zoneBits r.zone)) := by
  rw [decodeHost, h]; rfl
theorem decodeHost_getZone (h : r.op = 0x27) : decodeHost p r = .ok .getZone := by rw [decodeHost, h]; rfl
theorem decodeHost_setDst (h : r.op = 0x28) : decodeHost p r = .ok (.setDst r.flag) := by rw [decodeHost, h]; rfl
theorem decodeHost_isotime (h : r.op = 0x29) : decodeHost p r = .ok (.isotime r.tm) := by rw [decodeHost, h]; rfl

end

/-! ## The years and the registers -/

section
variable (s : State)

theorem exec_isLeap (year : BitVec 16) :
    exec (.isLeap year) s = .next { s with resp := some { leap := some (isLeapYear year.toInt) } } := rfl

theorem exec_daysToEpoch (year : BitVec 16) : exec (.daysToEpoch year) s =
    .next { s with resp := some { days := some (BitVec.ofInt 32 (yearDays year.toInt)) } } := rfl

theorem exec_setZone (zone : Int) : exec (.setZone zone) s =
    .next { s with zone := wrapSigned s.params.zoneBits zone, resp := some {} } := rfl

theorem exec_getZone : exec .getZone s = .next { s with resp := some { zone := some s.zone } } := rfl

theorem exec_setDst (flag : Bool) : exec (.setDst flag) s = .next { s with dstEn := flag, resp := some {} } := rfl

/-- R196's extreme values are those of the first and the last 16-bit year, for the day count grows with the year. -/
theorem daysToEpoch_toInt (year : BitVec 16) : (BitVec.ofInt 32 (yearDays year.toInt)).toInt = yearDays year.toInt := by
  have hlo := yearDays_strictMono.monotone (BitVec.le_toInt year)
  have hhi := yearDays_strictMono.monotone (BitVec.toInt_le (x := year))
  have hfirst : yearDays (-2 ^ (16 - 1)) = -12698751 := by decide
  have hlast : yearDays (2 ^ (16 - 1) - 1) = 11237416 := by decide
  rw [BitVec.toInt_ofInt]
  exact Int.bmod_eq_of_le (by omega) (by omega)

end

/-! ## The conversions -/

/-- What an instant of the width is delivered as: itself, the flag clear. -/
theorem fit_instant {p : Params} {t : Nat} (h : t < 2 ^ p.epochBits) : fit p t = (t, false) := by
  have hin : InEpoch p t := ⟨Int.natCast_nonneg t, by exact_mod_cast h⟩
  exact Prod.ext (Int.ofNat_inj.mp (fit_value p t hin)) (by rw [fit_range, decide_eq_true hin]; rfl)

theorem fit_toNat {p : Params} {x : Int} (h : InEpoch p x) : (fit p x).1 = x.toNat := by
  have hval := fit_value p x h
  omega

theorem dstAdj_eq_dstAt (s : State) (u : Nat) : dstAdj Config.dstHook s.params s.dstEn u = dstAt s u := by
  unfold dstAdj dstAt
  cases s.dstEn <;> cases (Config.dstHook u).1 <;> rfl

theorem dstAt_of_noHook {s : State} (h : s.dstEn = false) (u : Nat) : dstAt s u = (false, 0) := by
  simp [dstAt, h]

theorem dstAdj_congr {h₁ h₂ : Nat → Bool × Int} {u : Nat} (h : h₁ u = h₂ u) (p : Params) (en : Bool) :
    dstAdj h₁ p en u = dstAdj h₂ p en u := by
  simp only [dstAdj, h]

section
variable (s : State)

theorem exec_mkGmtime (tm : Tm) : exec (.mkGmtime tm) s = .next { s with resp := some {
    t := some (fit s.params (wallSum s.params tm)).1, range := (fit s.params (wallSum s.params tm)).2 } } := by
  rw [← wallClock_eq_wallSum]
  rfl

theorem exec_mktimeUtc (tm : Tm) : exec (.mktimeUtc tm) s = .next { s with resp := some {
    t := some (fit s.params (wallSum s.params tm)).1
    tm := some (splitTime s.params false (fit s.params (wallSum s.params tm)).1)
    range := (fit s.params (wallSum s.params tm)).2 } } := by
  rw [← wallClock_eq_wallSum]
  rfl

theorem exec_mktimeLocal (tm : Tm) : exec (.mktimeLocal tm) s =
    let wall := wallSum s.params tm
    let utc := wall - s.zone
    let adj := dstAt s (fit s.params utc).1
    .next { s with resp := some {
      t := some (fit s.params (utc - adj.2)).1
      tm := some (splitTime s.params adj.1 (fit s.params wall).1)
      range := (fit s.params wall).2 || (fit s.params utc).2 || (fit s.params (utc - adj.2)).2 } } := by
  simp only [← wallClock_eq_wallSum, ← dstAdj_eq_dstAt]
  rfl

theorem exec_gmtime (t : Nat) :
    exec (.gmtime t) s = .next { s with resp := some { tm := some (splitTime s.params false t) } } := rfl

theorem exec_localtime (t : Nat) : exec (.localtime t) s =
    let adj := dstAt s t
    .next { s with resp := some {
      tm := some (splitTime s.params adj.1 (fit s.params (t + s.zone + adj.2)).1)
      range := (fit s.params (t + s.zone + adj.2)).2 } } := by
  simp only [← dstAdj_eq_dstAt]
  rfl

end

/-- R203 of the three fits of R211: the hook is asked at the wrapped instant, which is the instant itself unless the
second fit has set the flag. -/
theorem mktimeLocal_range (s : State) (wall : Int) : let utc := wall - s.zone
    ((fit s.params wall).2 || (fit s.params utc).2 ||
      (fit s.params (utc - (dstAt s (fit s.params utc).1).2)).2) =
    !decide (InEpoch s.params wall ∧ InEpoch s.params utc ∧
      InEpoch s.params (utc - (dstAt s utc.toNat).2)) := by
  intro utc
  by_cases hutc : InEpoch s.params utc
  · simp only [fit_toNat hutc, fit_range, Bool.decide_and, Bool.not_and, Bool.or_assoc]
  · have hflag : (fit s.params utc).2 = true := by rw [fit_range, decide_eq_false hutc]; rfl
    rw [hflag, Bool.or_true, Bool.true_or, decide_eq_false fun ⟨_, hin, _⟩ => hutc hin]
    rfl

/-! ## There and back -/

theorem wallSum_splitTime {p : Params} {t : Nat} (h : YearFits p t) (isdst : Bool) :
    wallSum p (splitTime p isdst t) = t :=
  (splitTime_isSplit p isdst t).wallSum_eq h

/-- Without a hook `MKTIME` takes off again the zone that `LOCALTIME` added. -/
theorem mktimeLocal_splitTime {s : State} {t : Nat} (hdst : s.dstEn = false) (ht : t < 2 ^ s.params.epochBits)
    (hloc : InEpoch s.params (t + s.zone)) (hfits : YearFits s.params ((t : Int) + s.zone).toNat) :
    let tm := splitTime s.params false ((t : Int) + s.zone).toNat
    exec (.mktimeLocal tm) s = .next { s with resp := some { t := some t, tm := some tm } } := by
  have hwall := wallSum_splitTime hfits false
  have hin := fit_range s.params (t + s.zone)
  rw [Int.toNat_of_nonneg hloc.1] at hwall
  rw [decide_eq_true hloc] at hin
  simp only [exec_mktimeLocal, hwall, add_sub_cancel_right, dstAt_of_noHook hdst, sub_zero, fit_instant ht,
    fit_toNat hloc, hin]
  rfl

theorem response_inj {s : State} {r r' : Response}
    (h : (.next { s with resp := some r } : Host.Outcome State Fault Refusal) = .next { s with resp := some r' }) :
    r = r' := by
  injection h with hstate
  exact Option.some.inj (congrArg State.resp hstate)

theorem fit_of_mkGmtime {s : State} {tm : Tm} {t : Nat}
    (h : exec (.mkGmtime tm) s = .next { s with resp := some { t := some t } }) :
    fit s.params (wallSum s.params tm) = (t, false) := by
  rw [exec_mkGmtime] at h
  have hresp := response_inj h
  exact Prod.ext (Option.some.inj (congrArg Response.t hresp)) (congrArg Response.range hresp)

theorem localtime_in_range {s : State} {t : Nat} {tm : Tm} (hdst : s.dstEn = false)
    (h : exec (.localtime t) s = .next { s with resp := some { tm := some tm } }) :
    InEpoch s.params (t + s.zone) ∧ splitTime s.params false ((t : Int) + s.zone).toNat = tm := by
  simp only [exec_localtime, dstAt_of_noHook hdst, add_zero, fit_range] at h
  have hresp := response_inj h
  have hflag : (!decide (InEpoch s.params (t + s.zone))) = false := congrArg Response.range hresp
  have hloc : InEpoch s.params (t + s.zone) := of_decide_eq_true (Bool.not_eq_eq_eq_not.mp hflag)
  have htm := Option.some.inj (congrArg Response.tm hresp)
  rw [fit_toNat hloc] at htm
  exact ⟨hloc, htm⟩

/-! ## Text -/

theorem badFmt_eq (p : Params) (tm : Tm) : badFmt p tm = !decide (Printable p tm) := by
  simp [badFmt, Printable, Bool.and_assoc]

theorem digit_eq_digitAt {v : Int} (h : 0 ≤ v) (w : Nat) :
    BitVec.ofNat 8 (0x30 + v.toNat / w % 10) = digitAt v w := by
  obtain ⟨n, rfl⟩ := Int.eq_ofNat_of_zero_le h
  rw [digitAt, ← BitVec.ofInt_natCast]
  rfl

theorem digits_two {v : Int} (h : 0 ≤ v) : digits 2 v.toNat = [digitAt v 10, digitAt v 1] := by
  have htens := digit_eq_digitAt h 10
  have hunits := digit_eq_digitAt h 1
  rw [Nat.div_one] at hunits
  simp only [digits, htens, hunits, Nat.cast_ofNat, Nat.cast_one, List.nil_append, List.cons_append]

/-- The two digits above the last two are those of the hundreds. -/
theorem digits_four {v : Int} (h : 0 ≤ v) :
    digits 4 v.toNat = [digitAt v 1000, digitAt v 100, digitAt v 10, digitAt v 1] := by
  have hthousands := digit_eq_digitAt h 1000
  have hhundreds := digit_eq_digitAt h 100
  have hsplit : digits 4 v.toNat = digits 2 (v.toNat / 100) ++ digits 2 v.toNat := by
    simp only [digits, Nat.div_div_eq_div_mul, List.nil_append, List.append_assoc]
  rw [hsplit, digits_two h]
  simp only [digits, Nat.div_div_eq_div_mul, hthousands, hhundreds, Nat.cast_ofNat, List.nil_append, List.cons_append]

theorem isoText_eq {p : Params} {tm : Tm} (h : Printable p tm) :
    let y := p.yearBase + tm.year.toInt
    let two (v : Int) : List Byte := [digitAt v 10, digitAt v 1]
    isoText p tm = [digitAt y 1000, digitAt y 100, digitAt y 10, digitAt y 1] ++ [0x2D#8] ++ two (tm.mon.toInt + 1)
      ++ [0x2D#8] ++ two tm.mday.toInt ++ [0x20#8] ++ two tm.hour.toInt ++ [0x3A#8] ++ two tm.min.toInt ++ [0x3A#8]
      ++ two tm.sec.toInt ++ [0x00#8] := by
  obtain ⟨⟨hyear, -⟩, ⟨hmon, -⟩, ⟨hmday, -⟩, ⟨hhour, -⟩, ⟨hmin, -⟩, hsec, -⟩ := h
  rw [isoText, digits_four hyear, digits_two hmon, digits_two hmday, digits_two hhour, digits_two hmin, digits_two hsec]

theorem exec_isotime {s : State} (tm : Tm) (h : s.params.hasIsotime = true) : exec (.isotime tm) s =
    .next { s with resp := some (if Printable s.params tm then { text := some (isoText s.params tm) }
      else { badFmt := true }) } := by
  simp only [exec, execIsotime, h, badFmt_eq]
  by_cases hprint : Printable s.params tm
  · rw [if_pos hprint, decide_eq_true hprint]; rfl
  · rw [if_neg hprint, decide_eq_false hprint]; rfl

end Sys2Proof.Machine
end

section
/-! CLAIMS. The statements about the calendar engine. -/

namespace Sys2Proof.Machine

/-- Settles O41: the closed form is the model's own `yearDays`; it equals the sum since it vanishes at 2000 and steps by
the length of the year. -/
theorem daysClosedFormIsTheSum : Obligations.DaysClosedFormIsTheSum := fun y => ⟨rfl, yearDays_eq_daysSum y⟩

/-- Settles O42: the day count of a 16-bit year fits 32 bits. -/
theorem daysToEpochIsTheSum : Obligations.DaysToEpochIsTheSum :=
  ⟨fun p _ => decodeHost_daysToEpoch p, fun year s =>
    ⟨_, exec_daysToEpoch s year, (daysToEpoch_toInt year).trans (yearDays_eq_daysSum _)⟩⟩

/-- Settles O43: the model's sum is R200's, and `fit` delivers it with its flag. -/
theorem mkGmtimeSumsTheFields : Obligations.MkGmtimeSumsTheFields := fun tm s =>
  ⟨_, by rw [exec_mkGmtime, fit_range], fit_value s.params _⟩

/-- Settles O44: the record answered is `splitTime`, which is the normalised one. -/
theorem gmtimeSplitsTheInstant : Obligations.GmtimeSplitsTheInstant := fun t s =>
  ⟨_, exec_gmtime s t, splitTime_isSplit s.params false t⟩

/-- Settles O45: the record is that of the instant delivered, in range or not. -/
theorem mktimeUtcNormalises : Obligations.MktimeUtcNormalises := fun tm s =>
  ⟨_, _, by rw [exec_mktimeUtc, fit_range], fun ok => ⟨fit_value s.params _ ok, splitTime_isSplit s.params false _⟩⟩

/-- Settles O46: the flag is that of the three fits; while it is clear each of them delivers its number. -/
theorem mktimeLocalSubtractsZoneAndDst : Obligations.MktimeLocalSubtractsZoneAndDst := by
  intro tm s
  simp only [exec_mktimeLocal, mktimeLocal_range]
  refine ⟨_, _, rfl, fun ⟨hwall, hutc, hinstant⟩ => ?_⟩
  rw [fit_toNat hutc, fit_toNat hwall]
  exact ⟨fit_value s.params _ hinstant, splitTime_isSplit s.params _ _⟩

/-- Settles O47: the hook is asked at the operand, and the sum is fitted once. -/
theorem localtimeAddsZoneAndDst : Obligations.LocaltimeAddsZoneAndDst := by
  intro t s adj loc
  refine ⟨_, by rw [exec_localtime]; simp only [fit_range]; rfl, fun hloc => ?_⟩
  rw [fit_toNat hloc]
  exact splitTime_isSplit s.params adj.1 loc.toNat

/-- Settles O48: the sum of the record is the instant, which fits; and a record in range has the instant that `fit`
delivers. -/
theorem utcRoundTrip : Obligations.UtcRoundTrip := by
  intro s
  refine ⟨fun t ht hfits => ?instant, fun tm t hmk => ?record⟩
  case instant =>
    have hwall := wallSum_splitTime hfits false
    refine ⟨_, exec_gmtime s t, by rw [exec_mkGmtime, hwall, fit_instant ht],
      by rw [exec_mktimeUtc, hwall, fit_instant ht], fun hzone hdst => ?_⟩
    have hsum : (t : Int) + s.zone = t := by rw [hzone, add_zero]
    have hback := mktimeLocal_splitTime hdst ht
    rw [hsum, Int.toNat_natCast] at hback
    exact hback ⟨Int.natCast_nonneg t, by exact_mod_cast ht⟩ hfits
  case record =>
    have hfit := fit_of_mkGmtime hmk
    exact ⟨_, splitTime_isSplit s.params false t, exec_gmtime s t, by rw [exec_mktimeUtc, hfit]⟩

/-- Settles O49: a record in range is that of the instant and the zone, which `MKTIME` takes off again. -/
theorem localRoundTripWithoutDst : Obligations.LocalRoundTripWithoutDst := by
  intro s t tm hdst ht hfits hlocal
  obtain ⟨hloc, rfl⟩ := localtime_in_range hdst hlocal
  exact mktimeLocal_splitTime hdst ht hloc hfits

/-- Settles O50: each conversion reads the hook through `dstAdj` at the one instant. -/
theorem conversionsAskTheHookOnce : Obligations.ConversionsAskTheHookOnce := by
  intro h₁ h₂ p zone en
  refine ⟨fun tm h => ?_, fun t h => ?_⟩
  · simp only [mkLocal, wallClock_eq_wallSum, fit, dstAdj_congr h]
  · simp only [toLocal, dstAdj_congr h]

/-- Settles O52: `badFmt` is that a number does not fit its digits, and where each fits `isoText` prints the digits. -/
theorem isotimePrintsOrRefuses : Obligations.IsotimePrintsOrRefuses :=
  ⟨fun p _ => decodeHost_isotime p, fun tm s hiso =>
    ⟨fun h => by rw [exec_isotime tm hiso, if_pos h, isoText_eq h], fun h => by rw [exec_isotime tm hiso, if_neg h]⟩⟩

/-- Settles O40: the remainders of R191 are the divisibilities. -/
theorem leapYearRule : Obligations.LeapYearRule :=
  ⟨fun p _ => decodeHost_isLeap p, fun year s => by rw [exec_isLeap, isLeapYear_eq]⟩

/-- Settles O51: a zone that fits the width is read at the width as itself. -/
theorem zoneAndDstRegisters : Obligations.ZoneAndDstRegisters := by
  refine ⟨fun p _ => ⟨decodeHost_setZone p, decodeHost_getZone p, decodeHost_setDst p⟩, fun s =>
    ⟨fun zone ⟨_, _, hpos, _⟩ hzone => ?_, exec_getZone s, exec_setDst s⟩⟩
  rw [exec_setZone, wrapSigned_of_inSigned _ _ hpos hzone]

end Sys2Proof.Machine
end

section
/-! SUPPORT. What a step does beside the readings held at the TICK port: nothing but the choice in `fetch` reads
them, so every kind of work is the same with other readings there, which stay (43_softclock.md R255). -/

namespace Sys2Proof.Machine

/-! ## Other readings at the TICK port -/

/-- `s` with the readings `k` held at the TICK port in place of its own. -/
def State.withTicks (s : State) (k : List Nat) : State := { s with ticks := k }

/-- The outcome `o` with the readings `k` held at the TICK port, where it is a next state. -/
def outcomeWithTicks (k : List Nat) : Host.Outcome State Fault Refusal → Host.Outcome State Fault Refusal
  | .next t => .next (t.withTicks k)
  | .fault f => .fault f
  | .refused r => .refused r

theorem outcomeWithTicks_ite {P : Prop} [Decidable P] (k : List Nat) (o o' : Host.Outcome State Fault Refusal) :
    outcomeWithTicks k (if P then o else o') = if P then outcomeWithTicks k o else outcomeWithTicks k o' :=
  apply_ite ..

variable (s : State) (k : List Nat)

@[simp] theorem withTicks_params : (s.withTicks k).params = s.params := rfl
@[simp] theorem withTicks_seq : (s.withTicks k).seq = s.seq := rfl
@[simp] theorem withTicks_regs : (s.withTicks k).regs = s.regs := rfl
@[simp] theorem withTicks_lastMs : (s.withTicks k).lastMs = s.lastMs := rfl

theorem respond_withTicks (r : Response) : (s.withTicks k).respond r = (s.respond r).withTicks k := rfl

theorem emit_withTicks (es : List PinEvent) : (s.withTicks k).emit es = (s.emit es).withTicks k := rfl

theorem finish_withTicks (c : Byte) (d : List Byte) : (s.withTicks k).finish c d = (s.finish c d).withTicks k := rfl

/-! ## Transactions -/

theorem bitsRd_withTicks (n : Nat) : State.bitsRd n (s.withTicks k) =
    ((State.bitsRd n s).1, (State.bitsRd n s).2.withTicks k) := by
  induction n generalizing s with
  | zero => rfl
  | succ n ih =>
    have hbit : (s.withTicks k).bitRd = (s.bitRd.1, s.bitRd.2.withTicks k) := rfl
    simp only [State.bitsRd, hbit, ih]

theorem bytesRd_withTicks (n : Nat) : State.bytesRd n (s.withTicks k) =
    ((State.bytesRd n s).1, (State.bytesRd n s).2.withTicks k) := by
  induction n generalizing s with
  | zero => rfl
  | succ n ih => simp only [State.bytesRd, State.byteRd, bitsRd_withTicks, ih]

theorem wrTxn_withTicks (c : Byte) (d : List Byte) : wrTxn c d (s.withTicks k) = (wrTxn c d s).withTicks k := by
  simp only [wrTxn, emit_withTicks, finish_withTicks]

theorem rdTxn_withTicks (c : Byte) (n : Nat) :
    rdTxn c n (s.withTicks k) = ((rdTxn c n s).1, (rdTxn c n s).2.withTicks k) := by
  simp only [rdTxn, emit_withTicks, bytesRd_withTicks, finish_withTicks]

theorem wireWrite_withTicks (c : Byte) (d : List Byte) (r : Response) :
    wireWrite c d r (s.withTicks k) = (wireWrite c d r s).withTicks k := by
  simp only [wireWrite, wrTxn_withTicks, respond_withTicks]

theorem wireRead_withTicks (c : Byte) (n : Nat) (r : List Byte → Response) :
    wireRead c n r (s.withTicks k) = (wireRead c n r s).withTicks k := by
  simp only [wireRead, rdTxn_withTicks, respond_withTicks]

theorem ramBurst_withTicks (d : List Byte) : ramBurst d (s.withTicks k) = (ramBurst d s).withTicks k := by
  simp only [ramBurst, wrTxn_withTicks, withTicks_params, apply_ite (State.withTicks · k)]

/-! ## Instructions -/

theorem onWire_withTicks {f g : State → State} (h : f (s.withTicks k) = (g s).withTicks k) :
    onWire (s.withTicks k) f = outcomeWithTicks k (onWire s g) := by
  simp only [onWire, outcomeWithTicks_ite, h]
  rfl

theorem txnRead_withTicks (c : Byte) (n : Nat) :
    txnRead c n (s.withTicks k) = outcomeWithTicks k (txnRead c n s) :=
  onWire_withTicks s k (by rw [rdTxn_withTicks])

theorem txnWrite_withTicks (c : Byte) (d : List Byte) :
    txnWrite c d (s.withTicks k) = outcomeWithTicks k (txnWrite c d s) :=
  onWire_withTicks s k (wrTxn_withTicks s k c d)

theorem withTickUnit_withTicks (f : State → State) (h : f (s.withTicks k) = (f s).withTicks k) :
    withTickUnit (s.withTicks k) f = outcomeWithTicks k (withTickUnit s f) := by
  simp only [withTickUnit, outcomeWithTicks_ite, h, withTicks_params]
  rfl

theorem tickState_withTicks (ms : Nat) : tickState ms (s.withTicks k) = (tickState ms s).withTicks k := by
  simp only [tickState, apply_ite (State.withTicks · k), withTicks_params, withTicks_lastMs]
  rfl

/-- No instruction reads the readings held at the TICK port or changes them. -/
theorem exec_withTicks (i : Instr) : exec i (s.withTicks k) = outcomeWithTicks k (exec i s) := by
  cases i with
  | toBcd | fromBcd | blkPack | blkUnpack => rfl
  | isLeap | daysToEpoch | mkGmtime | mktimeUtc | mktimeLocal | gmtime | localtime | setZone | getZone | setDst => rfl
  | isotime tm =>
    simp only [exec, execIsotime, outcomeWithTicks_ite, withTicks_params]
    rfl
  | tick ms => exact withTickUnit_withTicks s k _ (tickState_withTicks s k ms)
  | getTime | setTime | getTimeTm | setTimeTm =>
    simp only [exec, execGetTime, execSetTime, execGetTimeTm, execSetTimeTm]
    exact withTickUnit_withTicks s k _ rfl
  | regRd | clkBurstRd | chipGetTime => exact onWire_withTicks s k (wireRead_withTicks ..)
  | regWr | clkBurstWr | wpSet | chipSetTime => exact onWire_withTicks s k (wireWrite_withTicks ..)
  | ramRd | ramBurstRd =>
    simp only [exec, execRamRd, execRamBurstRd, outcomeWithTicks_ite]
    exact if_congr Iff.rfl rfl (onWire_withTicks s k (wireRead_withTicks ..))
  | ramWr =>
    simp only [exec, execRamWr, outcomeWithTicks_ite]
    exact if_congr Iff.rfl rfl (onWire_withTicks s k (wireWrite_withTicks ..))
  | ramBurstWr =>
    simp only [exec, execRamBurstWr, outcomeWithTicks_ite]
    refine if_congr Iff.rfl rfl (if_congr Iff.rfl rfl (onWire_withTicks s k ?_))
    rw [ramBurst_withTicks, respond_withTicks]
  | wireClkBurstWr | wireClkWr | wireRamWr => exact txnWrite_withTicks ..
  | wireClkBurstRd | wireClkRd | wireRamRd => exact txnRead_withTicks ..
  | wireRamBurstWr =>
    simp only [exec, execWireRamBurstWr, outcomeWithTicks_ite, txnWrite_withTicks]
    rfl
  | wireRamBurstRd =>
    simp only [exec, execWireRamBurstRd, outcomeWithTicks_ite, txnRead_withTicks]
    rfl
  | wireNeverSent => rfl

/-! ## The sequencer -/

theorem seqAfterCmd_withTicks : seqAfterCmd (s.withTicks k) = (seqAfterCmd s).withTicks k := by
  simp only [seqAfterCmd, apply_ite (State.withTicks · k), withTicks_regs]
  rfl

theorem seqAfterByte_withTicks : seqAfterByte (s.withTicks k) = (seqAfterByte s).withTicks k := by
  simp only [seqAfterByte, apply_ite (State.withTicks · k), withTicks_regs, withTicks_seq]
  rfl

theorem seqFall_withTicks : seqFall (s.withTicks k) = (seqFall s).withTicks k := by
  simp only [seqFall, emit_withTicks, seqAfterCmd_withTicks, seqAfterByte_withTicks, withTicks_seq,
    apply_ite (State.withTicks · k)]
  cases s.seq.ph <;> rfl

theorem seqStep_withTicks : seqStep (s.withTicks k) = (seqStep s).map (·.withTicks k) := by
  have hdata : (if (s.withTicks k).regs.rw then seqSample (s.withTicks k) else seqDrive (s.withTicks k)) =
      (if s.regs.rw then seqSample s else seqDrive s).withTicks k := by
    rw [withTicks_regs]
    split <;> rfl
  unfold seqStep
  simp only [withTicks_seq, seqFall_withTicks, hdata]
  split <;> rfl

theorem advance_withTicks : advance (s.withTicks k) = outcomeWithTicks k (advance s) := by
  simp only [advance, seqStep_withTicks]
  cases seqStep s <;> rfl

/-! ## The step -/

/-- The work `w` begun with the readings `k` held at the TICK port. -/
def Work.withTicks (k : List Nat) : Work → Work
  | .reset => .reset
  | .advance s => .advance (s.withTicks k)
  | .tick ms s => .tick ms (s.withTicks k)
  | .run i s => .run i (s.withTicks k)
  | .reject s => .reject (s.withTicks k)
  | .stop r => .stop r
  | .wait => .wait

/-- What a step from `s` whose work is `w` does. -/
def Work.perform (s : State) : Work → Host.Outcome State Fault Refusal
  | .reset => .next s.applyReset
  | .advance s' => Machine.advance s'
  | .tick ms s' => serveTick ms s'
  | .run i s' => exec i s'
  | .reject s' => .next s'.refuseOp
  | .stop r => .refused r
  | .wait => .next s

theorem step_eq_perform : step s = (fetch s).perform s := by
  unfold step
  cases fetch s <;> rfl

theorem fetchMain_withTicks : fetchMain (s.withTicks k) = (fetchMain s).withTicks k := by
  by_cases hidle : s.seq.ph = .idle
  case neg => rw [fetchMain_of_busy hidle, fetchMain_of_busy (s := s.withTicks k) hidle]; rfl
  cases htxn : s.txn with
  | some q =>
    cases hq : decodeTxn q with
    | ok i => rw [fetchMain_of_txn hidle htxn hq, fetchMain_of_txn (s := s.withTicks k) hidle htxn hq]; rfl
    | error e => rw [fetchMain_of_badTxn hidle htxn hq, fetchMain_of_badTxn (s := s.withTicks k) hidle htxn hq]; rfl
  | none =>
    cases hreqs : s.reqs with
    | nil => rw [fetchMain_of_nothing hidle htxn hreqs, fetchMain_of_nothing (s := s.withTicks k) hidle htxn hreqs]; rfl
    | cons r rest =>
      cases hr : decodeHost s.params r with
      | ok i =>
        rw [fetchMain_of_req hidle htxn hreqs hr, fetchMain_of_req (s := s.withTicks k) hidle htxn hreqs hr]; rfl
      | error e =>
        rw [fetchMain_of_badReq hidle htxn hreqs hr, fetchMain_of_badReq (s := s.withTicks k) hidle htxn hreqs hr]; rfl

/-- Where other work is ready, it is neither a reset nor waiting: it does not depend on the state the step is from. -/
theorem perform_fetchMain_of_ready (h : mainReady s = true) (t u : State) :
    (fetchMain s).perform t = (fetchMain s).perform u := by
  unfold fetchMain
  split
  · rfl
  · rename_i hidle
    split
    · split <;> rfl
    · rename_i htxn
      split
      · rename_i hreqs
        simp [mainReady, not_not.1 hidle, htxn, hreqs] at h
      · split <;> rfl

theorem serveTick_withTicks (ms : Nat) : serveTick ms (s.withTicks k) = outcomeWithTicks k (serveTick ms s) := by
  have htick : ∀ m, execTick m (s.withTicks k) = outcomeWithTicks k (execTick m s) :=
    fun m => exec_withTicks s k (.tick m)
  simp only [serveTick, withTicks_params, htick]
  cases execTick (readUnsigned s.params.msBits ms) s <;> rfl

theorem perform_withTicks (w : Work) : (w.withTicks k).perform (s.withTicks k) = outcomeWithTicks k (w.perform s) := by
  cases w with
  | reset | reject | stop | wait => rfl
  | advance s' => exact advance_withTicks s' k
  | tick ms s' => exact serveTick_withTicks s' k ms
  | run i s' => exact exec_withTicks s' k i

theorem perform_fetchMain_withTicks :
    (fetchMain (s.withTicks k)).perform (s.withTicks k) = outcomeWithTicks k ((fetchMain s).perform s) := by
  rw [fetchMain_withTicks, perform_withTicks]

/-- The choice where a TICK is waiting (43_softclock.md R255). -/
theorem fetch_of_tick {s : State} {ms : Nat} {rest : List Nat} (hr : s.rst = false) (ht : s.ticks = ms :: rest) :
    fetch s =
      if mainReady s then
        if Config.tickFirst s.turn then .tick ms { s with ticks := rest, turn := s.turn + 1 }
        else fetchMain { s with turn := s.turn + 1 }
      else .tick ms { s with ticks := rest } := by
  unfold fetch
  rw [if_neg (Bool.eq_false_iff.1 hr)]
  split
  · rename_i hnil
    cases ht.symm.trans hnil
  · rename_i hcons
    cases ht.symm.trans hcons
    rfl

/-- Where the TICK is served after the other work, the step is the one with no TICK waiting. -/
theorem step_of_tick_after {s : State} {ms : Nat} {rest : List Nat} (hr : s.rst = false) (ht : s.ticks = ms :: rest)
    (hready : mainReady s = true) (hafter : Config.tickFirst s.turn = false) :
    step s = outcomeWithTicks s.ticks (step { s with ticks := [], turn := s.turn + 1 }) := by
  have hfetch : fetch s = fetchMain { s with turn := s.turn + 1 } := by
    rw [fetch_of_tick hr ht, if_pos hready, if_neg (Bool.eq_false_iff.1 hafter)]
  have hmain : fetch { s with ticks := [], turn := s.turn + 1 } =
      fetchMain { s with ticks := [], turn := s.turn + 1 } := fetch_eq_fetchMain hr rfl
  calc step s
    _ = (fetchMain { s with turn := s.turn + 1 }).perform s := by rw [step_eq_perform, hfetch]
    _ = (fetchMain { s with turn := s.turn + 1 }).perform { s with turn := s.turn + 1 } :=
      perform_fetchMain_of_ready { s with turn := s.turn + 1 } hready ..
    _ = outcomeWithTicks s.ticks (step { s with ticks := [], turn := s.turn + 1 }) := by
      rw [step_eq_perform, hmain]
      exact perform_fetchMain_withTicks { s with ticks := [], turn := s.turn + 1 } s.ticks

end Sys2Proof.Machine
end

section
/-! CLAIMS. The statement about a TICK beside other work. -/

namespace Sys2Proof.Machine

/-- Settles O8: the TICK goes first, or the other work is done as with no TICK waiting, for it does not read the
readings held at the port. -/
theorem tickIsServedBeforeOrAfter : Obligations.TickIsServedBeforeOrAfter := by
  intro s ms rest hr ht
  refine ⟨fun hready => ?ready, fun hnothing => ?alone⟩
  case ready =>
    cases hfirst : Config.tickFirst s.turn with
    | true =>
      left
      rw [step, fetch_of_tick hr ht, if_pos hready, if_pos hfirst]
    | false =>
      right
      rw [step_of_tick_after hr ht hready hfirst]
      cases step { s with ticks := [], turn := s.turn + 1 } <;> rfl
  case alone => rw [step, fetch_of_tick hr ht, if_neg (Bool.eq_false_iff.1 hnothing)]

end Sys2Proof.Machine
end

section
/-! SUPPORT. The operations of the tick unit (43_softclock.md R241 to R248): their codes, what each answers, and how
the milliseconds since the baseline change when the baseline moves. -/

namespace Sys2Proof.Machine

/-! ## The operation codes -/

section
variable (p : Params) {r : HostReq}

theorem decodeHost_tick (h : r.op = 0x30) : decodeHost p r = .ok (.tick (r.ms % 2 ^ p.msBits)) := by
  rw [decodeHost, h]; rfl
theorem decodeHost_getTime (h : r.op = 0x31) : decodeHost p r = .ok .getTime := by rw [decodeHost, h]; rfl
theorem decodeHost_setTime (h : r.op = 0x32) : decodeHost p r = .ok (.setTime (r.t % 2 ^ p.epochBits)) := by
  rw [decodeHost, h]; rfl
theorem decodeHost_setTimeTm (h : r.op = 0x34) : decodeHost p r = .ok (.setTimeTm r.tm) := by rw [decodeHost, h]; rfl

end

/-! ## The milliseconds since the baseline -/

section
variable (p : Params) (last ms : Nat)

theorem tickDelta_cast : (tickDelta p last ms : Int) = ((ms : Int) - last) % 2 ^ p.msBits :=
  Int.toNat_of_nonneg (Int.emod_nonneg _ (by positivity))

/-- A baseline moved forward by `n` milliseconds, no more than have passed, leaves `n` fewer to count (R242). -/
theorem tickDelta_advance {n : Nat} (h : n ≤ tickDelta p last ms) :
    tickDelta p ((last + n) % 2 ^ p.msBits) ms = tickDelta p last ms - n := by
  have hdelta := tickDelta_cast p last ms
  have hlt : ((ms : Int) - last) % 2 ^ p.msBits < 2 ^ p.msBits := Int.emod_lt_of_pos _ (by positivity)
  zify [h]
  calc (tickDelta p ((last + n) % 2 ^ p.msBits) ms : Int)
    _ = ((ms : Int) - (last + n)) % 2 ^ p.msBits := by rw [tickDelta_cast]; push_cast; rw [Int.sub_emod_emod]
    _ = (((ms : Int) - last) % 2 ^ p.msBits - n) % 2 ^ p.msBits := by rw [Int.emod_sub_emod, sub_sub]
    _ = tickDelta p last ms - n := by rw [← hdelta, Int.emod_eq_of_lt] <;> omega

end

/-! ## What a reading counts -/

/-- A register of width `2 ^ w` that stands at `x`, after a reading `d` milliseconds past the baseline: each whole
second adds `k`, and nothing is written below one second (R241). -/
def counted (w k x d : Nat) : Nat := if d < 1000 then x else (x + k * (d / 1000)) % 2 ^ w

/-- What the first of two readings in order does not count, the second does (R241, R242). -/
theorem counted_counted (w k x : Nat) {d₁ d₂ : Nat} (h : d₁ ≤ d₂) :
    counted w k (counted w k x d₁) (d₂ - 1000 * (d₁ / 1000)) = counted w k x d₂ := by
  unfold counted
  by_cases hfirst : d₁ < 1000
  · rw [if_pos hfirst, Nat.div_eq_of_lt hfirst, Nat.mul_zero, Nat.sub_zero]
  rw [if_neg hfirst, if_neg (by omega : ¬ d₂ < 1000)]
  by_cases hsame : d₂ - 1000 * (d₁ / 1000) < 1000
  · have hwhole : d₁ / 1000 = d₂ / 1000 := by omega
    rw [if_pos hsame, hwhole]
  · have hwhole : d₁ / 1000 + (d₂ - 1000 * (d₁ / 1000)) / 1000 = d₂ / 1000 := by omega
    rw [if_neg hsame, Nat.mod_add_mod, Nat.add_assoc, ← Nat.mul_add, hwhole]

/-! ## What a reading does -/

section
variable {s : State} {ms : Nat}

theorem tickState_of_lt (h : tickDelta s.params s.lastMs ms < 1000) :
    tickState ms s = { s with resp := some { advanced := some false } } := if_pos h

theorem tickState_of_le (h : 1000 ≤ tickDelta s.params s.lastMs ms) : tickState ms s = { s with
    seconds := (s.seconds + tickDelta s.params s.lastMs ms / 1000) % 2 ^ s.params.epochBits
    lastMs := (s.lastMs + 1000 * (tickDelta s.params s.lastMs ms / 1000)) % 2 ^ s.params.msBits
    resp := some { advanced := some true } } := if_neg (Nat.not_lt.2 h)

@[simp] theorem tickState_params (ms : Nat) (s : State) : (tickState ms s).params = s.params := by
  unfold tickState
  dsimp only
  split <;> rfl

theorem tickState_seconds (ms : Nat) (s : State) : (tickState ms s).seconds =
    counted s.params.epochBits 1 s.seconds (tickDelta s.params s.lastMs ms) := by
  rw [counted, Nat.one_mul]
  exact apply_ite State.seconds ..

theorem tickState_lastMs (ms : Nat) (s : State) : (tickState ms s).lastMs =
    counted s.params.msBits 1000 s.lastMs (tickDelta s.params s.lastMs ms) := apply_ite State.lastMs ..

/-- A reading moves the baseline by the whole seconds it counts (R242). -/
theorem tickDelta_tickState (later : Nat) (h : tickDelta s.params s.lastMs ms ≤ tickDelta s.params s.lastMs later) :
    tickDelta s.params (tickState ms s).lastMs later =
      tickDelta s.params s.lastMs later - 1000 * (tickDelta s.params s.lastMs ms / 1000) := by
  rw [tickState_lastMs, counted]
  split
  · rename_i hlt
    rw [Nat.div_eq_of_lt hlt, Nat.mul_zero, Nat.sub_zero]
  · exact tickDelta_advance _ _ _ (le_trans (Nat.mul_div_le _ _) h)

theorem tickState_tickState {m₁ m₂ : Nat} (h : tickDelta s.params s.lastMs m₁ ≤ tickDelta s.params s.lastMs m₂) :
    (tickState m₂ (tickState m₁ s)).seconds = (tickState m₂ s).seconds ∧
    (tickState m₂ (tickState m₁ s)).lastMs = (tickState m₂ s).lastMs := by
  simp only [tickState_seconds m₂, tickState_lastMs m₂, tickState_params, tickDelta_tickState m₂ h]
  rw [tickState_seconds, tickState_lastMs]
  exact ⟨counted_counted _ _ _ h, counted_counted _ _ _ h⟩

end

/-! ## The instructions -/

section
variable {s : State}

theorem exec_tick (ms : Nat) (h : s.params.hasTickUnit = true) : exec (.tick ms) s = .next (tickState ms s) := if_pos h

theorem exec_getTime (h : s.params.hasTickUnit = true) :
    exec .getTime s = .next { s with resp := some { t := some s.seconds } } := if_pos h

theorem exec_setTime (t : Nat) (h : s.params.hasTickUnit = true) : exec (.setTime t) s =
    .next { s with seconds := t % 2 ^ s.params.epochBits, resp := some {} } := if_pos h

theorem exec_getTimeTm (h : s.params.hasTickUnit = true) : exec .getTimeTm s = .next { s with resp := some {
    tm := some (splitTime s.params false (fit s.params (s.seconds + s.zone)).1)
    range := (fit s.params (s.seconds + s.zone)).2 } } := if_pos h

theorem exec_setTimeTm (tm : Tm) (h : s.params.hasTickUnit = true) : exec (.setTimeTm tm) s =
    let mk := mkLocal Config.dstHook s.params s.zone s.dstEn tm
    .next { s with seconds := mk.1, resp := some { tm := some mk.2.1, range := mk.2.2 } } := if_pos h

/-- Whether the unit is there or not, a TICK completes and changes the registers of the unit and the response alone. -/
theorem exec_tick_frame (ms : Nat) (s : State) : ∃ n l r,
    exec (.tick ms) s = .next { s with seconds := n, lastMs := l, resp := some r } := by
  cases hunit : s.params.hasTickUnit with
  | false => exact ⟨s.seconds, s.lastMs, badOpResponse, if_neg (Bool.eq_false_iff.1 hunit)⟩
  | true =>
    rw [exec_tick ms hunit]
    rcases Nat.lt_or_ge (tickDelta s.params s.lastMs ms) 1000 with hlt | hge
    · exact ⟨_, _, _, congrArg _ (tickState_of_lt hlt)⟩
    · exact ⟨_, _, _, congrArg _ (tickState_of_le hge)⟩

end

end Sys2Proof.Machine
end

section
/-! CLAIMS. The statements about the tick unit. -/

namespace Sys2Proof.Machine

/-- Settles O54: the difference of the statement is `tickDelta`. -/
theorem tickAdvancesWholeSeconds : Obligations.TickAdvancesWholeSeconds := by
  refine ⟨fun p _ => decodeHost_tick p, fun ms s hunit => ?_⟩
  simp only [← tickDelta_cast, exec_tick ms hunit]
  refine ⟨fun hlt => ?_, fun hge => ?_⟩
  · rw [tickState_of_lt (by omega)]
  · rw [tickState_of_le (by omega)]
    rfl

/-- Settles O55: the baseline moves by the whole seconds, which leaves the remainder. -/
theorem tickKeepsTheRemainder : Obligations.TickKeepsTheRemainder := by
  intro ms s t hunit ht
  rw [exec_tick ms hunit] at ht
  cases ht
  have hdelta := tickDelta_tickState (s := s) ms le_rfl
  rw [tickState_params, ← tickDelta_cast, ← tickDelta_cast, hdelta]
  omega

/-- Settles O56: after the first TICK, the second counts what the first left of its reading. -/
theorem twoTicksCountAsOne : Obligations.TwoTicksCountAsOne := by
  intro m₁ m₂ s t u v hunit hle ht hu hv
  rw [exec_tick _ hunit] at ht hv
  cases ht
  cases hv
  rw [exec_tick _ (by rwa [tickState_params])] at hu
  cases hu
  rw [← tickDelta_cast, ← tickDelta_cast] at hle
  exact tickState_tickState (by exact_mod_cast hle)

/-- Settles O59: the sum is fitted once, and the record is that of what the fit delivers. -/
theorem getTimeTmAddsTheZone : Obligations.GetTimeTmAddsTheZone := by
  intro s hunit loc
  refine ⟨_, by rw [exec_getTimeTm hunit, fit_range], fun hloc => ?_⟩
  rw [fit_toNat hloc]
  exact splitTime_isSplit s.params false loc.toNat

/-- Settles O9: `serveTick` runs `TICK` and moves its response to the TICK port. -/
theorem tickPortChangesOnlyTheTickUnit : Obligations.TickPortChangesOnlyTheTickUnit := by
  intro s ms
  obtain ⟨n, l, r, htick⟩ := exec_tick_frame (readUnsigned s.params.msBits ms) s
  refine ⟨{ s with seconds := n, lastMs := l, tickResp := some r }, r, ?_, rfl, fun _ hms => ?_⟩
  · rw [serveTick, show execTick _ s = _ from htick]
  · rw [readUnsigned_of_lt hms] at htick
    exact ⟨_, htick, rfl, rfl, rfl⟩

/-- Settles O57: each reading from the baseline the one before it left. -/
theorem tickSequenceOfTheDocument : Obligations.TickSequenceOfTheDocument :=
  ⟨_, _, _, _, _, exec_tick 0 rfl, by decide, by decide, exec_tick 400 rfl, by decide, by decide,
    exec_tick 1100 rfl, by decide, by decide, exec_tick 2600 rfl, by decide, by decide,
    exec_tick 5300 rfl, by decide, by decide⟩

/-- Settles O58: a value of the width is stored as itself. -/
theorem secondsReadAndWritten : Obligations.SecondsReadAndWritten := by
  refine ⟨fun p _ => ⟨decodeHost_getTime p, decodeHost_setTime p⟩, fun s hunit =>
    ⟨exec_getTime hunit, fun t ht => ?_⟩⟩
  rw [exec_setTime t hunit, Nat.mod_eq_of_lt ht]

/-- Settles O60: both operations are `mkLocal` of the same record in the same state. -/
theorem setTimeTmIsMktimeThenSetTime : Obligations.SetTimeTmIsMktimeThenSetTime :=
  ⟨fun p _ => decodeHost_setTimeTm p, fun tm _ hunit => ⟨_, _, _, rfl, exec_setTimeTm tm hunit⟩⟩

end Sys2Proof.Machine
end

section
/-! SUPPORT. Steps that do not stop (60_exceptions.md R260): the requests held after a step, the host operations and the
wire command rows that complete from the idle invariant, and the positions of the sequencer that have a row. -/

namespace Sys2Proof.Machine

variable {s t u : State}

/-! ## Requests held -/

/-- `t` holds no request and no start request that `s` does not hold, and has the parameters of `s`. -/
structure HoldsNoMore (s t : State) : Prop where
  params : t.params = s.params
  reqs : t.reqs ⊆ s.reqs
  txn : ∀ q, t.txn = some q → s.txn = some q

theorem HoldsNoMore.of_kept (hparams : t.params = s.params) (hreqs : t.reqs = s.reqs) (htxn : t.txn = s.txn) :
    HoldsNoMore s t :=
  ⟨hparams, hreqs ▸ List.Subset.refl _, fun _ hq => htxn ▸ hq⟩

theorem HoldsNoMore.trans (h₁ : HoldsNoMore s t) (h₂ : HoldsNoMore t u) : HoldsNoMore s u :=
  ⟨h₂.params.trans h₁.params, List.Subset.trans h₂.reqs h₁.reqs, fun q hq => h₁.txn q (h₂.txn q hq)⟩

theorem HoldsNoMore.of_sameBeside (h : SameBeside s t) : HoldsNoMore s t := by
  rw [h]
  exact .of_kept rfl rfl rfl

theorem HoldsNoMore.txnFits (h : HoldsNoMore s t) (hs : TxnFits s) : TxnFits t := fun q hq => hs q (h.txn q hq)

theorem HoldsNoMore.reqsWf (h : HoldsNoMore s t) (hs : ReqsWf s) : ReqsWf t := by
  intro r hr
  rw [h.params]
  exact hs r (h.reqs hr)

/-- An instruction takes nothing from the ports and puts nothing there. -/
theorem Effect.holdsNoMore (h : Effect s t) : HoldsNoMore s t := by
  induction h with
  | refl => exact .of_kept rfl rfl rfl
  | respond _ _ ih | setDstEn _ _ ih => exact ih.trans (.of_kept rfl rfl rfl)
  | setZone _ _ _ ih | setSeconds _ _ _ ih | setLastMs _ _ _ ih => exact ih.trans (.of_kept rfl rfl rfl)
  | write c d _ _ _ ih => exact ih.trans (.of_sameBeside (wrTxn_sameBeside c d _))
  | read c k _ _ _ ih => exact ih.trans (.of_sameBeside (rdTxn_sameBeside c k _))

/-! ## The host operations -/

/-- The outcome is a next state. -/
def Completes (o : Host.Outcome State Fault Refusal) : Prop := ∃ t, o = .next t

theorem Completes.next (t : State) : Completes (.next t) := ⟨t, rfl⟩

theorem Completes.ite {P : Prop} [Decidable P] {o o' : Host.Outcome State Fault Refusal} (h : P → Completes o)
    (h' : ¬ P → Completes o') : Completes (if P then o else o') := by
  split
  case isTrue hP => exact h hP
  case isFalse hP => exact h' hP

theorem Completes.onWire (hs : s.idle) (f : State → State) : Completes (onWire s f) := ⟨f s, onWire_of_idle f hs⟩

theorem Completes.txnWrite (hs : s.idle) (c : Byte) (d : List Byte) : Completes (txnWrite c d s) := .onWire hs _

theorem Completes.txnRead (hs : s.idle) (c : Byte) (k : Nat) : Completes (txnRead c k s) := .onWire hs _

theorem Completes.withTickUnit (s : State) (f : State → State) : Completes (withTickUnit s f) :=
  .ite (fun _ => .next _) (fun _ => .next _)

/-- A well-formed host operation completes from the idle invariant: none refuses but `RAM_BURST_WR` with too little
data, which is not well formed. -/
theorem exec_host_completes {i : Instr} {n : Nat} (hop : opCodeOf i = some n) (hwf : i.wf s.params = true)
    (hs : s.idle) : Completes (exec i s) := by
  cases i with
  | toBcd | fromBcd | blkPack | blkUnpack => exact .next _
  | isLeap | daysToEpoch | mkGmtime | mktimeUtc | mktimeLocal | gmtime | localtime => exact .next _
  | setZone | getZone | setDst => exact .next _
  | isotime => exact .ite (fun _ => .ite (fun _ => .next _) (fun _ => .next _)) (fun _ => .next _)
  | tick | getTime | setTime | getTimeTm | setTimeTm =>
    simp only [exec, execTick, execGetTime, execSetTime, execGetTimeTm, execSetTimeTm]
    exact .withTickUnit _ _
  | regRd | regWr | clkBurstRd | clkBurstWr | wpSet | chipGetTime | chipSetTime => exact .onWire hs _
  | ramRd | ramWr | ramBurstRd => exact .ite (fun _ => .next _) (fun _ => .onWire hs _)
  | ramBurstWr size data =>
    obtain ⟨_, hdata⟩ : size < 2 ^ s.params.sizeBits ∧ min size 31 ≤ data.length := by
      simpa [Instr.wf] using hwf
    exact .ite (fun _ => .next _) fun _ => .ite (fun hshort => absurd hdata (Nat.not_le.2 hshort)) fun _ => .onWire hs _
  | wireClkBurstWr | wireClkBurstRd | wireRamBurstWr | wireRamBurstRd => cases hop
  | wireClkWr | wireClkRd | wireRamWr | wireRamRd | wireNeverSent => cases hop

/-! ## The wire command rows -/

/-- A command byte with bit 7 set and address 63 is a memory burst's (30_encoding.md R90, R93). -/
theorem eq_ramBurstCmd {c : Byte} (h7 : c.getLsbD 7 = true) (hc : cmdAddr c = 63) :
    c = ramBurstCmd (if c.getLsbD 0 then .read else .write) := by
  revert c
  decide

/-- A start request names a row of the table, and the row completes from `s`. -/
def RowCompletes (q : TxnReq) (s : State) : Prop := ∃ i, decodeTxn q = .ok i ∧ Completes (exec i s)

theorem rowCompletes_ramBurstRead {n : BitVec 5} (hs : s.idle) (hn : n ≠ 0) :
    RowCompletes ⟨ramBurstCmd .read, n, []⟩ s :=
  ⟨_, decodeTxn_ramBurstRead hn, .ite (fun _ => .txnRead hs _ _) (absurd hn)⟩

theorem rowCompletes_ramBurstWrite {d : List Byte} (hs : s.idle) (h1 : 1 ≤ d.length) (h31 : d.length ≤ 31) :
    RowCompletes ⟨ramBurstCmd .write, BitVec.ofNat 5 d.length, d⟩ s :=
  ⟨_, decodeTxn_ramBurstWrite h1 h31, .ite (fun _ => .txnWrite hs _ _) (absurd ⟨h1, h31⟩)⟩

/-- One byte read under any command byte: a single read, or a memory burst of one byte. -/
theorem rowCompletes_readOne {c : Byte} (hs : s.idle) (h7 : c.getLsbD 7 = true) (h0 : c.getLsbD 0 = true) :
    RowCompletes ⟨c, 1, []⟩ s := by
  by_cases hc : cmdAddr c = 63
  · rw [eq_ramBurstCmd h7 hc, if_pos h0]
    exact rowCompletes_ramBurstRead hs (by decide)
  · refine ⟨_, decodeTxn_singleRead h7 h0 hc, ?_⟩
    split <;> exact .txnRead hs _ _

/-- One byte written under any command byte: a single write, or a memory burst of one byte. -/
theorem rowCompletes_writeOne {c b : Byte} (hs : s.idle) (h7 : c.getLsbD 7 = true) (h0 : c.getLsbD 0 = false) :
    RowCompletes ⟨c, 1, [b]⟩ s := by
  by_cases hc : cmdAddr c = 63
  · rw [eq_ramBurstCmd h7 hc, if_neg (Bool.eq_false_iff.1 h0)]
    exact rowCompletes_ramBurstWrite (d := [b]) hs (le_refl 1) (by decide : 1 ≤ 31)
  · refine ⟨_, decodeTxn_singleWrite h7 h0 hc, ?_⟩
    split <;> exact .txnWrite hs _ _

/-- Eight bytes are those of a block. -/
theorem exists_toList_of_length {d : List Byte} (h : d.length = 8) : ∃ k : Blk, d = k.toList := by
  match d, h with
  | [b0, b1, b2, b3, b4, b5, b6, b7], _ => exact ⟨⟨b0, b1, b2, b3, b4, b5, b6, b7⟩, rfl⟩

/-- A start request that fits its command byte has a row that completes from the idle invariant. -/
theorem rowCompletes_of_fits {q : TxnReq} (hs : s.idle) (h7 : q.cmd.getLsbD 7 = true) (hq : FitsCommand q) :
    RowCompletes q s := by
  obtain ⟨c, n, d⟩ := q
  unfold FitsCommand at hq
  split at hq
  case isTrue h0 =>
    obtain ⟨rfl, rfl | ⟨rfl, rfl⟩ | ⟨rfl, hn⟩⟩ := hq
    · exact rowCompletes_readOne hs h7 h0
    · exact ⟨_, decodeTxn_clkBurstRead, .txnRead hs _ _⟩
    · exact rowCompletes_ramBurstRead hs hn
  case isFalse h0 =>
    obtain ⟨hn, hd⟩ : n.toNat = d.length ∧ _ := hq
    have h31 : d.length ≤ 31 := hn ▸ Nat.le_of_lt_succ n.isLt
    obtain rfl : n = BitVec.ofNat 5 d.length := by rw [← hn, BitVec.ofNat_toNat, BitVec.setWidth_eq]
    obtain h1 | ⟨rfl, h8⟩ | ⟨rfl, h1⟩ := hd
    · obtain ⟨b, rfl⟩ := List.length_eq_one_iff.1 h1
      exact rowCompletes_writeOne hs h7 (Bool.eq_false_iff.2 h0)
    · obtain ⟨k, rfl⟩ := exists_toList_of_length h8
      exact ⟨_, decodeTxn_clkBurstWrite k, .txnWrite hs _ _⟩
    · exact rowCompletes_ramBurstWrite hs h1 h31

/-! ## The sequencer -/

/-- The transition table has a row at every reachable position (41_protocol.md R152). -/
theorem seqStep_of_reachable (h : SeqReachable s) : ∃ t, seqStep s = some t := by
  obtain ⟨hsub, _, _⟩ := h
  have hrow : s.seq.ph = .turn ∨ s.seq.ph = .down ∨ s.seq.ph = .release → s.seq.sub.toNat = 0 := by
    intro hph
    rw [hsub hph]
    rfl
  unfold seqStep
  split
  case h_7 hph hne => exact absurd (hrow (.inl hph)) hne
  case h_13 hph hne => exact absurd (hrow (.inr (.inl hph))) hne
  case h_15 hph hne => exact absurd (hrow (.inr (.inr hph))) hne
  all_goals exact ⟨_, rfl⟩

/-! ## The step -/

/-- The outcome is a next state that holds no more requests than `s`. -/
def Serves (s : State) (o : Host.Outcome State Fault Refusal) : Prop := ∃ t, o = .next t ∧ HoldsNoMore s t

theorem serves_exec {s' : State} {i : Instr} (hfrom : HoldsNoMore s s') (h : Completes (exec i s')) :
    Serves s (exec i s') := by
  obtain ⟨t, ht⟩ := h
  exact ⟨t, ht, hfrom.trans (exec_effect i ht).holdsNoMore⟩

theorem serves_serveTick {s' : State} (ms : Nat) (hfrom : HoldsNoMore s s') : Serves s (serveTick ms s') := by
  obtain ⟨t, r, ht, hframe, _⟩ := tickPortChangesOnlyTheTickUnit s' ms
  refine ⟨t, ht, hfrom.trans ?_⟩
  rw [hframe]
  exact .of_kept rfl rfl rfl

/-- The work beside the TICK port, from a state a step does not stop in: a transaction goes on, for its position has a
row; a start request has one too; a request that names an instruction names a well-formed one. -/
theorem serves_fetchMain (hinv : Inv s) (htxns : TxnFits s) (hreqsWf : ReqsWf s) (t : State) (ht : HoldsNoMore s t) :
    Serves s ((fetchMain s).perform t) := by
  obtain ⟨⟨hpins, _⟩, hreach, _⟩ := hinv
  by_cases hidle : s.seq.ph = .idle
  case neg =>
    obtain ⟨u, hu⟩ := seqStep_of_reachable hreach
    rw [fetchMain_of_busy hidle]
    exact ⟨u, advance_next.2 hu, .of_sameBeside (seqStep_row hu).frame.beside⟩
  have hs : s.idle := ⟨hidle, hpins hidle⟩
  cases htxn : s.txn with
  | some q =>
    obtain ⟨h7, hfits⟩ := htxns q htxn
    obtain ⟨i, hi, hdone⟩ := rowCompletes_of_fits (s := { s with txn := none }) hs h7 hfits
    rw [fetchMain_of_txn hidle htxn hi]
    exact serves_exec ⟨rfl, List.Subset.refl _, fun _ h => nomatch h⟩ hdone
  | none =>
    cases hreqs : s.reqs with
    | nil =>
      rw [fetchMain_of_nothing hidle htxn hreqs]
      exact ⟨t, rfl, ht⟩
    | cons r rest =>
      have hrest : HoldsNoMore s { s with reqs := rest } :=
        ⟨rfl, hreqs ▸ List.subset_cons_self r rest, fun _ h => h⟩
      cases hr : decodeHost s.params r with
      | ok i =>
        have hwf := hreqsWf r (hreqs ▸ List.mem_cons_self) i hr
        obtain ⟨_, hcode, _⟩ := hostDecoderTakesTheTableCodes s.params r
        rw [fetchMain_of_req hidle htxn hreqs hr]
        exact serves_exec hrest (exec_host_completes (hcode i hr) hwf hs)
      | error e =>
        rw [fetchMain_of_badReq hidle htxn hreqs hr]
        exact ⟨_, rfl, hrest.trans (.of_kept rfl rfl rfl)⟩

/-- A reset drops the start request and keeps the requests the host holds out (log 16). -/
theorem applyReset_holdsNoMore (s : State) : HoldsNoMore s s.applyReset :=
  ⟨rfl, List.Subset.refl _, fun _ h => nomatch h⟩

/-- The step serves what `fetch` chooses, with the requests it leaves held. -/
theorem serves_step (hinv : Inv s) (htxns : TxnFits s) (hreqs : ReqsWf s) : Serves s (step s) := by
  rw [step_eq_perform]
  cases hr : s.rst with
  | true =>
    rw [fetch, if_pos hr]
    exact ⟨_, rfl, applyReset_holdsNoMore s⟩
  | false =>
    cases ht : s.ticks with
    | nil =>
      rw [fetch_eq_fetchMain hr ht]
      exact serves_fetchMain hinv htxns hreqs s (.of_kept rfl rfl rfl)
    | cons ms rest =>
      rw [fetch_of_tick hr ht]
      split
      · split
        · exact serves_serveTick ms (.of_kept rfl rfl rfl)
        · have hturn : HoldsNoMore s { s with turn := s.turn + 1 } := .of_kept rfl rfl rfl
          obtain ⟨t, hdone, hmore⟩ := serves_fetchMain (s := { s with turn := s.turn + 1 }) hinv htxns hreqs s
            (.of_kept rfl rfl rfl)
          exact ⟨t, hdone, hturn.trans hmore⟩
      · exact serves_serveTick ms (.of_kept rfl rfl rfl)

end Sys2Proof.Machine
end

section
/-! CLAIMS. The statements about what stops and what does not. -/

namespace Sys2Proof.Machine

/-- Settles O12: the step serves what is there, and the requests it leaves held are among those it found. -/
theorem noStepStops : Obligations.NoStepStops := by
  intro s hinv htxns hreqs
  obtain ⟨t, ht, hmore⟩ := serves_step hinv htxns hreqs
  exact ⟨t, ht, hmore.txnFits htxns, hmore.reqsWf hreqs, hmore.params⟩

/-- Settles O32: with fewer bytes than it is to send the count is not 0, and the data is checked before the pins. -/
theorem shortDataIsRefused : Obligations.ShortDataIsRefused := by
  intro s size data hshort
  have hsend : clampSize size ≠ 0 := Nat.ne_zero_of_lt hshort
  exact (if_neg hsend).trans (if_pos hshort)

end Sys2Proof.Machine
end

section
/-! SUPPORT. Reset and the events beside it (70_reset_and_hazards.md R290, R291): what a reset leaves, that the peer's
bytes change at a clock edge alone, and that no instruction and no row of the transition table emits an event that
occurs only at reset (00_scope.md R16). -/

namespace Sys2Proof.Machine

variable {s t u : State}

/-! ## The step of a reset -/

theorem step_of_reset (h : s.rst = true) : step s = .next s.applyReset := by
  rw [step, fetch, if_pos h]

theorem applyReset_trace (s : State) : s.applyReset.trace = s.trace ++ resetEvents := rfl

theorem applyReset_idle (s : State) : s.applyReset.idle := ⟨rfl, rfl, rfl, rfl⟩

theorem txnRegs_reset_db (i : Nat) (h : i < 31) : TxnRegs.reset.db[i] = 0 := Vector.getElem_replicate h

/-! ## The peer's bytes without a clock edge -/

/-- A reference peer stores a byte at a clock edge only (20_memory.md R82, R83). -/
theorem observe_byteAt (q : Peer) (p : Pins) {e : PinEvent} (h : e ≠ .toggleClk) (a : Nat) :
    (q.observe p e).byteAt a = q.byteAt a := by
  cases q with
  | oracle => cases e <;> rfl
  | loopWire => rfl
  | reference r =>
    cases e with
    | toggleClk => exact absurd rfl h
    | writeCs l => cases l <;> rfl
    | _ => rfl

theorem watch_byteAt (q : Peer) (p : Pins) {es : List PinEvent} (h : .toggleClk ∉ es) (a : Nat) :
    (q.watch p es).byteAt a = q.byteAt a := by
  induction es generalizing q p with
  | nil => rfl
  | cons e es ih =>
    obtain ⟨he, hes⟩ := List.ne_and_not_mem_of_not_mem_cons h
    rw [watch_cons, ih _ _ hes, observe_byteAt q p he.symm]

theorem applyReset_byteAt (s : State) (a : Nat) : s.applyReset.peer.byteAt a = s.peer.byteAt a :=
  watch_byteAt s.peer s.pins (by decide) a

/-! ## The events of operation -/

/-- An event of a step that is no reset: it makes neither chip-select nor the clock an output and does not write the
clock level. -/
@[simp] def PinEvent.InOperation (e : PinEvent) : Prop := e ≠ .setOutCs ∧ e ≠ .setOutClk ∧ ∀ l, e ≠ .writeClk l

/-- Every event of the list is one of operation. -/
@[simp] def OperationTrace (es : List PinEvent) : Prop := ∀ e ∈ es, e.InOperation

theorem OperationTrace.append {es fs : List PinEvent} (h : OperationTrace es) (h' : OperationTrace fs) :
    OperationTrace (es ++ fs) := List.forall_mem_append.2 ⟨h, h'⟩

theorem OperationTrace.flatMap {α : Type} {f : α → List PinEvent} (h : ∀ a, OperationTrace (f a)) (l : List α) :
    OperationTrace (l.flatMap f) := by
  intro e he
  obtain ⟨a, -, hmem⟩ := List.mem_flatMap.1 he
  exact h a e hmem

theorem operationTrace_byteWr (v : Byte) : OperationTrace (traceByteWr v) :=
  .flatMap (fun i => by simp) _

theorem operationTrace_byteRd (v : Byte) : OperationTrace (traceByteRd v) :=
  .flatMap (fun i => by simp) _

theorem operationTrace_wrTrace (c : Byte) (d : List Byte) : OperationTrace (wrTrace c d) := by
  have hcs (l : Level) : OperationTrace [.writeCs l] := by simp
  exact (((hcs true).append (operationTrace_byteWr c)).append (.flatMap operationTrace_byteWr d)).append (hcs false)

theorem operationTrace_rdTrace (c : Byte) (d : List Byte) : OperationTrace (rdTrace c d) := by
  have hstart : OperationTrace [.writeCs true] := by simp
  have hturn : OperationTrace [.setInDat] := by simp
  have hend : OperationTrace [.writeCs false, .setOutDat] := by simp
  exact (((hstart.append (operationTrace_byteWr c)).append hturn).append (.flatMap operationTrace_byteRd d)).append hend

/-- From `s` to `t` the trace grows by events of operation. -/
def Operates (s t : State) : Prop := ∃ es, t.trace = s.trace ++ es ∧ OperationTrace es

theorem Operates.of_trace_eq (h : t.trace = s.trace) : Operates s t :=
  ⟨[], by rw [h, List.append_nil], by simp⟩

theorem Operates.trans (h : Operates s t) (h' : Operates t u) : Operates s u := by
  obtain ⟨es, ht, hes⟩ := h
  obtain ⟨fs, hu, hfs⟩ := h'
  exact ⟨es ++ fs, by rw [hu, ht, List.append_assoc], hes.append hfs⟩

/-- Taking work from a port emits nothing. -/
theorem Operates.of_taken (h : Taken s t) (h' : Operates t u) : Operates s u := by
  have ht : t.trace = s.trace := by rw [h]
  exact (Operates.of_trace_eq ht).trans h'

/-- An instruction emits the events of its transactions and no other. -/
theorem Effect.operates (h : Effect s t) : Operates s t := by
  induction h with
  | refl => exact .of_trace_eq rfl
  | respond _ _ ih | setDstEn _ _ ih => exact ih.trans (.of_trace_eq rfl)
  | setZone _ _ _ ih | setSeconds _ _ _ ih | setLastMs _ _ _ ih => exact ih.trans (.of_trace_eq rfl)
  | write c d _ _ _ ih => exact ih.trans ⟨_, wrTxn_trace c d _, operationTrace_wrTrace c d⟩
  | read c k _ _ _ ih => exact ih.trans ⟨_, rdTxn_trace c k _, operationTrace_rdTrace c _⟩

theorem serveTick_operates {ms : Nat} (h : serveTick ms s = .next t) : Operates s t := by
  obtain ⟨u, hu, rfl⟩ := serveTick_next h
  exact (exec_effect _ hu).operates.trans (.of_trace_eq rfl)

theorem seqFall_trace (s : State) : (seqFall s).trace = s.trace ++ [.toggleClk] := by
  unfold seqFall seqAfterCmd seqAfterByte
  dsimp only
  split
  · rfl
  · split
    all_goals split
    all_goals rfl

/-- A row of the transition table emits at most one event, and that one of operation. -/
theorem SeqRow.operates (h : SeqRow s t) : Operates s t := by
  cases h with
  | idle => exact .of_trace_eq rfl
  | fall => exact ⟨_, seqFall_trace s, by simp⟩
  | drive | sample | rise | settle | turn | down | release =>
    exact ⟨_, rfl, by simp⟩

/-- A step that is no reset emits events of operation, whatever the work. -/
theorem step_operates (hr : s.rst = false) (hst : step s = .next t) : Operates s t := by
  have hfrom := fetch_startsFrom s
  rw [step_eq_perform] at hst
  cases hw : fetch s with
  | reset =>
    rw [hw] at hfrom
    exact absurd hfrom (ne_true_of_eq_false hr)
  | advance s' =>
    rw [hw] at hfrom hst
    exact .of_taken hfrom (seqStep_row (advance_next.1 hst)).operates
  | tick ms s' =>
    rw [hw] at hfrom hst
    exact .of_taken hfrom (serveTick_operates hst)
  | run i s' =>
    rw [hw] at hfrom hst
    exact .of_taken hfrom (exec_effect i hst).operates
  | reject s' =>
    rw [hw] at hfrom hst
    cases hst
    exact .of_taken hfrom (.of_trace_eq rfl)
  | stop r =>
    rw [hw] at hst
    cases hst
  | wait =>
    rw [hw] at hst
    cases hst
    exact .of_trace_eq rfl

end Sys2Proof.Machine
end

section
/-! CLAIMS. The statements about reset. -/

namespace Sys2Proof.Machine

/-- Settles O14: a raised reset input leads to `applyReset`, whose events are the six; any other step operates. -/
theorem resetEmitsSixEvents : Obligations.ResetEmitsSixEvents :=
  ⟨⟨rfl, rfl, rfl, rfl, rfl⟩,
    fun s hr => ⟨s.applyReset, step_of_reset hr, applyReset_trace s, applyReset_idle s⟩,
    fun _ _ hr hst => step_operates hr hst⟩

/-- Settles O13: `State.reset` and `applyReset` hold the same values, and none of the six events is a clock edge. -/
theorem resetLeavesTheStatedValues : Obligations.ResetLeavesTheStatedValues :=
  ⟨⟨rfl, rfl, rfl, rfl, rfl, rfl, txnRegs_reset_db, rfl, rfl, rfl, rfl⟩,
    fun s hr => ⟨s.applyReset, step_of_reset hr, ⟨rfl, rfl, rfl, rfl, rfl, rfl, txnRegs_reset_db, rfl, rfl, rfl, rfl⟩,
      rfl, applyReset_byteAt s⟩⟩

end Sys2Proof.Machine
end

section
/-! SUPPORT. The counts of events, clock edges and samples of an operation (70_reset_and_hazards.md R321). -/

namespace Sys2Proof.Machine

variable {s t u : State} {i : Instr}

/-! ## The length and the samples of a transaction -/

theorem length_traceByteWr (v : Byte) : (traceByteWr v).length = 32 := rfl

theorem length_traceByteRd (v : Byte) : (traceByteRd v).length = 32 := rfl

theorem length_flatMap_of_const {f : Byte → List PinEvent} (hf : ∀ v, (f v).length = 32) (d : List Byte) :
    (d.flatMap f).length = 32 * d.length := by
  simp only [List.length_flatMap, hf, List.map_const', List.sum_replicate_nat, Nat.mul_comm]

theorem length_wrTrace (c : Byte) (d : List Byte) : (wrTrace c d).length = 34 + 32 * d.length := by
  simp only [wrTrace, List.length_append, length_traceByteWr, length_flatMap_of_const length_traceByteWr,
    List.length_singleton]
  omega

theorem length_rdTrace (c : Byte) (d : List Byte) : (rdTrace c d).length = 36 + 32 * d.length := by
  simp only [rdTrace, List.length_append, length_traceByteWr, length_flatMap_of_const length_traceByteRd,
    List.length_cons, List.length_nil]
  omega

theorem samples_rdTrace (c : Byte) (d : List Byte) : samples (rdTrace c d) = 8 * d.length := by
  have hstart : samples [.writeCs true] = 0 := rfl
  have hturn : samples [.setInDat] = 0 := rfl
  have hend : samples [.writeCs false, .setOutDat] = 0 := rfl
  simp only [rdTrace, samples_append, samples_traceByteWr, samples_tracesByteRd, hstart, hturn, hend]
  omega

/-! ## Counts -/

/-- From `s` to `t` the trace grows by `n` events, `k` of them clock edges and `m` samples. -/
def Emitted (n k m : Nat) (s t : State) : Prop :=
  ∃ es, t.trace = s.trace ++ es ∧ es.length = n ∧ toggles es = k ∧ samples es = m

theorem emits_iff {n k m : Nat} : Emits i s n k m ↔ ∃ t, exec i s = .next t ∧ Emitted n k m s t := by
  simp only [Emits, Emitted, exists_and_left]

theorem emitted_of_trace_eq (h : t.trace = s.trace) : Emitted 0 0 0 s t :=
  ⟨[], by rw [h, List.append_nil], rfl, rfl, rfl⟩

theorem Emitted.trans {n k m n' k' m' : Nat} (h : Emitted n k m s t) (h' : Emitted n' k' m' t u) :
    Emitted (n + n') (k + k') (m + m') s u := by
  obtain ⟨es, ht, rfl, rfl, rfl⟩ := h
  obtain ⟨fs, hu, rfl, rfl, rfl⟩ := h'
  exact ⟨es ++ fs, by rw [hu, ht, List.append_assoc], List.length_append, toggles_append es fs,
    samples_append es fs⟩

theorem wrTxn_emitted (c : Byte) (d : List Byte) (s : State) :
    Emitted (34 + 32 * d.length) (16 + 16 * d.length) 0 s (wrTxn c d s) :=
  ⟨_, wrTxn_trace c d s, length_wrTrace c d, toggles_wrTrace c d, samples_wrTrace c d⟩

theorem rdTxn_emitted (c : Byte) (k : Nat) (s : State) :
    Emitted (36 + 32 * k) (16 + 16 * k) (8 * k) s (rdTxn c k s).2 := by
  have hk := (rdTxn_spec c k s).1
  refine ⟨_, rdTxn_trace c k s, ?_, ?_, ?_⟩
  · rw [length_rdTrace, hk]
  · rw [toggles_rdTrace, hk]
  · rw [samples_rdTrace, hk]

/-! ## Operations -/

/-- An operation that emits nothing: its trace is as before. -/
theorem emits_none (h : exec i s = .next t) (ht : t.trace = s.trace) : Emits i s 0 0 0 :=
  emits_iff.2 ⟨t, h, emitted_of_trace_eq ht⟩

/-- An operation that is one write transaction. -/
theorem emits_wireWrite {c : Byte} {d : List Byte} {r : Response} (hs : s.idle)
    (h : exec i s = onWire s (wireWrite c d r)) : Emits i s (34 + 32 * d.length) (16 + 16 * d.length) 0 :=
  emits_iff.2 ⟨_, h.trans (onWire_of_idle _ hs), wrTxn_emitted c d s⟩

/-- An operation that is one read transaction. -/
theorem emits_wireRead {c : Byte} {k : Nat} {r : List Byte → Response} (hs : s.idle)
    (h : exec i s = onWire s (wireRead c k r)) : Emits i s (36 + 32 * k) (16 + 16 * k) (8 * k) :=
  emits_iff.2 ⟨_, h.trans (onWire_of_idle _ hs), rdTxn_emitted c k s⟩

/-- One byte written. -/
theorem emits_writeByte {c b : Byte} {r : Response} (hs : s.idle) (h : exec i s = onWire s (wireWrite c [b] r)) :
    Emits i s 66 32 0 := emits_wireWrite hs h

/-- One byte read. -/
theorem emits_readByte {c : Byte} {r : List Byte → Response} (hs : s.idle)
    (h : exec i s = onWire s (wireRead c 1 r)) : Emits i s 68 32 8 := emits_wireRead hs h

/-- The register block written. -/
theorem emits_writeBlock {c : Byte} {k : Blk} {r : Response} (hs : s.idle)
    (h : exec i s = onWire s (wireWrite c k.toList r)) : Emits i s 290 144 0 := emits_wireWrite hs h

/-- The register block read. -/
theorem emits_readBlock {c : Byte} {r : List Byte → Response} (hs : s.idle)
    (h : exec i s = onWire s (wireRead c 8 r)) : Emits i s 292 144 64 := emits_wireRead hs h

/-- A memory burst write framed by the two writes of the write-protect register. -/
theorem ramBurst_framed_emitted {d : List Byte} {k : Nat} (hd : d.length = k) (h : s.params.autoWp = true) :
    Emitted (166 + 32 * k) (80 + 16 * k) 0 s (ramBurst d s) := by
  subst hd
  have hcounts := ((wrTxn_emitted 0x8E#8 [s.params.wpOff] s).trans (wrTxn_emitted 0xFE#8 d _)).trans
    (wrTxn_emitted 0x8E#8 [s.params.wpOn] _)
  rw [ramBurst_framed d h]
  convert hcounts using 1
  all_goals
    simp only [List.length_singleton]
    omega

theorem ramBurst_plain_emitted {d : List Byte} {k : Nat} (hd : d.length = k) (h : s.params.autoWp = false) :
    Emitted (34 + 32 * k) (16 + 16 * k) 0 s (ramBurst d s) := by
  subst hd
  rw [ramBurst_plain d h]
  exact wrTxn_emitted _ d s

/-- A memory burst write whose data suffices, counted by its transactions (41_protocol.md R174). -/
theorem emits_ramBurstWr {size n k : Nat} {data : List Byte} (hs : s.idle) (h1 : 1 ≤ min size 31)
    (hdata : min size 31 ≤ data.length) (h : Emitted n k 0 s (ramBurst (data.take (min size 31)) s)) :
    Emits (.ramBurstWr size data) s n k 0 :=
  emits_iff.2 ⟨_, exec_ramBurstWr (by omega) hdata hs, h⟩

end Sys2Proof.Machine
end

section
/-! CLAIMS. The statement about the counts. -/

namespace Sys2Proof.Machine

/-- Settles O38: the operand checks first, then one transaction of 1, 8 or `k` bytes, or the three of a framed burst. -/
theorem eventCounts : Obligations.EventCounts := by
  refine ⟨fun s hs => ⟨?regWr, ?ramWr, ?wpSet, ?regRd, ?ramRd, ?clkBurstWr, ?chipSetTime, ?clkBurstRd, ?chipGetTime,
    ?ramBurstRd, ?framed, ?plain⟩, fun s => ⟨?nothingRead, ?nothingWritten, ?badAddress⟩⟩
  case regWr => exact fun _ _ => emits_writeByte hs rfl
  case ramWr => exact fun _ _ ha => emits_writeByte hs (if_neg (ne_true_of_eq_false (badAddr_eq_false ha)))
  case wpSet => exact fun _ => emits_writeByte hs rfl
  case regRd => exact fun _ => emits_readByte hs rfl
  case ramRd => exact fun _ ha => emits_readByte hs (if_neg (ne_true_of_eq_false (badAddr_eq_false ha)))
  case clkBurstWr => exact fun _ => emits_writeBlock hs rfl
  case chipSetTime => exact fun _ _ => emits_writeBlock hs rfl
  case clkBurstRd => exact emits_readBlock hs rfl
  case chipGetTime => exact emits_readBlock hs rfl
  case ramBurstRd =>
    rintro size _ rfl h1
    exact emits_wireRead hs (if_neg (Nat.ne_zero_of_lt h1))
  case framed =>
    rintro size _ data rfl h1 hdata hauto
    exact emits_ramBurstWr hs h1 hdata (ramBurst_framed_emitted (List.length_take_of_le hdata) hauto)
  case plain =>
    rintro size _ data rfl h1 hdata hauto
    exact emits_ramBurstWr hs h1 hdata (ramBurst_plain_emitted (List.length_take_of_le hdata) hauto)
  case nothingRead => exact emits_none rfl rfl
  case nothingWritten => exact fun _ => emits_none rfl rfl
  case badAddress =>
    intro addr ha
    have hbad := badAddr_eq_true ha
    exact ⟨emits_none (if_pos hbad) rfl, fun b => emits_none (if_pos hbad) rfl⟩

end Sys2Proof.Machine
end

section
/-! SUPPORT. The answers of the pure operations as functions of the parameters (70_reset_and_hazards.md R294). -/

namespace Sys2Proof.Machine

variable {i : Instr}

/-- The operation answers a function of the parameters, the same in every state. -/
def AnswersFrom (i : Instr) (answer : Params → Response) : Prop :=
  ∀ s, exec i s = .next { s with resp := some (answer s.params) }

/-- The answer of `ISOTIME`, whether it is present or not (30_encoding.md R101, R108). -/
def isotimeAnswer (tm : Tm) (p : Params) : Response :=
  if p.hasIsotime then if Printable p tm then { text := some (isoText p tm) } else { badFmt := true }
  else badOpResponse

theorem isotime_answersFrom (tm : Tm) : AnswersFrom (.isotime tm) (isotimeAnswer tm) := by
  intro s
  unfold isotimeAnswer
  split
  · rename_i h
    exact exec_isotime tm h
  · rename_i h
    exact if_neg h

theorem exists_answersFrom_of_pureOp (h : pureOp i = true) : ∃ answer, AnswersFrom i answer := by
  cases i with
  | toBcd n => exact ⟨fun _ => _, fun s => exec_toBcd s n⟩
  | fromBcd b => exact ⟨fun _ => _, fun s => exec_fromBcd s b⟩
  | blkPack tm flag => exact ⟨fun p => { blk := some (packBlk p tm flag) }, fun s => exec_blkPack s tm flag⟩
  | blkUnpack k =>
    exact ⟨fun p => { tm := some (unpackTm p k), flag := some (unpackFlag p k) }, fun s => exec_blkUnpack s k⟩
  | isLeap year => exact ⟨fun _ => _, fun s => exec_isLeap s year⟩
  | daysToEpoch year => exact ⟨fun _ => _, fun s => exec_daysToEpoch s year⟩
  | mkGmtime tm =>
    exact ⟨fun p => { t := some (fit p (wallSum p tm)).1, range := (fit p (wallSum p tm)).2 },
      fun s => exec_mkGmtime s tm⟩
  | mktimeUtc tm =>
    exact ⟨fun p => {
      t := some (fit p (wallSum p tm)).1
      tm := some (splitTime p false (fit p (wallSum p tm)).1)
      range := (fit p (wallSum p tm)).2 }, fun s => exec_mktimeUtc s tm⟩
  | gmtime n => exact ⟨fun p => { tm := some (splitTime p false n) }, fun s => exec_gmtime s n⟩
  | isotime tm => exact ⟨_, isotime_answersFrom tm⟩
  | regRd | regWr | clkBurstRd | clkBurstWr | ramRd | ramWr => cases h
  | ramBurstRd | ramBurstWr | wpSet | chipGetTime | chipSetTime => cases h
  | mktimeLocal | localtime | setZone | getZone | setDst => cases h
  | tick | getTime | setTime | getTimeTm | setTimeTm => cases h
  | wireClkBurstWr | wireClkBurstRd | wireRamBurstWr | wireRamBurstRd => cases h
  | wireClkWr | wireClkRd | wireRamWr | wireRamRd | wireNeverSent => cases h

end Sys2Proof.Machine
end

section
/-! CLAIMS. The statement about the pure operations. -/

namespace Sys2Proof.Machine

/-- Settles O53: what a pure operation answers is a function of the parameters, which the two states share. -/
theorem pureOperationsDependOnOperandsAlone : Obligations.PureOperationsDependOnOperandsAlone := by
  intro i s₁ s₂ hpure hparams
  obtain ⟨answer, hanswer⟩ := exists_answersFrom_of_pureOp hpure
  exact ⟨answer s₁.params, hanswer s₁, by rw [hanswer s₂, hparams]⟩

end Sys2Proof.Machine
end
